-- ==== Sys2Proof/Word.lean ====
section
/-! DEFINITION. The fixed widths of the MWU (spec/00_scope.md R6, R8; spec/10_state.md R25): words, bytes,
scalars, and the 64-bit accumulator of the adder and the multiplier. -/

namespace Sys2Proof

/-- One byte of BM (20_memory.md R50). -/
abbrev Byte := BitVec 8

/-- One word of a word buffer, and one command word: `W = CW = 32` (00_scope.md R6, R8). -/
abbrev Word := BitVec 32

/-- One scalar register: `SW = 64` (00_scope.md R8). -/
abbrev Scalar := BitVec 64

/-- The 64-bit accumulator of the adder and of the multiplier (00_scope.md R6). -/
abbrev Acc := BitVec 64

end Sys2Proof
end

