-- ==== Sys2Proof/Config.lean ====
section
/-! DEFINITION. The parameters an implementation fixes (spec/00_scope.md R8) and the one free value of the
model, the launch content of BM (spec/10_state.md R33). -/

namespace Sys2Proof

/-- The named parameters of 00_scope.md R8. They stay fixed for a run and no command can read them. -/
structure Params where
  /-- `CAP`: capacity of one word-buffer register, in words. -/
  cap : Nat
  /-- `BM_SIZE`: size of BM in bytes. -/
  bmSize : Nat
  /-- `SEP`: the digit separator that the parser skips. -/
  sep : Byte
deriving DecidableEq, Repr

/-- An ASCII digit or letter (44_radix_conversion.md R200), which `SEP` must not be (00_scope.md R8). -/
def isAsciiAlnum (c : Byte) : Bool :=
  (0x30 ≤ c.toNat && c.toNat ≤ 0x39) || (0x41 ≤ c.toNat && c.toNat ≤ 0x5A) ||
    (0x61 ≤ c.toNat && c.toNat ≤ 0x7A)

/-- The constraints of 00_scope.md R8: `CAP ≥ 2`, `BM_SIZE ≤ 2^32`, `SEP` neither digit nor letter. -/
abbrev Params.Valid (p : Params) : Prop :=
  2 ≤ p.cap ∧ p.bmSize ≤ 2 ^ 32 ∧ isAsciiAlnum p.sep = false

/-- The side condition of 41_word_buffer_query.md R117 on a realisable capacity. -/
abbrev Params.Realisable (p : Params) : Prop :=
  32 * p.cap < 2 ^ 63

/-- DESIGN CHOICE (log entry 1), unsafe for a claim about `State.reset` alone: the parameters that stand in the
reset state. The spec leaves `CAP` and `BM_SIZE` open; `SEP` is the spec's default `0x27` (R8). -/
def Params.atReset : Params := { cap := 8, bmSize := 256, sep := 0x27 }

/-- DESIGN CHOICE (log entry 3), safe. The FREE VALUE of the model: the launch content of BM, by address. Reset
does not touch BM and its content is unspecified, "never as zero" (10_state.md R33). It has no body, so nothing
can be proved of its values. -/
opaque Config.launchByte : Nat → Byte

end Sys2Proof
end

