-- ==== Sys2Proof/Syntax.lean ====
section
/-! DEFINITION. The 31 commands of MWU-1 as data (spec/30_encoding.md R75), one constructor per row of
spec/opcode_table.json. -/

namespace Sys2Proof

/-- The number of a word-buffer register `B0`..`B15`; every value names a register (30_encoding.md R73). -/
abbrev BReg := Fin 16

/-- The number of a scalar register `S0`..`S15`; every value names a register (30_encoding.md R73). -/
abbrev SReg := Fin 16

/-- The commands of 30_encoding.md R75, operands in field order `f1, f2, ...`. -/
inductive Instr where
  | nop
  | halt
  | li (d : SReg) (imm : BitVec 16)
  | lih (d : SReg) (imm : BitVec 16)
  | mov (d a : BReg)
  | setu (d : BReg) (a : SReg)
  | bits (d : SReg) (a : BReg)
  | popc (d : SReg) (a : BReg)
  | bytes (d : SReg) (a : BReg)
  | cmp (d : SReg) (a b : BReg)
  | add (d a b : BReg)
  | sub (d a b : BReg)
  | mul (d a b : BReg)
  | div (q a b : BReg)
  | mod (r a b : BReg)
  | divmod (q r a b : BReg)
  | pow (d a e : BReg)
  | shl (d a : BReg) (c : SReg)
  | shr (d a : BReg) (c : SReg)
  | getbit (d : SReg) (a : BReg) (x : SReg)
  | setbit (d : BReg) (x : SReg) (v : Bool)
  | flipbit (d : BReg) (x : SReg)
  | and (d a b : BReg)
  | or (d a b : BReg)
  | xor (d a b : BReg)
  | fmt (l : SReg) (a : BReg) (base minDigits addr : SReg)
  | parse (d : BReg) (c base addr len : SReg)
  | wrbe (a : BReg) (p n : SReg)
  | wrle (a : BReg) (p n : SReg)
  | rdbe (d : BReg) (p n : SReg)
  | rdle (d : BReg) (p n : SReg)
deriving DecidableEq, Repr

end Sys2Proof
end

