-- ==== Sys2Proof/WellFormed.lean ====
section
/-! DEFINITION. Which command terms are commands: the field types already bound every register number and
immediate, and the one relation between fields is `DIVMOD`'s (spec/30_encoding.md R74, R76). -/

namespace Sys2Proof

/-- A term spells a command exactly when a `DIVMOD` names two different destinations (30_encoding.md R74). -/
def Instr.wellFormed : Instr → Bool
  | .divmod q r _ _ => q != r
  | .nop | .halt | .li _ _ | .lih _ _ | .mov _ _ | .setu _ _ => true
  | .bits _ _ | .popc _ _ | .bytes _ _ | .cmp _ _ _ => true
  | .add _ _ _ | .sub _ _ _ | .mul _ _ _ | .div _ _ _ | .mod _ _ _ | .pow _ _ _ => true
  | .shl _ _ _ | .shr _ _ _ | .getbit _ _ _ | .setbit _ _ _ | .flipbit _ _ => true
  | .and _ _ _ | .or _ _ _ | .xor _ _ _ => true
  | .fmt _ _ _ _ _ | .parse _ _ _ _ _ => true
  | .wrbe _ _ _ | .wrle _ _ _ | .rdbe _ _ _ | .rdle _ _ _ => true

end Sys2Proof
end

