-- ==== Sys2Proof/Decode.lean ====
section
/-! DEFINITION. The decoder, total on 32-bit words and rejecting by name, and after it the encoder
(spec/30_encoding.md R71, R72, R74 to R79). -/

namespace Sys2Proof

/-- Why a word spells no command (30_encoding.md R76). Each of them raises `ILLEGAL_CMD` (60_exceptions.md R251). -/
inductive IllegalWord where
  /-- The opcode stands in no row of R75. -/
  | unassignedOpcode
  /-- A must-be-zero bit is set; `SETBIT` with `f3 ≥ 2` is one of these (mask `FF00EFFF`). -/
  | nonzeroUnusedBit
  /-- `DIVMOD` with `f1 = f2`. -/
  | equalDivmodDestinations
deriving DecidableEq, Repr

/-- The fields of a command word: R71 (format R) and R72 (format I). -/
structure Fields where
  f1 : Fin 16
  f2 : Fin 16
  f3 : Fin 16
  f4 : Fin 16
  f5 : Fin 16
  imm16 : BitVec 16
deriving DecidableEq, Repr

/-- A four-bit field as a register number (30_encoding.md R73). -/
def regNum (f : BitVec 4) : Fin 16 := ⟨f.toNat, f.isLt⟩

/-- `op = c[31:24]` (30_encoding.md R71, R79). -/
def opField (c : Word) : BitVec 8 := c.extractLsb' 24 8

/-- The operand fields of a word at the bit positions of R71 and R72. -/
def fieldsOf (c : Word) : Fields where
  f1 := regNum (c.extractLsb' 20 4)
  f2 := regNum (c.extractLsb' 16 4)
  f3 := regNum (c.extractLsb' 12 4)
  f4 := regNum (c.extractLsb' 8 4)
  f5 := regNum (c.extractLsb' 4 4)
  imm16 := c.extractLsb' 0 16

/-- One row of the opcode map (30_encoding.md R75): opcode, mask, match, and the command its fields spell. -/
structure Row where
  op : BitVec 8
  mask : Word
  bits : Word
  build : Fields → Instr

/-- R75, opcodes `0x00` to `0x13`: control and move, queries. -/
def rowsControlQuery : List Row :=
  [ ⟨0x00, 0xFFFFFFFF, 0x00000000, fun _ => .nop⟩,
    ⟨0x01, 0xFFFFFFFF, 0x01000000, fun _ => .halt⟩,
    ⟨0x02, 0xFF0F0000, 0x02000000, fun f => .li f.f1 f.imm16⟩,
    ⟨0x03, 0xFF0F0000, 0x03000000, fun f => .lih f.f1 f.imm16⟩,
    ⟨0x04, 0xFF00FFFF, 0x04000000, fun f => .mov f.f1 f.f2⟩,
    ⟨0x05, 0xFF00FFFF, 0x05000000, fun f => .setu f.f1 f.f2⟩,
    ⟨0x10, 0xFF00FFFF, 0x10000000, fun f => .bits f.f1 f.f2⟩,
    ⟨0x11, 0xFF00FFFF, 0x11000000, fun f => .popc f.f1 f.f2⟩,
    ⟨0x12, 0xFF00FFFF, 0x12000000, fun f => .bytes f.f1 f.f2⟩,
    ⟨0x13, 0xFF000FFF, 0x13000000, fun f => .cmp f.f1 f.f2 f.f3⟩ ]

/-- R75, opcodes `0x20` to `0x26`: arithmetic. -/
def rowsArith : List Row :=
  [ ⟨0x20, 0xFF000FFF, 0x20000000, fun f => .add f.f1 f.f2 f.f3⟩,
    ⟨0x21, 0xFF000FFF, 0x21000000, fun f => .sub f.f1 f.f2 f.f3⟩,
    ⟨0x22, 0xFF000FFF, 0x22000000, fun f => .mul f.f1 f.f2 f.f3⟩,
    ⟨0x23, 0xFF000FFF, 0x23000000, fun f => .div f.f1 f.f2 f.f3⟩,
    ⟨0x24, 0xFF000FFF, 0x24000000, fun f => .mod f.f1 f.f2 f.f3⟩,
    ⟨0x25, 0xFF0000FF, 0x25000000, fun f => .divmod f.f1 f.f2 f.f3 f.f4⟩,
    ⟨0x26, 0xFF000FFF, 0x26000000, fun f => .pow f.f1 f.f2 f.f3⟩ ]

/-- R75, opcodes `0x30` to `0x37`: bit operations. The bit value of `SETBIT` is bit 12, the low bit of `f3`
(R78). -/
def rowsBitOps : List Row :=
  [ ⟨0x30, 0xFF000FFF, 0x30000000, fun f => .shl f.f1 f.f2 f.f3⟩,
    ⟨0x31, 0xFF000FFF, 0x31000000, fun f => .shr f.f1 f.f2 f.f3⟩,
    ⟨0x32, 0xFF000FFF, 0x32000000, fun f => .getbit f.f1 f.f2 f.f3⟩,
    ⟨0x33, 0xFF00EFFF, 0x33000000, fun f => .setbit f.f1 f.f2 (f.f3 == 1)⟩,
    ⟨0x34, 0xFF00FFFF, 0x34000000, fun f => .flipbit f.f1 f.f2⟩,
    ⟨0x35, 0xFF000FFF, 0x35000000, fun f => .and f.f1 f.f2 f.f3⟩,
    ⟨0x36, 0xFF000FFF, 0x36000000, fun f => .or f.f1 f.f2 f.f3⟩,
    ⟨0x37, 0xFF000FFF, 0x37000000, fun f => .xor f.f1 f.f2 f.f3⟩ ]

/-- R75, opcodes `0x40` to `0x53`: radix conversion and byte I/O. -/
def rowsRadixBytes : List Row :=
  [ ⟨0x40, 0xFF00000F, 0x40000000, fun f => .fmt f.f1 f.f2 f.f3 f.f4 f.f5⟩,
    ⟨0x41, 0xFF00000F, 0x41000000, fun f => .parse f.f1 f.f2 f.f3 f.f4 f.f5⟩,
    ⟨0x50, 0xFF000FFF, 0x50000000, fun f => .wrbe f.f1 f.f2 f.f3⟩,
    ⟨0x51, 0xFF000FFF, 0x51000000, fun f => .wrle f.f1 f.f2 f.f3⟩,
    ⟨0x52, 0xFF000FFF, 0x52000000, fun f => .rdbe f.f1 f.f2 f.f3⟩,
    ⟨0x53, 0xFF000FFF, 0x53000000, fun f => .rdle f.f1 f.f2 f.f3⟩ ]

/-- The opcode map of 30_encoding.md R75, all 31 rows. -/
def opcodeMap : List Row := rowsControlQuery ++ (rowsArith ++ (rowsBitOps ++ rowsRadixBytes))

/-- Decode, step by step as 30_encoding.md R79 writes it. -/
def decode (c : Word) : Except IllegalWord Instr :=
  match opcodeMap.find? (fun r => r.op == opField c) with
  | none => .error .unassignedOpcode
  | some r =>
    if c &&& r.mask = r.bits then
      if (r.build (fieldsOf c)).wellFormed then .ok (r.build (fieldsOf c))
      else .error .equalDivmodDestinations
    else .error .nonzeroUnusedBit

/-- The instruction that the decoder reads from a command whose bits are `w`, numbered as
spec/opcode_table.json numbers them. A command is one 32-bit number and has no byte order (30_encoding.md R70);
the bits at and above `nbits` are taken as zero (log entry 17). -/
def decodeTableWord (nbits w : Nat) : Option Instr :=
  (decode (BitVec.ofNat 32 (w % 2 ^ nbits))).toOption

/-- A register number as a four-bit field. -/
def regField (r : Fin 16) : BitVec 4 := BitVec.ofNat 4 r.val

/-- Format R (30_encoding.md R71): `op f1 f2 f3 f4 f5 z`, unused fields zero. -/
def formatR (op : BitVec 8) (f1 f2 f3 f4 f5 : BitVec 4) : Word :=
  op ++ f1 ++ f2 ++ f3 ++ f4 ++ f5 ++ 0#4

/-- Format I (30_encoding.md R72): `op f1 z4 imm16`. -/
def formatI (op : BitVec 8) (f1 : BitVec 4) (imm16 : BitVec 16) : Word :=
  op ++ f1 ++ 0#4 ++ imm16

/-- The encoder: the command word of each command's rule ("place `op` and the used fields, zeros elsewhere",
30_encoding.md R79). -/
def encode : Instr → Word
  | .nop => formatR 0x00 0 0 0 0 0
  | .halt => formatR 0x01 0 0 0 0 0
  | .li d imm => formatI 0x02 (regField d) imm
  | .lih d imm => formatI 0x03 (regField d) imm
  | .mov d a => formatR 0x04 (regField d) (regField a) 0 0 0
  | .setu d a => formatR 0x05 (regField d) (regField a) 0 0 0
  | .bits d a => formatR 0x10 (regField d) (regField a) 0 0 0
  | .popc d a => formatR 0x11 (regField d) (regField a) 0 0 0
  | .bytes d a => formatR 0x12 (regField d) (regField a) 0 0 0
  | .cmp d a b => formatR 0x13 (regField d) (regField a) (regField b) 0 0
  | .add d a b => formatR 0x20 (regField d) (regField a) (regField b) 0 0
  | .sub d a b => formatR 0x21 (regField d) (regField a) (regField b) 0 0
  | .mul d a b => formatR 0x22 (regField d) (regField a) (regField b) 0 0
  | .div q a b => formatR 0x23 (regField q) (regField a) (regField b) 0 0
  | .mod r a b => formatR 0x24 (regField r) (regField a) (regField b) 0 0
  | .divmod q r a b => formatR 0x25 (regField q) (regField r) (regField a) (regField b) 0
  | .pow d a e => formatR 0x26 (regField d) (regField a) (regField e) 0 0
  | .shl d a c => formatR 0x30 (regField d) (regField a) (regField c) 0 0
  | .shr d a c => formatR 0x31 (regField d) (regField a) (regField c) 0 0
  | .getbit d a x => formatR 0x32 (regField d) (regField a) (regField x) 0 0
  | .setbit d x v => formatR 0x33 (regField d) (regField x) (if v then 1 else 0) 0 0
  | .flipbit d x => formatR 0x34 (regField d) (regField x) 0 0 0
  | .and d a b => formatR 0x35 (regField d) (regField a) (regField b) 0 0
  | .or d a b => formatR 0x36 (regField d) (regField a) (regField b) 0 0
  | .xor d a b => formatR 0x37 (regField d) (regField a) (regField b) 0 0
  | .fmt l a b m p => formatR 0x40 (regField l) (regField a) (regField b) (regField m) (regField p)
  | .parse d c b p n => formatR 0x41 (regField d) (regField c) (regField b) (regField p) (regField n)
  | .wrbe a p n => formatR 0x50 (regField a) (regField p) (regField n) 0 0
  | .wrle a p n => formatR 0x51 (regField a) (regField p) (regField n) 0 0
  | .rdbe d p n => formatR 0x52 (regField d) (regField p) (regField n) 0 0
  | .rdle d p n => formatR 0x53 (regField d) (regField p) (regField n) 0 0

end Sys2Proof
end

