-- ==== Sys2Proof/Machine/State.lean ====
section
/-! DEFINITION. The state of the MWU (spec/10_state.md R20 to R34), the reasons a step can stop, and the state
after reset (spec/10_state.md R33). -/

namespace Sys2Proof.Machine

/-- The content of one word-buffer register: words of 32 bits, least-significant first (10_state.md R21). -/
abbrev Buf := List Word

/-- BM as the list of the bytes written so far, addresses strictly rising (20_memory.md R50). An unlisted address
holds a byte nobody has written: it reads as `Config.launchByte` (log entry 3). -/
abbrev Memory := List Host.Cell

/-- The values of `STATUS.RS` (10_state.md R28). -/
inductive RunState where
  | idle
  | run
  | halted
  | fault
deriving DecidableEq, Repr

/-- The six fault causes of 60_exceptions.md R250. Raising one is a NEXT state of the step (R258). -/
inductive Cause where
  | illegalCmd
  | divZero
  | badBase
  | subUnderflow
  | bmRange
  | capOverflow
deriving DecidableEq, Repr

/-- The state of 10_state.md R20, and beside it the parameters of the run (10_state.md R34), which no command
writes: the stream with its index (R29) and `CAP`, `BM_SIZE`, `SEP` (00_scope.md R8). -/
structure State where
  /-- `B0`..`B15` (10_state.md R21). -/
  bReg : Vector Buf 16
  /-- `S0`..`S15` (10_state.md R25). -/
  sReg : Vector Scalar 16
  /-- `BM` (10_state.md R26). -/
  bm : Memory
  /-- `CC`, the command counter (10_state.md R30). -/
  cc : Word
  /-- `STATUS`: `RS` in bits 1:0, bits 31:2 hardwired 0 (10_state.md R28). -/
  status : Word
  /-- `CAUSE`: `CODE` in bits 2:0, bits 31:3 hardwired 0 (10_state.md R28). -/
  cause : Word
  /-- `ECC`: `CC` of the faulting command (10_state.md R28). -/
  ecc : Word
  /-- `ECMD`: the faulting command word (10_state.md R28). -/
  ecmd : Word
  /-- The command stream of the run (10_state.md R29). -/
  prog : List Word
  /-- The index into the stream (10_state.md R29, R31). -/
  k : Nat
  /-- `CAP`, `BM_SIZE`, `SEP` (00_scope.md R8). -/
  params : Params
deriving DecidableEq, Repr

/-- Why no step is enabled (10_state.md R31: enabled exactly when `STATUS.RS = RUN` and `k < len(prog)`). Raised by
`fetch` only, never by a command; all safe (log entry 4): the hardware does nothing there either. -/
inductive Fault where
  /-- `RS = IDLE`: the unit waits for `start` (70_reset_and_hazards.md R280). Raised by `fetch`; safe. -/
  | idle
  /-- `RS = HALTED`: the run is final (70_reset_and_hazards.md R286). Raised by `fetch`; safe. -/
  | halted
  /-- `RS = FAULT`: absorbing until reset (60_exceptions.md R260). Raised by `fetch`; safe. -/
  | faulted
  /-- `RS = RUN` and `k = len(prog)`: stuck, waiting for a command for ever (70_reset_and_hazards.md R285). Raised
  by `fetch`; safe. -/
  | streamEnd
deriving DecidableEq, Repr

/-- A step without a meaning. -/
inductive Refusal where
  /-- An instruction that has no meaning yet, by its mnemonic. Raised by an arm of `exec`; safe. No arm raises it:
  every command has its meaning. -/
  | notModelled (mnemonic : String)
deriving DecidableEq, Repr

/-- The state after reset (10_state.md R33): `B` empty, `S` zero, the five status registers zero, `BM` untouched
(nothing listed). The stream is empty (log entry 2) and the parameters are `Params.atReset` (log entry 1). -/
def State.reset : State where
  bReg := Vector.replicate 16 []
  sReg := Vector.replicate 16 0
  bm := []
  cc := 0
  status := 0
  cause := 0
  ecc := 0
  ecmd := 0
  prog := []
  k := 0
  params := Params.atReset

end Sys2Proof.Machine
end

