-- ==== Sys2Proof/Machine/Buffer.lean ====
section
/-! DEFINITION. Word sequences: value, `words`, trim, bit access, the query functions and compare
(spec/00_scope.md R10, R11; spec/41_word_buffer_query.md R110, R113 to R116; spec/43_bit_operations.md R170). -/

namespace Sys2Proof.Machine

/-- `wd(w, i)`: `w[i]` if `i < len(w)`, else 0 (00_scope.md R10). -/
def wd (w : Buf) (i : Nat) : Word := w.getD i 0

/-- `val(w) = Σ w[i]·2^(32·i)` (00_scope.md R10). -/
def val : Buf → Nat
  | [] => 0
  | w :: ws => w.toNat + 2 ^ 32 * val ws

/-- A sequence is trimmed when it is empty or its last word is non-zero (00_scope.md R11). -/
abbrev Trimmed (w : Buf) : Prop := w.getLast? ≠ some 0

/-- `trim(w)`: pop zero words from the high end (41_word_buffer_query.md R110). -/
def trim : Buf → Buf
  | [] => []
  | w :: ws => if trim ws = [] ∧ w = 0 then [] else w :: trim ws

/-- The `n` low words of `v` at most, ending where no bit is left. -/
def wordsUpTo : Nat → Nat → Buf
  | 0, _ => []
  | n + 1, v => if v = 0 then [] else BitVec.ofNat 32 v :: wordsUpTo n (v / 2 ^ 32)

/-- `words(v)`: the one trimmed sequence with value `v` (00_scope.md R11). -/
def words (v : Nat) : Buf := wordsUpTo (v.log2 / 32 + 1) v

/-- `p(t)`: the position of the highest set bit of a word, counted from 1 (41_word_buffer_query.md R113). -/
def topPosition (t : Word) : Nat := if t = 0 then 0 else t.toNat.log2 + 1

/-- `bits(w)` (41_word_buffer_query.md R113). -/
def bits (w : Buf) : Nat :=
  match w.getLast? with
  | none => 0
  | some t => 32 * (w.length - 1) + topPosition t

/-- The number of bits equal to 1 in one word. -/
def onesInWord (t : Word) : Nat := (List.range 32).countP (fun i => t.getLsbD i)

/-- `bits_set(w)`: population count summed across words (41_word_buffer_query.md R114). -/
def bitsSet (w : Buf) : Nat := (w.map onesInWord).sum

/-- `q(t)`: the bytes a non-zero top word needs (41_word_buffer_query.md R115). -/
def topBytes (t : Word) : Nat :=
  if t.toNat < 2 ^ 8 then 1 else if t.toNat < 2 ^ 16 then 2 else if t.toNat < 2 ^ 24 then 3 else 4

/-- `bytes(w)` (41_word_buffer_query.md R115). -/
def bytes (w : Buf) : Nat :=
  match w.getLast? with
  | none => 0
  | some t => 4 * (w.length - 1) + topBytes t

/-- The word comparison of R116 from index `n - 1` down to 0; the first difference decides. -/
def compareFrom (a b : Buf) : Nat → Int
  | 0 => 0
  | n + 1 =>
    if (wd a n).toNat < (wd b n).toNat then -1
    else if (wd b n).toNat < (wd a n).toNat then 1
    else compareFrom a b n

/-- `compare(a, b)`: −1, 0 or +1; lengths first, then words from the most significant down
(41_word_buffer_query.md R116). -/
def compareBuf (a b : Buf) : Int :=
  if a.length < b.length then -1
  else if b.length < a.length then 1
  else compareFrom a b a.length

/-- `bit(w, i) = wd(w, i div 32)[i mod 32]` (43_bit_operations.md R170). -/
def bit (w : Buf) (i : Nat) : Bool := (wd w (i / 32)).getLsbD (i % 32)

/-- `byte(v, k) = (v div 2^(8k)) mod 256` (20_memory.md R54). -/
def byteOf (v k : Nat) : Byte := BitVec.ofNat 8 (v >>> (8 * k))

end Sys2Proof.Machine
end

