-- ==== Sys2Proof/Machine/Ops.lean ====
section
/-! DEFINITION. The named operations over registers, BM and the status registers; taking a fault as one shared
operation and, beside it, reset, the only way out of one (spec/00_scope.md R12; spec/20_memory.md R50 to R53;
spec/60_exceptions.md R258, R260; spec/70_reset_and_hazards.md R280). -/

namespace Sys2Proof.Machine

/-! ### Registers -/

/-- `B[i]` (00_scope.md R12). -/
def State.readB (s : State) (i : BReg) : Buf := s.bReg[i.val]

/-- `B[i] <- w` (00_scope.md R12); no other register changes (10_state.md R24). -/
def State.writeB (s : State) (i : BReg) (w : Buf) : State := { s with bReg := s.bReg.set i.val w i.isLt }

/-- `S[i]` (00_scope.md R12). -/
def State.readS (s : State) (i : SReg) : Scalar := s.sReg[i.val]

/-- `S[i] <- v` (00_scope.md R12). -/
def State.writeS (s : State) (i : SReg) (v : Scalar) : State := { s with sReg := s.sReg.set i.val v i.isLt }

/-! ### BM -/

/-- The byte that a memory lists at an address, if it lists one. -/
def Memory.get? : Memory → Nat → Option Byte
  | [], _ => none
  | (b, v) :: m, a => if b = a then some v else Memory.get? m a

/-- Write one byte, keeping the addresses strictly rising. -/
def Memory.write : Memory → Nat → Byte → Memory
  | [], a, v => [(a, v)]
  | (b, w) :: m, a, v =>
    if a < b then (a, v) :: (b, w) :: m
    else if a = b then (a, v) :: m
    else (b, w) :: Memory.write m a v

/-- `MemWrite` on the list of bytes: `bs[0]` at the lowest address (20_memory.md R53). -/
def Memory.writeRun : Memory → Nat → List Byte → Memory
  | m, _, [] => m
  | m, a, v :: vs => Memory.writeRun (Memory.write m a v) (a + 1) vs

/-- The canonical form: addresses strictly rising. An unlisted address holds a byte nobody has written, which no
byte can be compared with, so every listed byte stays listed (log entry 3). -/
abbrev Memory.wf (m : Memory) : Prop := m.Pairwise (fun x y => x.1 < y.1)

/-- `BM[a]`. A byte nobody has written reads as the free value `Config.launchByte a` (10_state.md R33). -/
def State.readByte (s : State) (a : Nat) : Byte := (Memory.get? s.bm a).getD (Config.launchByte a)

/-- The range check of 20_memory.md R51, on unbounded naturals. -/
def State.inRange (s : State) (addr n : Nat) : Bool := decide (addr + n ≤ s.params.bmSize)

/-- `MemRead(addr, n)` (20_memory.md R52). -/
def State.memRead (s : State) (addr n : Nat) : List Byte := (List.range n).map (fun j => s.readByte (addr + j))

/-- `MemWrite(addr, len(bs), bs)` (20_memory.md R53). -/
def State.memWrite (s : State) (addr : Nat) (bs : List Byte) : State :=
  { s with bm := Memory.writeRun s.bm addr bs }

/-! ### Status registers (10_state.md R28) -/

/-- The code of a run state in `STATUS.RS`. -/
def RunState.code : RunState → Word
  | .idle => 0
  | .run => 1
  | .halted => 2
  | .fault => 3

/-- `STATUS.RS`, bits 1:0 of `STATUS`. -/
def State.rs (s : State) : RunState :=
  if s.status.extractLsb' 0 2 = 0 then .idle
  else if s.status.extractLsb' 0 2 = 1 then .run
  else if s.status.extractLsb' 0 2 = 2 then .halted
  else .fault

/-- `STATUS.RS <- r`; bits 31:2 are hardwired to 0. -/
def State.setRS (s : State) (r : RunState) : State := { s with status := r.code }

/-- The cause codes of 60_exceptions.md R250. -/
def Cause.code : Cause → Word
  | .illegalCmd => 1
  | .divZero => 2
  | .badBase => 3
  | .subUnderflow => 4
  | .bmRange => 5
  | .capOverflow => 6

/-- `CAUSE.CODE`, bits 2:0 of `CAUSE`. -/
def State.causeCode (s : State) : BitVec 3 := s.cause.extractLsb' 0 3

/-! ### The end of a command -/

/-- What every step of the machine and every command answers. -/
abbrev Result := Host.Outcome State Fault Refusal

/-- `CC <- (CC + 1) mod 2^32`, `k <- k + 1`: the end of a command that completes (10_state.md R30, R31). -/
def State.complete (s : State) : State := { s with cc := s.cc + 1, k := s.k + 1 }

/-- A command that completes with the writes already made in `s`. -/
def done (s : State) : Result := .next s.complete

/-- Fault entry, `raise F` of the command word `cmd` (60_exceptions.md R258): the four status registers record the
fault, and nothing else changes, `CC` included. Control goes nowhere: the unit stops. -/
def State.raise (s : State) (f : Cause) (cmd : Word) : State :=
  { s with cause := f.code, ecc := s.cc, ecmd := cmd, status := RunState.fault.code }

/-- The command `i` raises `f` (60_exceptions.md R258). Its word is `encode i`, since `encode(decode(c)) = c`
(30_encoding.md R79; log entry 6). -/
def raised (f : Cause) (i : Instr) (s : State) : Result := .next (s.raise f (encode i))

/-- There is no return from a fault but reset (60_exceptions.md R260). Reset, at any time: every piece of state
takes its reset value, BM is untouched (70_reset_and_hazards.md R280); the parameters of the unit stay, and the
stream of the abandoned run is dropped (log entry 16). -/
def State.assertReset (s : State) : State := { State.reset with bm := s.bm, params := s.params }

/-- The last lines of a command `i` that writes the number `v` to `B[d]` under the capacity check of
60_exceptions.md R256: `CAP_OVERFLOW` when `words(v)` has more than `CAP` words. -/
def finishB (i : Instr) (d : BReg) (v : Nat) (s : State) : Result :=
  if s.params.cap < (words v).length then raised .capOverflow i s else done (s.writeB d (words v))

/-- The last lines of a command that writes to `B[d]` a number that never needs more than `CAP` words. -/
def finishFitting (d : BReg) (v : Nat) (s : State) : Result := done (s.writeB d (words v))

/-- The last lines of a command that writes the number `v` to `S[d]`, zero-extended to 64 bits
(41_word_buffer_query.md R117). -/
def finishS (d : SReg) (v : Nat) (s : State) : Result := done (s.writeS d (BitVec.ofNat 64 v))

/-! ### Fetch -/

/-- The step is enabled exactly when `STATUS.RS = RUN` and `k < len(prog)`; the command is `prog[k]`
(10_state.md R29, R31). -/
def State.fetch (s : State) : Except Fault Word :=
  match s.rs with
  | .idle => .error .idle
  | .halted => .error .halted
  | .fault => .error .faulted
  | .run =>
    match s.prog[s.k]? with
    | none => .error .streamEnd
    | some c => .ok c

end Sys2Proof.Machine
end

