-- ==== Sys2Proof/Machine/Operands.lean ====
section
/-! DEFINITION. The operand forms of the commands (spec/30_encoding.md R73, R78): a buffer as a number, a scalar
as a number, a byte run of BM named by two scalars, and the two immediates. -/

namespace Sys2Proof.Machine

/-- A buffer operand as the number it stands for, `val(B[a])` (10_state.md R21). -/
def State.valB (s : State) (a : BReg) : Nat := val (s.readB a)

/-- A scalar operand, read as the full 64-bit unsigned number (10_state.md R25). -/
def State.natS (s : State) (c : SReg) : Nat := (s.readS c).toNat

/-- A byte-run operand is legal when it lies inside BM (20_memory.md R51, 45_byte_io.md R230). -/
def State.runOk (s : State) (p n : SReg) : Bool := s.inRange (s.natS p) (s.natS n)

/-- The bytes of a byte-run operand (45_byte_io.md R230). -/
def State.runBytes (s : State) (p n : SReg) : List Byte := s.memRead (s.natS p) (s.natS n)

/-- `imm16` zero-extended to a scalar (30_encoding.md R78). -/
def immScalar (imm : BitVec 16) : Scalar := imm.setWidth 64

end Sys2Proof.Machine
end

