-- ==== Sys2Proof/Machine/Arith.lean ====
section
/-! DEFINITION. The arithmetic commands by their result contracts (spec/42_arithmetic.md R130 (a), R131, R133, R135,
R137, R139 to R142). The word-by-word datapaths stand in Machine/Datapath.lean. -/

namespace Sys2Proof.Machine

/-- `ADD Bd, Ba, Bb` (R131). -/
def execAdd (d a b : BReg) (s : State) : Result := finishB (.add d a b) d (s.valB a + s.valB b) s

/-- `SUB Bd, Ba, Bb` (R133): `SUB_UNDERFLOW` when `compare(B[a], B[b]) = −1`. -/
def execSub (d a b : BReg) (s : State) : Result :=
  if compareBuf (s.readB a) (s.readB b) = -1 then raised .subUnderflow (.sub d a b) s
  else finishFitting d (s.valB a - s.valB b) s

/-- `MUL Bd, Ba, Bb` (R135). -/
def execMul (d a b : BReg) (s : State) : Result := finishB (.mul d a b) d (s.valB a * s.valB b) s

/-- `DIV Bq, Ba, Bb` (R139): `DIV_ZERO` when `B[b]` is empty. -/
def execDiv (q a b : BReg) (s : State) : Result :=
  if s.readB b = [] then raised .divZero (.div q a b) s
  else finishFitting q (s.valB a / s.valB b) s

/-- `MOD Br, Ba, Bb` (R140): `DIV_ZERO` when `B[b]` is empty. -/
def execMod (r a b : BReg) (s : State) : Result :=
  if s.readB b = [] then raised .divZero (.mod r a b) s
  else finishFitting r (s.valB a % s.valB b) s

/-- `DIVMOD Bq, Br, Ba, Bb` (R141): both operands are read before either write. -/
def execDivmod (q r a b : BReg) (s : State) : Result :=
  if s.readB b = [] then raised .divZero (.divmod q r a b) s
  else done ((s.writeB q (words (s.valB a / s.valB b))).writeB r (words (s.valB a % s.valB b)))

/-- `x ^ n` with a base of 0 or 1 answered at once, so that a large exponent costs nothing; `x ^ 0 = 1` for every
`x`, `0 ^ 0` included (R142). -/
def power (x n : Nat) : Nat := if n = 0 then 1 else if x ≤ 1 then x else x ^ n

/-- `POW Bd, Ba, Be` (R142). The power is formed only when it can fit: R142 itself says the command faults
whenever `x ≥ 2` and `n ≥ 32·CAP` (log entry 8). -/
def execPow (d a e : BReg) (s : State) : Result :=
  if 2 ≤ s.valB a ∧ 32 * s.params.cap ≤ s.valB e then raised .capOverflow (.pow d a e) s
  else finishB (.pow d a e) d (power (s.valB a) (s.valB e)) s

end Sys2Proof.Machine
end

