-- ==== Sys2Proof/Machine/BitOps.lean ====
section
/-! DEFINITION. The bit operations by their result contracts (spec/43_bit_operations.md R170, R171, R173, R175 to
R180). The word-by-word datapaths stand in Machine/Datapath.lean. -/

namespace Sys2Proof.Machine

/-- `SHL Bd, Ba, Sc` (R171): `CAP_OVERFLOW` when the source is non-zero and `bits(B[a]) + s > 32·CAP`. -/
def execShl (d a : BReg) (c : SReg) (s : State) : Result :=
  if s.readB a = [] then done (s.writeB d [])
  else if 32 * s.params.cap < bits (s.readB a) + s.natS c then raised .capOverflow (.shl d a c) s
  else finishFitting d (s.valB a * 2 ^ s.natS c) s

/-- `SHR Bd, Ba, Sc` (R173): `words(val(B[a]) div 2^s)`. -/
def execShr (d a : BReg) (c : SReg) (s : State) : Result := finishFitting d (s.valB a >>> s.natS c) s

/-- `GETBIT Sd, Ba, Si` (R175): 0 or 1; 0 beyond the buffer. -/
def execGetbit (d : SReg) (a : BReg) (x : SReg) (s : State) : Result :=
  finishS d (bit (s.readB a) (s.natS x)).toNat s

/-- `x AND NOT 2^k` on naturals, by the value the bit has (R176: `x − 2^k` if bit `k` of `x` is 1, else `x`). -/
def withoutBit (x : Nat) (was : Bool) (k : Nat) : Nat := if was then x - 2 ^ k else x

/-- `SETBIT Bd, Si, v` (R176): `CAP_OVERFLOW` only for `v = 1` with `k div 32 + 1 > CAP`. -/
def execSetbit (d : BReg) (x : SReg) (v : Bool) (s : State) : Result :=
  if v then
    if s.params.cap < s.natS x / 32 + 1 then raised .capOverflow (.setbit d x v) s
    else finishFitting d (s.valB d ||| 2 ^ s.natS x) s
  else finishFitting d (withoutBit (s.valB d) (bit (s.readB d) (s.natS x)) (s.natS x)) s

/-- `FLIPBIT Bd, Si` (R177): `CAP_OVERFLOW` when bit `k` is 0 and `k div 32 + 1 > CAP`. -/
def execFlipbit (d : BReg) (x : SReg) (s : State) : Result :=
  if bit (s.readB d) (s.natS x) = false ∧ s.params.cap < s.natS x / 32 + 1 then
    raised .capOverflow (.flipbit d x) s
  else finishFitting d (s.valB d ^^^ 2 ^ s.natS x) s

/-- `AND Bd, Ba, Bb` (R178). -/
def execAnd (d a b : BReg) (s : State) : Result := finishFitting d (s.valB a &&& s.valB b) s

/-- `OR Bd, Ba, Bb` (R179). -/
def execOr (d a b : BReg) (s : State) : Result := finishFitting d (s.valB a ||| s.valB b) s

/-- `XOR Bd, Ba, Bb` (R180). -/
def execXor (d a b : BReg) (s : State) : Result := finishFitting d (s.valB a ^^^ s.valB b) s

end Sys2Proof.Machine
end

