-- ==== Sys2Proof/Machine/ByteIO.lean ====
section
/-! DEFINITION. The byte-buffer serializer (spec/45_byte_io.md R230 to R234). -/

namespace Sys2Proof.Machine

/-- `[byte(v, j) for j in 0 .. cnt − 1]`: lowest-weight byte first (R232). -/
def bytesLE (v cnt : Nat) : List Byte := (List.range cnt).map (byteOf v)

/-- `[byte(v, cnt − 1 − j) for j in 0 .. cnt − 1]`: highest-weight byte first (R231). -/
def bytesBE (v cnt : Nat) : List Byte := (List.range cnt).map (fun j => byteOf v (cnt - 1 - j))

/-- `Σ bs[j]·2^(8·j)`: first byte has the lowest weight (R234). -/
def valLE : List Byte → Nat
  | [] => 0
  | b :: bs => b.toNat + 2 ^ 8 * valLE bs

/-- `Σ bs[j]·2^(8·(cnt − 1 − j))`: first byte has the highest weight (R233). -/
def valBE (bs : List Byte) : Nat := bs.foldl (fun v b => v * 2 ^ 8 + b.toNat) 0

/-- `WRBE Ba, Sp, Sn` (R231): exactly `n` bytes, big-endian, high-order bytes silently lost. -/
def execWrbe (a : BReg) (p n : SReg) (s : State) : Result :=
  if s.runOk p n then done (s.memWrite (s.natS p) (bytesBE (s.valB a) (s.natS n)))
  else raised .bmRange (.wrbe a p n) s

/-- `WRLE Ba, Sp, Sn` (R232): exactly `n` bytes, little-endian, high-order bytes silently lost. -/
def execWrle (a : BReg) (p n : SReg) (s : State) : Result :=
  if s.runOk p n then done (s.memWrite (s.natS p) (bytesLE (s.valB a) (s.natS n)))
  else raised .bmRange (.wrle a p n) s

/-- `RDBE Bd, Sp, Sn` (R233). -/
def execRdbe (d : BReg) (p n : SReg) (s : State) : Result :=
  if s.runOk p n then finishB (.rdbe d p n) d (valBE (s.runBytes p n)) s
  else raised .bmRange (.rdbe d p n) s

/-- `RDLE Bd, Sp, Sn` (R234). -/
def execRdle (d : BReg) (p n : SReg) (s : State) : Result :=
  if s.runOk p n then finishB (.rdle d p n) d (valLE (s.runBytes p n)) s
  else raised .bmRange (.rdle d p n) s

end Sys2Proof.Machine
end

