-- ==== Sys2Proof/Machine/Control.lean ====
section
/-! DEFINITION. Control and move commands (spec/40_control_move.md R90 to R95). -/

namespace Sys2Proof.Machine

/-- `NOP` (R90): no effect. -/
def execNop (s : State) : Result := done s

/-- `HALT` (R91): `STATUS.RS <- HALTED`; `CC` is not advanced. -/
def execHalt (s : State) : Result := .next (s.setRS .halted)

/-- `LI Sd, imm16` (R92). -/
def execLi (d : SReg) (imm : BitVec 16) (s : State) : Result := done (s.writeS d (immScalar imm))

/-- `LIH Sd, imm16` (R93): `((S[d]·2^16) mod 2^64) + imm16`. -/
def execLih (d : SReg) (imm : BitVec 16) (s : State) : Result :=
  done (s.writeS d ((s.readS d <<< 16) + immScalar imm))

/-- `MOV Bd, Ba` (R94): the whole sequence, length included. -/
def execMov (d a : BReg) (s : State) : Result := done (s.writeB d (s.readB a))

/-- `SETU Bd, Sa` (R95): `words(S[a])`. -/
def execSetu (d : BReg) (a : SReg) (s : State) : Result := finishFitting d (s.natS a) s

end Sys2Proof.Machine
end

