-- ==== Sys2Proof/Machine/Query.lean ====
section
/-! DEFINITION. The query commands (spec/41_word_buffer_query.md R117 to R121). -/

namespace Sys2Proof.Machine

/-- `BITS Sd, Ba` (R119). -/
def execBits (d : SReg) (a : BReg) (s : State) : Result := finishS d (bits (s.readB a)) s

/-- `POPC Sd, Ba` (R120). -/
def execPopc (d : SReg) (a : BReg) (s : State) : Result := finishS d (bitsSet (s.readB a)) s

/-- `BYTES Sd, Ba` (R121). -/
def execBytes (d : SReg) (a : BReg) (s : State) : Result := finishS d (bytes (s.readB a)) s

/-- `CMP Sd, Ba, Bb` (R118): `S[d] <- sext_64(compare(B[a], B[b]))`. -/
def execCmp (d : SReg) (a b : BReg) (s : State) : Result :=
  done (s.writeS d (BitVec.ofInt 64 (compareBuf (s.readB a) (s.readB b))))

end Sys2Proof.Machine
end

