-- ==== Sys2Proof/Machine/Radix.lean ====
section
/-! DEFINITION. The base-radix converter: characters, numerals, `FMT` and `PARSE`
(spec/44_radix_conversion.md R200 to R211). -/

namespace Sys2Proof.Machine

/-- `digit_char(d)` for a digit value 0..35, lower case above 9 (R201). -/
def digitChar (d : Nat) : Byte := if d ≤ 9 then BitVec.ofNat 8 (0x30 + d) else BitVec.ofNat 8 (0x61 + (d - 10))

/-- The `n` low digits of `v` at most, most-significant first, ending where no digit is left. -/
def digitsUpTo (b : Nat) : Nat → Nat → List Nat
  | 0, _ => []
  | n + 1, v => if v = 0 then [] else digitsUpTo b n (v / b) ++ [v % b]

/-- `digits(v, b)`: the digit values of `v` in base `b`, most-significant first, no leading zero (R203). -/
def digits (v b : Nat) : List Nat := digitsUpTo b (v.log2 + 1) v

/-- The text of `FMT`: `'0'` padding on the left up to `L` characters, then the digits (R202). -/
def fmtText (L : Nat) (ds : List Nat) : List Byte := List.replicate (L - ds.length) 0x30#8 ++ ds.map digitChar

/-- The length `L` of the text that `FMT` writes: `max(len(ds), min_digits)` (R202). -/
def fmtLength (ds : List Nat) (minDigits : Nat) : Nat := max ds.length minDigits

/-- `FMT Sl, Ba, Sb, Sm, Sp` (R202): every scalar is read before `S[l]` is written. -/
def execFmt (l : SReg) (a : BReg) (base minDigits addr : SReg) (s : State) : Result :=
  if s.natS base < 2 ∨ 36 < s.natS base then raised .badBase (.fmt l a base minDigits addr) s
  else
    let ds := digits (s.valB a) (s.natS base)
    let L := fmtLength ds (s.natS minDigits)
    if s.inRange (s.natS addr) L then
      finishS l L (s.memWrite (s.natS addr) (fmtText L ds))
    else raised .bmRange (.fmt l a base minDigits addr) s

/-- `digit_value(c)`, both letter cases (R209). -/
def digitValue (c : Byte) : Option Nat :=
  if 0x30 ≤ c.toNat ∧ c.toNat ≤ 0x39 then some (c.toNat - 0x30)
  else if 0x61 ≤ c.toNat ∧ c.toNat ≤ 0x7A then some (c.toNat - 0x61 + 10)
  else if 0x41 ≤ c.toNat ∧ c.toNat ≤ 0x5A then some (c.toNat - 0x41 + 10)
  else none

/-- A byte that is a valid digit in base `b` gives its value (R209). -/
def validDigit (b : Nat) (c : Byte) : Option Nat := (digitValue c).filter (fun d => decide (d < b))

/-- Auto-detection of the base from the first two characters: the base and how many characters the `0b`/`0x`
takes (R207). -/
def detectBase : List Byte → Nat × Nat
  | c0 :: c1 :: _ =>
    if c0 = 0x30 ∧ (c1 = 0x62 ∨ c1 = 0x42) then (2, 2)
    else if c0 = 0x30 ∧ (c1 = 0x78 ∨ c1 = 0x58) then (16, 2)
    else (10, 0)
  | _ => (10, 0)

/-- The scan over the characters from position `p` on, with the value so far: the value and the number of
characters consumed (R210). Separators are stepped over and counted (R208). -/
def scan (sep : Byte) (base : Nat) : List Byte → Nat → Nat → Nat × Nat
  | [], v, p => (v, p)
  | c :: cs, v, p =>
    if c = sep then scan sep base cs v (p + 1)
    else
      match validDigit base c with
      | some d => scan sep base cs (v * base + d) (p + 1)
      | none => (v, p)

/-- Base and starting position: R207 when the base operand is 0, else the operand itself (R206, R211). -/
def parseBase (base : Nat) (t : List Byte) : Nat × Nat := if base = 0 then detectBase t else (base, 0)

/-- What `PARSE` reads from a text: the value and the number of characters consumed (R211). -/
def parseText (sep : Byte) (base : Nat) (t : List Byte) : Nat × Nat :=
  scan sep (parseBase base t).1 (t.drop (parseBase base t).2) 0 (parseBase base t).2

/-- `PARSE Bd, Sc, Sb, Sp, Sn` (R211): every scalar is read before `S[c]` is written. -/
def execParse (d : BReg) (c base addr len : SReg) (s : State) : Result :=
  if s.natS base = 1 ∨ 36 < s.natS base then raised .badBase (.parse d c base addr len) s
  else if s.runOk addr len then
    let r := parseText s.params.sep (s.natS base) (s.runBytes addr len)
    if s.params.cap < (words r.1).length then raised .capOverflow (.parse d c base addr len) s
    else finishS c r.2 (s.writeB d (words r.1))
  else raised .bmRange (.parse d c base addr len) s

end Sys2Proof.Machine
end

