-- ==== Sys2Proof/Machine/Dispatch.lean ====
section
/-! DEFINITION. One arm per command, each one call of its meaning (spec/30_encoding.md R75). -/

namespace Sys2Proof.Machine

def exec (i : Instr) (s : State) : Host.Outcome State Fault Refusal :=
  match i with
  | .nop => Sys2Proof.Machine.execNop s
  | .halt => Sys2Proof.Machine.execHalt s
  | .li d imm => Sys2Proof.Machine.execLi d imm s
  | .lih d imm => Sys2Proof.Machine.execLih d imm s
  | .mov d a => Sys2Proof.Machine.execMov d a s
  | .setu d a => Sys2Proof.Machine.execSetu d a s
  | .bits d a => Sys2Proof.Machine.execBits d a s
  | .popc d a => Sys2Proof.Machine.execPopc d a s
  | .bytes d a => Sys2Proof.Machine.execBytes d a s
  | .cmp d a b => Sys2Proof.Machine.execCmp d a b s
  | .add d a b => Sys2Proof.Machine.execAdd d a b s
  | .sub d a b => Sys2Proof.Machine.execSub d a b s
  | .mul d a b => Sys2Proof.Machine.execMul d a b s
  | .div q a b => Sys2Proof.Machine.execDiv q a b s
  | .mod r a b => Sys2Proof.Machine.execMod r a b s
  | .divmod q r a b => Sys2Proof.Machine.execDivmod q r a b s
  | .pow d a e => Sys2Proof.Machine.execPow d a e s
  | .shl d a c => Sys2Proof.Machine.execShl d a c s
  | .shr d a c => Sys2Proof.Machine.execShr d a c s
  | .getbit d a x => Sys2Proof.Machine.execGetbit d a x s
  | .setbit d x v => Sys2Proof.Machine.execSetbit d x v s
  | .flipbit d x => Sys2Proof.Machine.execFlipbit d x s
  | .and d a b => Sys2Proof.Machine.execAnd d a b s
  | .or d a b => Sys2Proof.Machine.execOr d a b s
  | .xor d a b => Sys2Proof.Machine.execXor d a b s
  | .fmt l a base minDigits addr => Sys2Proof.Machine.execFmt l a base minDigits addr s
  | .parse d c base addr len => Sys2Proof.Machine.execParse d c base addr len s
  | .wrbe a p n => Sys2Proof.Machine.execWrbe a p n s
  | .wrle a p n => Sys2Proof.Machine.execWrle a p n s
  | .rdbe d p n => Sys2Proof.Machine.execRdbe d p n s
  | .rdle d p n => Sys2Proof.Machine.execRdle d p n s

end Sys2Proof.Machine
end

