-- ==== Sys2Proof/Machine/Step.lean ====
section
/-! DEFINITION. The step of the machine (spec/10_state.md R31). -/

namespace Sys2Proof.Machine

/-- The step: fetch, decode, run the command or raise `ILLEGAL_CMD` (10_state.md R31). Where no step is enabled it
answers the fault that says why (log entry 4). -/
def step (s : State) : Host.Outcome State Fault Refusal :=
  match s.fetch with
  | .error r => .fault r
  | .ok cmd =>
    match decode cmd with
    | .error _ => .next (s.raise .illegalCmd cmd)
    | .ok i => exec i s

/-- `s` with the command whose bits are `w` as the next command of its stream and the unit running, so that the
very next step executes it. At `State.reset` this is the host's `start` with the one-command stream
(70_reset_and_hazards.md R283); an index past the end is padded with `NOP` words (log entry 17). -/
def State.withFetchWord (s : State) (nbits w : Nat) : State :=
  { s with
    status := RunState.run.code
    prog := (s.prog.take s.k ++ List.replicate (s.k - s.prog.length) 0) ++
      BitVec.ofNat 32 (w % 2 ^ nbits) :: s.prog.drop (s.k + 1) }

end Sys2Proof.Machine
end

