-- ==== Sys2Proof/Machine/Assembler.lean ====
section
/-! DEFINITION. The assembler and the three pseudo-commands (spec/30_encoding.md R82, R83; spec/00_scope.md R14).
A line is a list of characters. -/

namespace Sys2Proof.Machine

/-- The pseudo-commands of 30_encoding.md R83. -/
inductive Pseudo where
  | li32 (d : SReg) (imm : BitVec 32)
  | li64 (d : SReg) (imm : BitVec 64)
  | clr (d : BReg)
deriving DecidableEq, Repr

/-- The fixed expansion of a pseudo-command (30_encoding.md R83): 2, 4 or 1 commands. -/
def Pseudo.expand : Pseudo → List Instr
  | .li32 d imm => [.li d (imm.extractLsb' 16 16), .lih d (imm.extractLsb' 0 16)]
  | .li64 d imm =>
    [.li d (imm.extractLsb' 48 16), .lih d (imm.extractLsb' 32 16), .lih d (imm.extractLsb' 16 16),
      .lih d (imm.extractLsb' 0 16)]
  | .clr d => [.xor d d d]

/-- Commands executed one after the other, stopping where one does not answer a next state. -/
def execAll : List Instr → State → Result
  | [], s => .next s
  | i :: is, s =>
    match exec i s with
    | .next t => execAll is t
    | .fault r => .fault r
    | .refused r => .refused r

/-- An operand as the assembler reads it (30_encoding.md R82). -/
inductive AsmOperand where
  | b (r : BReg)
  | s (r : SReg)
  | n (v : Nat)
deriving DecidableEq, Repr

/-- A blank (log entry 15). -/
def isBlank (c : Char) : Bool := c == ' ' || c == '\t'

/-- Characters without the blanks at both ends. -/
def stripBlanks (cs : List Char) : List Char := ((cs.dropWhile isBlank).reverse.dropWhile isBlank).reverse

/-- A digit of a numeral, both letter cases; a character outside ASCII is no digit (DESIGN CHOICE, log entry 15: the
spec does not say what such text does). -/
def numeralDigit (base : Nat) (c : Char) : Option Nat :=
  if c.toNat < 128 then validDigit base (BitVec.ofNat 8 c.toNat) else none

/-- The value of a non-empty run of digits. -/
def digitRun (base : Nat) (cs : List Char) : Option Nat :=
  if cs = [] then none
  else cs.foldl (fun v c => v.bind (fun x => (numeralDigit base c).map (fun d => x * base + d))) (some 0)

/-- An immediate: a decimal numeral or a `0x` hexadecimal numeral (30_encoding.md R82). An underscore in it is rejected
(DESIGN CHOICE, log entry 15: R82 does not say whether the visual separator of 00_scope.md R9 may stand in assembler
text). -/
def immediate : List Char → Option Nat
  | '0' :: 'x' :: cs => digitRun 16 cs
  | cs => digitRun 10 cs

/-- A register number, `0` to `15`, written without a leading zero (30_encoding.md R82). -/
def registerNumber (cs : List Char) : Option (Fin 16) :=
  (List.finRange 16).find? (fun r => Nat.toDigits 10 r.val == cs)

/-- One operand: `B0`..`B15`, `S0`..`S15` or an immediate. -/
def readOperand : List Char → Option AsmOperand
  | 'B' :: cs => (registerNumber cs).map .b
  | 'S' :: cs => (registerNumber cs).map .s
  | cs => (immediate cs).map .n

/-- The operands after the mnemonic, separated by commas; none where there is no text. -/
def readOperands (cs : List Char) : Option (List AsmOperand) :=
  if stripBlanks cs = [] then some []
  else ((cs.splitOn ',').map stripBlanks).mapM readOperand

/-- A mnemonic with its operands in field order: the commands it stands for (30_encoding.md R75, R82, R83). An
immediate too large for its field and a line that names an illegal encoding are rejected (DESIGN CHOICE, log entry
15). -/
def assembleOperands (m : List Char) (ops : List AsmOperand) : Option (List Instr) :=
  match String.ofList m, ops with
  | "NOP", [] => some [.nop]
  | "HALT", [] => some [.halt]
  | "LI", [.s d, .n v] => if v < 2 ^ 16 then some [.li d (BitVec.ofNat 16 v)] else none
  | "LIH", [.s d, .n v] => if v < 2 ^ 16 then some [.lih d (BitVec.ofNat 16 v)] else none
  | "MOV", [.b d, .b a] => some [.mov d a]
  | "SETU", [.b d, .s a] => some [.setu d a]
  | "BITS", [.s d, .b a] => some [.bits d a]
  | "POPC", [.s d, .b a] => some [.popc d a]
  | "BYTES", [.s d, .b a] => some [.bytes d a]
  | "CMP", [.s d, .b a, .b b] => some [.cmp d a b]
  | "ADD", [.b d, .b a, .b b] => some [.add d a b]
  | "SUB", [.b d, .b a, .b b] => some [.sub d a b]
  | "MUL", [.b d, .b a, .b b] => some [.mul d a b]
  | "DIV", [.b q, .b a, .b b] => some [.div q a b]
  | "MOD", [.b r, .b a, .b b] => some [.mod r a b]
  | "DIVMOD", [.b q, .b r, .b a, .b b] => if q = r then none else some [.divmod q r a b]
  | "POW", [.b d, .b a, .b e] => some [.pow d a e]
  | "SHL", [.b d, .b a, .s c] => some [.shl d a c]
  | "SHR", [.b d, .b a, .s c] => some [.shr d a c]
  | "GETBIT", [.s d, .b a, .s x] => some [.getbit d a x]
  | "SETBIT", [.b d, .s x, .n v] => if v < 2 then some [.setbit d x (v == 1)] else none
  | "FLIPBIT", [.b d, .s x] => some [.flipbit d x]
  | "AND", [.b d, .b a, .b b] => some [.and d a b]
  | "OR", [.b d, .b a, .b b] => some [.or d a b]
  | "XOR", [.b d, .b a, .b b] => some [.xor d a b]
  | "FMT", [.s l, .b a, .s b, .s m, .s p] => some [.fmt l a b m p]
  | "PARSE", [.b d, .s c, .s b, .s p, .s n] => some [.parse d c b p n]
  | "WRBE", [.b a, .s p, .s n] => some [.wrbe a p n]
  | "WRLE", [.b a, .s p, .s n] => some [.wrle a p n]
  | "RDBE", [.b d, .s p, .s n] => some [.rdbe d p n]
  | "RDLE", [.b d, .s p, .s n] => some [.rdle d p n]
  | "LI32", [.s d, .n v] => if v < 2 ^ 32 then some (Pseudo.li32 d (BitVec.ofNat 32 v)).expand else none
  | "LI64", [.s d, .n v] => if v < 2 ^ 64 then some (Pseudo.li64 d (BitVec.ofNat 64 v)).expand else none
  | "CLR", [.b d] => some (Pseudo.clr d).expand
  | _, _ => none

/-- One line: the mnemonic, a blank, the operands; a `;` starts a comment that runs to the end of the line
(30_encoding.md R82). A line without text gives no command. -/
def assembleLine (line : List Char) : Option (List Instr) :=
  let body := stripBlanks (line.takeWhile (· != ';'))
  if body = [] then some []
  else
    (readOperands (body.dropWhile (fun c => !isBlank c))).bind
      (assembleOperands (body.takeWhile (fun c => !isBlank c)))

/-- A register as the assembler writes it. -/
def regText (file : Char) (r : Fin 16) : List Char := file :: Nat.toDigits 10 r.val

/-- A line: mnemonic and operands in field order, separated by commas (30_encoding.md R82). -/
def lineText (m : String) (ops : List (List Char)) : List Char :=
  m.toList ++ (if ops = [] then [] else ' ' :: List.intercalate [',', ' '] ops)

/-- A command as one line of assembler text (30_encoding.md R82). -/
def asmText : Instr → List Char
  | .nop => lineText "NOP" []
  | .halt => lineText "HALT" []
  | .li d imm => lineText "LI" [regText 'S' d, Nat.toDigits 10 imm.toNat]
  | .lih d imm => lineText "LIH" [regText 'S' d, Nat.toDigits 10 imm.toNat]
  | .mov d a => lineText "MOV" [regText 'B' d, regText 'B' a]
  | .setu d a => lineText "SETU" [regText 'B' d, regText 'S' a]
  | .bits d a => lineText "BITS" [regText 'S' d, regText 'B' a]
  | .popc d a => lineText "POPC" [regText 'S' d, regText 'B' a]
  | .bytes d a => lineText "BYTES" [regText 'S' d, regText 'B' a]
  | .cmp d a b => lineText "CMP" [regText 'S' d, regText 'B' a, regText 'B' b]
  | .add d a b => lineText "ADD" [regText 'B' d, regText 'B' a, regText 'B' b]
  | .sub d a b => lineText "SUB" [regText 'B' d, regText 'B' a, regText 'B' b]
  | .mul d a b => lineText "MUL" [regText 'B' d, regText 'B' a, regText 'B' b]
  | .div q a b => lineText "DIV" [regText 'B' q, regText 'B' a, regText 'B' b]
  | .mod r a b => lineText "MOD" [regText 'B' r, regText 'B' a, regText 'B' b]
  | .divmod q r a b => lineText "DIVMOD" [regText 'B' q, regText 'B' r, regText 'B' a, regText 'B' b]
  | .pow d a e => lineText "POW" [regText 'B' d, regText 'B' a, regText 'B' e]
  | .shl d a c => lineText "SHL" [regText 'B' d, regText 'B' a, regText 'S' c]
  | .shr d a c => lineText "SHR" [regText 'B' d, regText 'B' a, regText 'S' c]
  | .getbit d a x => lineText "GETBIT" [regText 'S' d, regText 'B' a, regText 'S' x]
  | .setbit d x v => lineText "SETBIT" [regText 'B' d, regText 'S' x, if v then ['1'] else ['0']]
  | .flipbit d x => lineText "FLIPBIT" [regText 'B' d, regText 'S' x]
  | .and d a b => lineText "AND" [regText 'B' d, regText 'B' a, regText 'B' b]
  | .or d a b => lineText "OR" [regText 'B' d, regText 'B' a, regText 'B' b]
  | .xor d a b => lineText "XOR" [regText 'B' d, regText 'B' a, regText 'B' b]
  | .fmt l a b m p => lineText "FMT" [regText 'S' l, regText 'B' a, regText 'S' b, regText 'S' m, regText 'S' p]
  | .parse d c b p n => lineText "PARSE" [regText 'B' d, regText 'S' c, regText 'S' b, regText 'S' p, regText 'S' n]
  | .wrbe a p n => lineText "WRBE" [regText 'B' a, regText 'S' p, regText 'S' n]
  | .wrle a p n => lineText "WRLE" [regText 'B' a, regText 'S' p, regText 'S' n]
  | .rdbe d p n => lineText "RDBE" [regText 'B' d, regText 'S' p, regText 'S' n]
  | .rdle d p n => lineText "RDLE" [regText 'B' d, regText 'S' p, regText 'S' n]

end Sys2Proof.Machine
end

