-- ==== Sys2Proof/Machine/Flags.lean ====
section
/-! DEFINITION. The MWU has no flag register (spec/10_state.md R27): carry and borrow are signals that pass from
one word position to the next inside one command. Here are those signals, as the datapaths compute them. -/

namespace Sys2Proof.Machine

/-- `lo32(v) = v[31:0]` of a 64-bit value (00_scope.md R12). -/
def lo32 (v : Acc) : Word := v.extractLsb' 0 32

/-- `hi32(v) = v[63:32]` of a 64-bit value (00_scope.md R12). -/
def hi32 (v : Acc) : Word := v.extractLsb' 32 32

/-- A word in the 64-bit accumulator. -/
def acc (w : Word) : Acc := w.setWidth 64

/-- The borrow out of one word position: set when `a[i] < b[i]`, or `a[i] = b[i]` and already borrowing
(42_arithmetic.md R134). -/
def borrowOut (ai bi : Word) (borrow : Bool) : Bool :=
  decide (ai.toNat < bi.toNat) || (decide (ai = bi) && borrow)

/-- The difference word of one position, `(ai − bi − borrow) mod 2^32` (42_arithmetic.md R134). -/
def borrowDiff (ai bi : Word) (borrow : Bool) : Word := ai - bi - (if borrow then 1 else 0)

/-- The carry out of one word of a left shift by `bs` bits, the source's `word >> (32 − shift)`
(43_bit_operations.md R172); used only when `bs ≠ 0`. -/
def carryLeft (w : Word) (bs : Nat) : Word := w >>> (32 - bs)

/-- The carry out of one word of a right shift by `bs` bits, the source's `word << (32 − shift)`
(43_bit_operations.md R174); used only when `bs ≠ 0`. -/
def carryRight (w : Word) (bs : Nat) : Word := w <<< (32 - bs)

end Sys2Proof.Machine
end

