-- ==== Sys2Proof/Machine/Datapath.lean ====
section
/-! DEFINITION. The word-by-word datapaths of the functional units: adder, subtractor, multiplier, divider, power
sequencer (spec/42_arithmetic.md R132, R134, R136, R138, R143), shifter, bit access and bitwise unit
(spec/43_bit_operations.md R172, R174, R176, R181), radix converter (spec/44_radix_conversion.md R204, R205, R210)
and the assembly of words from bytes (spec/45_byte_io.md R233, R234). Nothing inside a command is observable
(spec/10_state.md R32), so `exec` follows the result contracts (log entry 7); that each datapath computes its
contract is stated in the obligations. -/

namespace Sys2Proof.Machine

/-! ### Adder (R132) -/

/-- `n` positions of the adder from position `i` on; a final carry becomes the extra word. -/
def addFrom (a b : Buf) : Nat → Nat → Word → Buf
  | 0, _, carry => if carry ≠ 0 then [carry] else []
  | n + 1, i, carry =>
    lo32 (acc (wd a i) + acc (wd b i) + acc carry) ::
      addFrom a b n (i + 1) (hi32 (acc (wd a i) + acc (wd b i) + acc carry))

/-- `add(a, b)` (R132). -/
def adder (a b : Buf) : Buf := addFrom a b (max a.length b.length) 0 0

/-! ### Subtractor (R134) -/

/-- `n` positions of the subtractor from position `i` on: the difference words and the final borrow-out. -/
def subFrom (a b : Buf) : Nat → Nat → Bool → Buf × Bool
  | 0, _, borrow => ([], borrow)
  | n + 1, i, borrow =>
    let rest := subFrom a b n (i + 1) (borrowOut (wd a i) (wd b i) borrow)
    (borrowDiff (wd a i) (wd b i) borrow :: rest.1, rest.2)

/-- `sub(a, b)`: the trimmed difference and the final borrow-out (R134). -/
def subtractor (a b : Buf) : Buf × Bool :=
  let r := subFrom a b (max a.length b.length) 0 false
  (trim r.1, r.2)

/-! ### Multiplier (R136) -/

/-- The cascading carry: add `c` at index `j` and go on while a carry remains, `n` indices at most. -/
def cascade : Nat → Buf → Nat → Word → Buf
  | 0, r, _, _ => r
  | n + 1, r, j, c =>
    if c = 0 then r
    else cascade n (r.set j (lo32 (acc (wd r j) + acc c))) (j + 1) (hi32 (acc (wd r j) + acc c))

/-- Fold the 64-bit product `p` into the result words from index `k` on. -/
def accumulate (r : Buf) (k : Nat) (p : Acc) : Buf :=
  let t0 := acc (wd r k) + acc (lo32 p)
  let r0 := r.set k (lo32 t0)
  let t1 := acc (wd r0 (k + 1)) + acc (hi32 p) + acc (hi32 t0)
  cascade r.length (r0.set (k + 1) (lo32 t1)) (k + 2) (hi32 t1)

/-- The valid `i` for result index `k`: from `max(0, k − n + 1)` to `min(k, m − 1)`. -/
def validIndices (m n k : Nat) : List Nat := List.range' (k + 1 - n) (min k (m - 1) + 1 - (k + 1 - n))

/-- All cross-products of one result index. -/
def diagonal (a b : Buf) (r : Buf) (k : Nat) : Buf :=
  (validIndices a.length b.length k).foldl (fun r i => accumulate r k (acc (wd a i) * acc (wd b (k - i)))) r

/-- `mul(a, b)`, schoolbook, by result index (R136). -/
def multiplier (a b : Buf) : Buf :=
  if a = [] ∨ b = [] then []
  else trim ((List.range (a.length + b.length - 1)).foldl (diagonal a b) (List.replicate (a.length + b.length) 0))

/-! ### Shifter (R172, R174) -/

/-- The intra-word left shift, least-significant word first; the carry path is bypassed when `bs = 0`. -/
def shlWords (bs : Nat) : Buf → Word → Buf
  | [], carry => if bs ≠ 0 ∧ carry ≠ 0 then [carry] else []
  | w :: ws, carry =>
    if bs = 0 then w :: shlWords bs ws carry
    else ((w <<< bs) ||| carry) :: shlWords bs ws (carryLeft w bs)

/-- `shl(a, s)`: whole words inserted at the low end, then the intra-word shift (R172). -/
def shifterLeft (a : Buf) (s : Nat) : Buf :=
  if a = [] then [] else List.replicate (s / 32) 0 ++ shlWords (s % 32) a 0

/-- The intra-word right shift, most-significant word first: the words and the carry out at the low end; the carry
path is bypassed when `bs = 0`. -/
def shrWords (bs : Nat) : Buf → Buf × Word
  | [] => ([], 0)
  | w :: ws =>
    let above := shrWords bs ws
    if bs = 0 then (w :: above.1, 0)
    else (((w >>> bs) ||| above.2) :: above.1, carryRight w bs)

/-- `shr(a, s)`: whole words removed at the low end, then the intra-word shift, then trim (R174). -/
def shifterRight (a : Buf) (s : Nat) : Buf :=
  if a.length ≤ s / 32 then [] else trim (shrWords (s % 32) (a.drop (s / 32))).1

/-! ### Divider (R138) -/

/-- The iterations of the restoring divider, one quotient bit each, while the unit is not zero. -/
def divideLoop : Nat → Buf → Buf → Buf → Buf → Buf × Buf
  | 0, rem, _, _, q => (q, rem)
  | n + 1, rem, sbt, unit, q =>
    if unit = [] then (q, rem)
    else if compareBuf rem sbt ≠ -1 then
      divideLoop n (subtractor rem sbt).1 (shifterRight sbt 1) (shifterRight unit 1) (adder q unit)
    else divideLoop n rem (shifterRight sbt 1) (shifterRight unit 1) q

/-- The initial shift: `bits(x) − bits(y)`, reduced by one position if the subtrahend exceeds `x`. -/
def divideShift (x y : Buf) : Nat :=
  if compareBuf (shifterLeft y (bits x - bits y)) x = 1 then bits x - bits y - 1 else bits x - bits y

/-- `divide(x, y)` for a non-empty `y`: quotient and remainder (R138). -/
def divider (x y : Buf) : Buf × Buf :=
  if compareBuf x y = -1 then ([], x)
  else
    divideLoop (divideShift x y + 1) x (shifterLeft y (divideShift x y)) (shifterLeft [1] (divideShift x y)) []

/-! ### Power sequencer (R143) -/

/-- Square-and-multiply over `n` exponent bits from bit `i` up; the last squaring (bit `nb − 1`) is omitted. -/
def powLoop (e : Buf) (nb : Nat) : Nat → Nat → Buf → Buf → Buf
  | 0, _, result, _ => result
  | n + 1, i, result, sq =>
    powLoop e nb n (i + 1) (if bit e i then multiplier result sq else result)
      (if i + 1 < nb then multiplier sq sq else sq)

/-- `pow(a, e)` (R143). -/
def powerSequencer (a e : Buf) : Buf := powLoop e (bits e) (bits e) 0 [1] a

/-! ### Bit access (R176) and bitwise unit (R181) -/

/-- One bit of a word written. -/
def writeWordBit (w : Word) (j : Nat) (v : Bool) : Word := if v then w ||| (1#32 <<< j) else w &&& ~~~(1#32 <<< j)

/-- The datapath of `SETBIT`: extend with zero words up to index `k div 32`, write bit `k mod 32`, trim (R176). -/
def setBitUnit (a : Buf) (k : Nat) (v : Bool) : Buf :=
  let grown := a ++ List.replicate (k / 32 + 1 - a.length) 0
  trim (grown.set (k / 32) (writeWordBit (wd grown (k / 32)) (k % 32) v))

/-- The datapath of `FLIPBIT`: `SETBIT` with the complement of the current bit (R177). -/
def flipBitUnit (a : Buf) (k : Nat) : Buf := setBitUnit a k (!bit a k)

/-- `and(a, b)`: word-wise on the overlapping words, trimmed (R181). -/
def andUnit (a b : Buf) : Buf := trim ((List.range (min a.length b.length)).map (fun i => wd a i &&& wd b i))

/-- `or(a, b)`: as long as the longer operand, not trimmed (R181). -/
def orUnit (a b : Buf) : Buf := (List.range (max a.length b.length)).map (fun i => wd a i ||| wd b i)

/-- `xor(a, b)`: as long as the longer operand, trimmed (R181). -/
def xorUnit (a b : Buf) : Buf := trim ((List.range (max a.length b.length)).map (fun i => wd a i ^^^ wd b i))

/-! ### Radix converter (R204, R205, R210) -/

/-- One word as digits of `g` bits each, most-significant first, zero-padded to the full word (R204). -/
def wordDigits (g : Nat) (w : Word) : List Nat :=
  (List.range (32 / g)).map (fun j => (w.toNat >>> (g * (32 / g - 1 - j))) % 2 ^ g)

/-- The direct datapath for bases 2 (`g = 1`) and 16 (`g = 4`): words from the most significant down, then the
leading zeros of the whole string removed (R204; 90_conflicts.md C1). -/
def digitsDirect (g : Nat) (a : Buf) : List Nat := ((a.reverse.map (wordDigits g)).flatten).dropWhile (· == 0)

/-- The division loop: remainders collected least-significant first, delivered reversed (R205). -/
def divisionLoop (base : Nat) : Nat → Nat → List Nat → List Nat
  | 0, _, ds => ds
  | n + 1, t, ds => if t = 0 then ds else divisionLoop base n (t / base) ([t % base] ++ ds)

/-- The division datapath for every other base (R205). -/
def digitsByDivision (base : Nat) (a : Buf) : List Nat := divisionLoop base (bits a) (val a) []

/-- The formatter: the direct datapath for bases 2 and 16, the division datapath otherwise (R204, R205). -/
def formatter (base : Nat) (a : Buf) : List Nat :=
  if base = 2 then digitsDirect 1 a else if base = 16 then digitsDirect 4 a else digitsByDivision base a

/-- The scan of R210 with the accumulator in a buffer: `value = value·base + digit` through the multiplier and the
adder. -/
def scanUnit (sep : Byte) (base : Nat) : List Byte → Buf → Nat → Buf × Nat
  | [], v, p => (v, p)
  | c :: cs, v, p =>
    if c = sep then scanUnit sep base cs v (p + 1)
    else
      match validDigit base c with
      | some d => scanUnit sep base cs (adder (multiplier v (words base)) (words d)) (p + 1)
      | none => (v, p)

/-! ### Assembly of words from bytes (R233, R234) -/

/-- Four bytes as one word, the first of lowest weight. -/
def wordOfBytes (b0 b1 b2 b3 : Byte) : Word := b3 ++ b2 ++ b1 ++ b0

/-- Word `i` is `bs[4i] .. bs[4i+3]`, absent bytes zero; then trim (R234). -/
def assembleLE (bs : List Byte) : Buf :=
  trim ((List.range ((bs.length + 3) / 4)).map (fun i =>
    wordOfBytes (bs.getD (4 * i) 0) (bs.getD (4 * i + 1) 0) (bs.getD (4 * i + 2) 0) (bs.getD (4 * i + 3) 0)))

/-- The byte `bs[cnt − 1 − j]` of weight `2^(8j)`, zero where absent. -/
def byteFromEnd (bs : List Byte) (j : Nat) : Byte := if j < bs.length then bs.getD (bs.length - 1 - j) 0 else 0

/-- Word `i` is assembled from the bytes of weights `2^(32i)` to `2^(32i+24)`; then trim (R233). -/
def assembleBE (bs : List Byte) : Buf :=
  trim ((List.range ((bs.length + 3) / 4)).map (fun i =>
    wordOfBytes (byteFromEnd bs (4 * i)) (byteFromEnd bs (4 * i + 1)) (byteFromEnd bs (4 * i + 2))
      (byteFromEnd bs (4 * i + 3))))

end Sys2Proof.Machine
end

