-- ==== Sys2Proof/Machine/HostPort.lean ====
section
/-! DEFINITION. What the host can do to the unit, and when (spec/60_exceptions.md R261, R264, R265;
spec/70_reset_and_hazards.md R280, R283). A host read or write that R264 does not allow in the present state, or
that lies outside BM, has no meaning in the spec: the function answers none (log entry 12). A status read during a run may
give any value of the run so far, so reading a status register is a relation (log entry 18). Reset itself is
`State.assertReset`. -/

namespace Sys2Proof.Machine

/-- The five status registers in the order of their numbers 0 to 4 (10_state.md R28). -/
inductive StatusReg where
  | status
  | cause
  | ecc
  | ecmd
  | cc
deriving DecidableEq, Repr

/-- "Not running" (60_exceptions.md R264): `STATUS.RS ≠ RUN`. -/
def State.notRunning (s : State) : Bool := s.rs != .run

/-- The content of a status register at the present command boundary (10_state.md R28). What the host reads is
`State.MayReadStatus`. -/
def State.readStatus (s : State) : StatusReg → Word
  | .status => s.status
  | .cause => s.cause
  | .ecc => s.ecc
  | .ecmd => s.ecmd
  | .cc => s.cc

/-- The content of a status register at boundary `j` of the run that `s` is in: the command counter was `j mod 2^32`
(10_state.md R30), and no command that leaves the unit running changes the other four (10_state.md R28, R31). -/
def State.statusAt (s : State) (j : Nat) : StatusReg → Word
  | .status => s.status
  | .cause => s.cause
  | .ecc => s.ecc
  | .ecmd => s.ecmd
  | .cc => BitVec.ofNat 32 j

/-- Host read of a status register, at any time, without side effect (R264): `v` is a value that the read may return.
While the unit runs it is the value at some command boundary of the run so far (R264; 93_implementation_defined.md
U10; log entry 18), otherwise the register's content. -/
def State.MayReadStatus (s : State) (r : StatusReg) (v : Word) : Prop :=
  if s.rs = .run then ∃ j, j ≤ s.k ∧ v = s.statusAt j r else v = s.readStatus r

/-- `start` with a command stream (70_reset_and_hazards.md R283): effective in `IDLE` and `HALTED`, ignored in `RUN`
and `FAULT`. B, S and BM keep their values. -/
def State.start (s : State) (prog : List Word) : State :=
  if s.rs = .idle ∨ s.rs = .halted then
    { s with status := RunState.run.code, cc := 0, cause := 0, ecc := 0, ecmd := 0, prog := prog, k := 0 }
  else s

/-- Host read of a byte of BM: not running, `addr < BM_SIZE` (R264). -/
def State.hostReadBM (s : State) (addr : Nat) : Option Byte :=
  if s.notRunning ∧ addr < s.params.bmSize then some (s.readByte addr) else none

/-- Host write of a byte of BM: not running, `addr < BM_SIZE` (R264). -/
def State.hostWriteBM (s : State) (addr : Nat) (v : Byte) : Option State :=
  if s.notRunning ∧ addr < s.params.bmSize then some (s.memWrite addr [v]) else none

/-- Host read of a scalar register: not running (R264). -/
def State.hostReadS (s : State) (c : SReg) : Option Scalar := if s.notRunning then some (s.readS c) else none

/-- The status register that the selector values 16 to 20 of the read port name (R265). -/
def statusSelected (sel : Nat) : Option StatusReg :=
  if sel = 16 then some .status
  else if sel = 17 then some .cause
  else if sel = 18 then some .ecc
  else if sel = 19 then some .ecmd
  else if sel = 20 then some .cc
  else none

/-- The read port `sr_sel`/`sr_rdata` (R265): `v` is a value that it may show, for 0..15 of a scalar, for 16..20 of a
status register, zero-extended. -/
def State.MaySrRead (s : State) (sel : Nat) (v : Scalar) : Prop :=
  (∃ h : sel < 16, s.hostReadS ⟨sel, h⟩ = some v) ∨
    ∃ r w, statusSelected sel = some r ∧ s.MayReadStatus r w ∧ v = w.setWidth 64

/-- The output `halted`: high exactly when `STATUS.RS = HALTED` (R261). -/
def State.haltedOut (s : State) : Bool := s.rs == .halted

/-- The output `faulted`: high exactly when `STATUS.RS = FAULT` (R261). -/
def State.faultedOut (s : State) : Bool := s.rs == .fault

/-- The level `cmd_ready`: a command word is accepted only while running (R265; 70_reset_and_hazards.md R285). -/
def State.cmdReady (s : State) : Bool := s.rs == .run

/-- The host actions that change state (R264). -/
inductive HostAction where
  | reset
  | start (prog : List Word)
  | writeBM (addr : Nat) (v : Byte)
deriving DecidableEq, Repr

/-- The state after a host action, where R264 allows it. -/
def State.hostAct (s : State) : HostAction → Option State
  | .reset => some s.assertReset
  | .start prog => some (s.start prog)
  | .writeBM addr v => s.hostWriteBM addr v

end Sys2Proof.Machine
end

