-- ==== Sys2Proof/Safety.lean ====
section
/-! DEFINITION. What statements about the machine speak of: the invariant of its states, how a run ends, what can
be reached, and what a command leaves unchanged (spec/10_state.md R22, R28, R30; spec/70_reset_and_hazards.md R286). -/

namespace Sys2Proof.Machine

/-- The invariant of every state at a command boundary. -/
structure Inv (s : State) : Prop where
  /-- The parameters meet their constraints (00_scope.md R8). -/
  params : s.params.Valid
  /-- Every B register is trimmed (10_state.md R22). -/
  trimmed : ∀ i : BReg, Trimmed (s.readB i)
  /-- Every B register has at most `CAP` words (10_state.md R22). -/
  fits : ∀ i : BReg, (s.readB i).length ≤ s.params.cap
  /-- BM has its canonical form. -/
  bmWf : Memory.wf s.bm
  /-- BM lists no address outside `0 .. BM_SIZE − 1` (20_memory.md R50). -/
  bmInside : ∀ c ∈ s.bm, c.1 < s.params.bmSize
  /-- The index stands in the stream or at its end (10_state.md R29). -/
  index : s.k ≤ s.prog.length
  /-- `CC = k mod 2^32` (10_state.md R30). -/
  counter : s.cc = BitVec.ofNat 32 s.k
  /-- `STATUS[31:2] = 0` (10_state.md R28). -/
  statusReserved : s.status.toNat < 4
  /-- `HALTED` is reached by a `HALT` command, which `CC` then names (40_control_move.md R91). -/
  haltedAtHalt : s.rs = .halted → s.prog[s.k]? = some (encode .halt)
  /-- In `FAULT` a cause code 1 to 6 is recorded, with `CAUSE[31:3] = 0` (10_state.md R28, 60_exceptions.md R250). -/
  faultCause : s.rs = .fault → 1 ≤ s.cause.toNat ∧ s.cause.toNat ≤ 6
  /-- In `FAULT`, `ECC` and `ECMD` name the faulting command (60_exceptions.md R258). -/
  faultRecord : s.rs = .fault → s.ecc = s.cc ∧ s.prog[s.k]? = some s.ecmd
  /-- Outside `FAULT` no fault is recorded (10_state.md R28). -/
  noRecord : s.rs ≠ .fault → s.cause = 0 ∧ s.ecc = 0 ∧ s.ecmd = 0

/-- The three ends of a run (70_reset_and_hazards.md R286). -/
inductive RunEnd where
  | final
  | faulted
  | stuck
deriving DecidableEq, Repr

/-- Whether a state is the end of a run, and which (70_reset_and_hazards.md R286). -/
def State.runEnd (s : State) : Option RunEnd :=
  match s.rs with
  | .idle => none
  | .halted => some .final
  | .fault => some .faulted
  | .run => if s.k < s.prog.length then none else some .stuck

/-- A power-up state after its first reset: any valid parameters, any content of BM (10_state.md R33, R34). -/
def powerUp (p : Params) (m : Memory) : State := { State.reset with params := p, bm := m }

/-- What the machine and its host can reach: from any state after reset, by steps and by host actions
(10_state.md R31, 60_exceptions.md R264). -/
inductive Reachable : State → Prop where
  | reset (p : Params) (m : Memory) (hp : p.Valid) (hm : Memory.wf m) (hin : ∀ c ∈ m, c.1 < p.bmSize) :
      Reachable (powerUp p m)
  | step {s t : State} (h : Reachable s) (hs : step s = .next t) : Reachable t
  | host {s t : State} (h : Reachable s) (a : HostAction) (ha : s.hostAct a = some t) : Reachable t

/-- The launch states of a run (70_reset_and_hazards.md R284): running, at the start of the stream, no fault
recorded, any B registers within the invariant, any S registers, any BM. -/
def Launch (s : State) : Prop := Inv s ∧ s.rs = .run ∧ s.k = 0

/-! ### Frames -/

/-- Every B register but `d` is unchanged. -/
abbrev SameBExcept (d : BReg) (s t : State) : Prop := ∀ i, i ≠ d → t.readB i = s.readB i

/-- Every B register is unchanged. -/
abbrev SameB (s t : State) : Prop := ∀ i, t.readB i = s.readB i

/-- Every S register but `d` is unchanged. -/
abbrev SameSExcept (d : SReg) (s t : State) : Prop := ∀ i, i ≠ d → t.readS i = s.readS i

/-- Every S register is unchanged. -/
abbrev SameS (s t : State) : Prop := ∀ i, t.readS i = s.readS i

/-- Every byte of BM reads as before. -/
abbrev SameBM (s t : State) : Prop := ∀ a, t.readByte a = s.readByte a

/-- Every byte of BM outside the `n` bytes at `addr` reads as before. -/
abbrev SameBMOutside (addr n : Nat) (s t : State) : Prop :=
  ∀ a, a < addr ∨ addr + n ≤ a → t.readByte a = s.readByte a

/-- `STATUS`, `CAUSE`, `ECC`, `ECMD`, the stream and the parameters are unchanged. -/
structure SameControl (s t : State) : Prop where
  status : t.status = s.status
  cause : t.cause = s.cause
  ecc : t.ecc = s.ecc
  ecmd : t.ecmd = s.ecmd
  prog : t.prog = s.prog
  params : t.params = s.params

/-- The command completed: `CC` and the index advanced by one, the control state unchanged (10_state.md R30, R31). -/
structure Completed (s t : State) : Prop where
  cc : t.cc = s.cc + 1
  k : t.k = s.k + 1
  control : SameControl s t

/-- The command completed and wrote `w` to `B[d]`, and wrote nothing else. -/
structure WroteB (d : BReg) (w : Buf) (s t : State) : Prop where
  dest : t.readB d = w
  bRest : SameBExcept d s t
  sRegs : SameS s t
  bm : SameBM s t
  completed : Completed s t

/-- The command completed and wrote `v` to `S[d]`, and wrote nothing else. -/
structure WroteS (d : SReg) (v : Scalar) (s t : State) : Prop where
  dest : t.readS d = v
  bRegs : SameB s t
  sRest : SameSExcept d s t
  bm : SameBM s t
  completed : Completed s t

/-- The state `t` is `s` with the fault `f` of the command word `w` recorded and nothing else changed
(60_exceptions.md R258). -/
structure FaultTaken (f : Cause) (w : Word) (s t : State) : Prop where
  rs : t.rs = .fault
  statusReserved : t.status.toNat < 4
  causeCode : t.causeCode = f.code.setWidth 3
  causeReserved : t.cause.toNat < 8
  ecc : t.ecc = s.cc
  ecmd : t.ecmd = w
  cc : t.cc = s.cc
  k : t.k = s.k
  bRegs : SameB s t
  sRegs : SameS s t
  bm : SameBM s t
  prog : t.prog = s.prog
  params : t.params = s.params

/-- The faults each command can raise once decoded: the column "raised by" of 60_exceptions.md R250. -/
def mayRaise : Instr → List Cause
  | .div _ _ _ | .mod _ _ _ | .divmod _ _ _ _ => [.divZero]
  | .sub _ _ _ => [.subUnderflow]
  | .fmt _ _ _ _ _ => [.badBase, .bmRange]
  | .parse _ _ _ _ _ => [.badBase, .bmRange, .capOverflow]
  | .wrbe _ _ _ | .wrle _ _ _ => [.bmRange]
  | .rdbe _ _ _ | .rdle _ _ _ => [.bmRange, .capOverflow]
  | .add _ _ _ | .mul _ _ _ | .pow _ _ _ | .shl _ _ _ | .setbit _ _ _ | .flipbit _ _ => [.capOverflow]
  | .nop | .halt | .li _ _ | .lih _ _ | .mov _ _ | .setu _ _ | .bits _ _ | .popc _ _ | .bytes _ _ | .cmp _ _ _ => []
  | .shr _ _ _ | .getbit _ _ _ | .and _ _ _ | .or _ _ _ | .xor _ _ _ => []

/-- The six commands that reach BM (10_state.md R26). -/
def reachesBM : Instr → Bool
  | .fmt _ _ _ _ _ | .parse _ _ _ _ _ | .wrbe _ _ _ | .wrle _ _ _ | .rdbe _ _ _ | .rdle _ _ _ => true
  | .nop | .halt | .li _ _ | .lih _ _ | .mov _ _ | .setu _ _ | .bits _ _ | .popc _ _ | .bytes _ _ | .cmp _ _ _ => false
  | .add _ _ _ | .sub _ _ _ | .mul _ _ _ | .div _ _ _ | .mod _ _ _ | .divmod _ _ _ _ | .pow _ _ _ => false
  | .shl _ _ _ | .shr _ _ _ | .getbit _ _ _ | .setbit _ _ _ | .flipbit _ _ | .and _ _ _ | .or _ _ _ | .xor _ _ _ => false

/-- The three commands that write BM (10_state.md R26). -/
def writesBM : Instr → Bool
  | .fmt _ _ _ _ _ | .wrbe _ _ _ | .wrle _ _ _ => true
  | .parse _ _ _ _ _ | .rdbe _ _ _ | .rdle _ _ _ => false
  | .nop | .halt | .li _ _ | .lih _ _ | .mov _ _ | .setu _ _ | .bits _ _ | .popc _ _ | .bytes _ _ | .cmp _ _ _ => false
  | .add _ _ _ | .sub _ _ _ | .mul _ _ _ | .div _ _ _ | .mod _ _ _ | .divmod _ _ _ _ | .pow _ _ _ => false
  | .shl _ _ _ | .shr _ _ _ | .getbit _ _ _ | .setbit _ _ _ | .flipbit _ _ | .and _ _ _ | .or _ _ _ | .xor _ _ _ => false

end Sys2Proof.Machine
end

