-- ==== Sys2Proof/Certificates/Slice0/Obligations.lean ====
section
/-! DEFINITION. The statements for the provers, from the numbered rules of spec/. `s.valB a` is `val(B[a])` and
`s.natS c` is `S[c]`, both as natural numbers; `WroteB`, `WroteS`, `Completed`, `FaultTaken` (Sys2Proof/Safety.lean)
say what changes and that nothing else does. -/

open Sys2Proof Sys2Proof.Machine

/-! ### The commands, one by one: encoding, result, faults, frame -/

/-- 40_control_move.md R90. -/
def Obligations.NopChangesOnlyTheCounter : Prop :=
  encode .nop = 0x00000000 ∧ decode 0x00000000 = .ok .nop ∧
  ∀ s : State, ∃ t, exec .nop s = .next t ∧ SameB s t ∧ SameS s t ∧ SameBM s t ∧ Completed s t

/-- 40_control_move.md R91: `STATUS.RS` becomes `HALTED`, `CC` stays, nothing else changes, and no step is enabled
afterwards. -/
def Obligations.HaltStopsTheRun : Prop :=
  encode .halt = 0x01000000 ∧
  ∀ s : State, ∃ t, exec .halt s = .next t ∧ t.rs = .halted ∧ t.status.toNat < 4 ∧ t.cc = s.cc ∧ t.k = s.k ∧
    SameB s t ∧ SameS s t ∧ SameBM s t ∧ t.cause = s.cause ∧ t.ecc = s.ecc ∧ t.ecmd = s.ecmd ∧
    t.prog = s.prog ∧ t.params = s.params ∧ ∀ u, step t ≠ .next u

/-- 40_control_move.md R92 and R93. -/
def Obligations.LiAndLihLoadALiteral : Prop :=
  ∀ (d : SReg) (imm : BitVec 16) (s : State),
    (encode (.li d imm)).toNat = 0x02000000 + d.val * 2 ^ 20 + imm.toNat ∧
    (encode (.lih d imm)).toNat = 0x03000000 + d.val * 2 ^ 20 + imm.toNat ∧
    (∃ t, exec (.li d imm) s = .next t ∧ WroteS d (BitVec.ofNat 64 imm.toNat) s t) ∧
    (∃ t, exec (.lih d imm) s = .next t ∧
      WroteS d (BitVec.ofNat 64 ((s.natS d * 2 ^ 16) % 2 ^ 64 + imm.toNat)) s t)

/-- 40_control_move.md R94 and R95. The result of `SETU` has at most two words, the low and the high half of the
scalar. -/
def Obligations.MovAndSetuFillABuffer : Prop :=
  ∀ (d a : BReg) (c : SReg) (s : State),
    (encode (.mov d a)).toNat = 0x04000000 + d.val * 2 ^ 20 + a.val * 2 ^ 16 ∧
    (encode (.setu d c)).toNat = 0x05000000 + d.val * 2 ^ 20 + c.val * 2 ^ 16 ∧
    (∃ t, exec (.mov d a) s = .next t ∧ WroteB d (s.readB a) s t) ∧
    (∃ t, exec (.setu d c) s = .next t ∧ WroteB d (words (s.natS c)) s t ∧ (t.readB d).length ≤ 2 ∧
      t.readB d = trim [lo32 (s.readS c), hi32 (s.readS c)])

/-- 41_word_buffer_query.md R118, with the numeric reading of `compare` (R116). -/
def Obligations.CmpGivesTheThreeValuedOrder : Prop :=
  ∀ (d : SReg) (a b : BReg) (s : State),
    (encode (.cmp d a b)).toNat = 0x13000000 + d.val * 2 ^ 20 + a.val * 2 ^ 16 + b.val * 2 ^ 12 ∧
    (Trimmed (s.readB a) → Trimmed (s.readB b) →
      ∃ t, exec (.cmp d a b) s = .next t ∧
        WroteS d (if s.valB a < s.valB b then 0xFFFFFFFFFFFFFFFF else if s.valB a = s.valB b then 0 else 1) s t)

/-- 41_word_buffer_query.md R119, R120 and R121, with the equivalent readings of R113 (the least `n` with
`val < 2^n`), R114 (the 1 digits of the binary numeral) and R115 (the least `n` with `val < 2^(8n)`), under the side
condition of R117. -/
def Obligations.QueriesGiveBitsOnesAndBytes : Prop :=
  ∀ (d : SReg) (a : BReg) (s : State),
    (encode (.bits d a)).toNat = 0x10000000 + d.val * 2 ^ 20 + a.val * 2 ^ 16 ∧
    (encode (.popc d a)).toNat = 0x11000000 + d.val * 2 ^ 20 + a.val * 2 ^ 16 ∧
    (encode (.bytes d a)).toNat = 0x12000000 + d.val * 2 ^ 20 + a.val * 2 ^ 16 ∧
    (Inv s → s.params.Realisable →
      (∃ t n, exec (.bits d a) s = .next t ∧ WroteS d (BitVec.ofNat 64 n) s t ∧ n < 2 ^ 64 ∧
        s.valB a < 2 ^ n ∧ ∀ m, s.valB a < 2 ^ m → n ≤ m) ∧
      (∃ t n, exec (.popc d a) s = .next t ∧ WroteS d (BitVec.ofNat 64 n) s t ∧ n < 2 ^ 64 ∧
        n = (s.valB a).bits.count true) ∧
      (∃ t n, exec (.bytes d a) s = .next t ∧ WroteS d (BitVec.ofNat 64 n) s t ∧ n < 2 ^ 64 ∧
        s.valB a < 2 ^ (8 * n) ∧ ∀ m, s.valB a < 2 ^ (8 * m) → n ≤ m))

/-- 42_arithmetic.md R131 and R135. -/
def Obligations.AddAndMulWriteTheResultOrOverflow : Prop :=
  ∀ (d a b : BReg) (s : State),
    (encode (.add d a b)).toNat = 0x20000000 + d.val * 2 ^ 20 + a.val * 2 ^ 16 + b.val * 2 ^ 12 ∧
    (encode (.mul d a b)).toNat = 0x22000000 + d.val * 2 ^ 20 + a.val * 2 ^ 16 + b.val * 2 ^ 12 ∧
    (s.valB a + s.valB b < 2 ^ (32 * s.params.cap) →
      ∃ t, exec (.add d a b) s = .next t ∧ WroteB d (words (s.valB a + s.valB b)) s t) ∧
    (2 ^ (32 * s.params.cap) ≤ s.valB a + s.valB b →
      ∃ t, exec (.add d a b) s = .next t ∧ FaultTaken .capOverflow (encode (.add d a b)) s t) ∧
    (s.valB a * s.valB b < 2 ^ (32 * s.params.cap) →
      ∃ t, exec (.mul d a b) s = .next t ∧ WroteB d (words (s.valB a * s.valB b)) s t) ∧
    (2 ^ (32 * s.params.cap) ≤ s.valB a * s.valB b →
      ∃ t, exec (.mul d a b) s = .next t ∧ FaultTaken .capOverflow (encode (.mul d a b)) s t)

/-- 42_arithmetic.md R133 and 60_exceptions.md R254. -/
def Obligations.SubWritesTheDifferenceOrUnderflows : Prop :=
  ∀ (d a b : BReg) (s : State),
    (encode (.sub d a b)).toNat = 0x21000000 + d.val * 2 ^ 20 + a.val * 2 ^ 16 + b.val * 2 ^ 12 ∧
    (Trimmed (s.readB a) → Trimmed (s.readB b) →
      (s.valB b ≤ s.valB a →
        ∃ t, exec (.sub d a b) s = .next t ∧ WroteB d (words (s.valB a - s.valB b)) s t) ∧
      (s.valB a < s.valB b →
        ∃ t, exec (.sub d a b) s = .next t ∧ FaultTaken .subUnderflow (encode (.sub d a b)) s t))

/-- 42_arithmetic.md R139, R140 and R137. -/
def Obligations.DivAndModFollowTheContract : Prop :=
  ∀ (d a b : BReg) (s : State),
    (encode (.div d a b)).toNat = 0x23000000 + d.val * 2 ^ 20 + a.val * 2 ^ 16 + b.val * 2 ^ 12 ∧
    (encode (.mod d a b)).toNat = 0x24000000 + d.val * 2 ^ 20 + a.val * 2 ^ 16 + b.val * 2 ^ 12 ∧
    (Trimmed (s.readB b) →
      (s.valB b ≠ 0 →
        ∃ t u, exec (.div d a b) s = .next t ∧ exec (.mod d a b) s = .next u ∧
          WroteB d (words (s.valB a / s.valB b)) s t ∧ WroteB d (words (s.valB a % s.valB b)) s u ∧
          t.valB d * s.valB b + u.valB d = s.valB a ∧ u.valB d < s.valB b) ∧
      (s.valB b = 0 →
        (∃ t, exec (.div d a b) s = .next t ∧ FaultTaken .divZero (encode (.div d a b)) s t) ∧
        (∃ t, exec (.mod d a b) s = .next t ∧ FaultTaken .divZero (encode (.mod d a b)) s t)))

/-- 42_arithmetic.md R141: both operands are read before either write, so a destination may be a source. -/
def Obligations.DivmodWritesBothResults : Prop :=
  ∀ (q r a b : BReg) (s : State),
    (encode (.divmod q r a b)).toNat =
      0x25000000 + q.val * 2 ^ 20 + r.val * 2 ^ 16 + a.val * 2 ^ 12 + b.val * 2 ^ 8 ∧
    ((Instr.divmod q r a b).wellFormed = true ↔ q ≠ r) ∧
    (q ≠ r → Trimmed (s.readB b) →
      (s.valB b ≠ 0 →
        ∃ t, exec (.divmod q r a b) s = .next t ∧ t.readB q = words (s.valB a / s.valB b) ∧
          t.readB r = words (s.valB a % s.valB b) ∧ (∀ i, i ≠ q → i ≠ r → t.readB i = s.readB i) ∧
          SameS s t ∧ SameBM s t ∧ Completed s t) ∧
      (s.valB b = 0 →
        ∃ t, exec (.divmod q r a b) s = .next t ∧ FaultTaken .divZero (encode (.divmod q r a b)) s t))

/-- 42_arithmetic.md R142; `x ^ 0 = 1`, `0 ^ 0` included. -/
def Obligations.PowWritesThePowerOrOverflows : Prop :=
  ∀ (d a e : BReg) (s : State),
    (encode (.pow d a e)).toNat = 0x26000000 + d.val * 2 ^ 20 + a.val * 2 ^ 16 + e.val * 2 ^ 12 ∧
    (s.valB a ^ s.valB e < 2 ^ (32 * s.params.cap) →
      ∃ t, exec (.pow d a e) s = .next t ∧ WroteB d (words (s.valB a ^ s.valB e)) s t) ∧
    (2 ^ (32 * s.params.cap) ≤ s.valB a ^ s.valB e →
      ∃ t, exec (.pow d a e) s = .next t ∧ FaultTaken .capOverflow (encode (.pow d a e)) s t)

/-- 43_bit_operations.md R171: a zero source gives zero for every shift amount; otherwise the command overflows
exactly when `val·2^s` needs more than `CAP` words. -/
def Obligations.ShlWritesTheShiftedValueOrOverflows : Prop :=
  ∀ (d a : BReg) (c : SReg) (s : State),
    (encode (.shl d a c)).toNat = 0x30000000 + d.val * 2 ^ 20 + a.val * 2 ^ 16 + c.val * 2 ^ 12 ∧
    (Trimmed (s.readB a) →
      (s.valB a = 0 → ∃ t, exec (.shl d a c) s = .next t ∧ WroteB d [] s t) ∧
      (s.valB a ≠ 0 →
        (32 * s.params.cap < bits (s.readB a) + s.natS c ↔
          2 ^ (32 * s.params.cap) ≤ s.valB a * 2 ^ s.natS c) ∧
        (bits (s.readB a) + s.natS c ≤ 32 * s.params.cap →
          ∃ t, exec (.shl d a c) s = .next t ∧ WroteB d (words (s.valB a * 2 ^ s.natS c)) s t) ∧
        (32 * s.params.cap < bits (s.readB a) + s.natS c →
          ∃ t, exec (.shl d a c) s = .next t ∧ FaultTaken .capOverflow (encode (.shl d a c)) s t)))

/-- 43_bit_operations.md R173. -/
def Obligations.ShrWritesTheFloor : Prop :=
  ∀ (d a : BReg) (c : SReg) (s : State),
    (encode (.shr d a c)).toNat = 0x31000000 + d.val * 2 ^ 20 + a.val * 2 ^ 16 + c.val * 2 ^ 12 ∧
    ∃ t, exec (.shr d a c) s = .next t ∧ WroteB d (words (s.valB a / 2 ^ s.natS c)) s t ∧
      (s.valB a < 2 ^ s.natS c → t.readB d = [])

/-- 43_bit_operations.md R175: the bit the number has at that index, 0 beyond the buffer. -/
def Obligations.GetbitReadsOneBit : Prop :=
  ∀ (d : SReg) (a : BReg) (x : SReg) (s : State),
    (encode (.getbit d a x)).toNat = 0x32000000 + d.val * 2 ^ 20 + a.val * 2 ^ 16 + x.val * 2 ^ 12 ∧
    ∃ t, exec (.getbit d a x) s = .next t ∧
      WroteS d (if (s.valB a).testBit (s.natS x) then 1 else 0) s t ∧
      (32 * (s.readB a).length ≤ s.natS x → t.readS d = 0)

/-- 43_bit_operations.md R176 and R177, bit by bit: the bit named by the scalar is set, cleared or inverted, and
every other bit of the number stays. -/
def Obligations.SetbitAndFlipbitWriteOneBit : Prop :=
  ∀ (d : BReg) (x : SReg) (v : Bool) (s : State),
    (encode (.setbit d x v)).toNat = 0x33000000 + d.val * 2 ^ 20 + x.val * 2 ^ 16 + v.toNat * 2 ^ 12 ∧
    (encode (.flipbit d x)).toNat = 0x34000000 + d.val * 2 ^ 20 + x.val * 2 ^ 16 ∧
    (v = false ∨ s.natS x / 32 + 1 ≤ s.params.cap →
      ∃ t y, exec (.setbit d x v) s = .next t ∧ WroteB d (words y) s t ∧
        ∀ j, y.testBit j = if j = s.natS x then v else (s.valB d).testBit j) ∧
    (v = true → s.params.cap < s.natS x / 32 + 1 →
      ∃ t, exec (.setbit d x v) s = .next t ∧ FaultTaken .capOverflow (encode (.setbit d x v)) s t) ∧
    ((s.valB d).testBit (s.natS x) = true ∨ s.natS x / 32 + 1 ≤ s.params.cap →
      ∃ t y, exec (.flipbit d x) s = .next t ∧ WroteB d (words y) s t ∧
        ∀ j, y.testBit j = if j = s.natS x then !(s.valB d).testBit j else (s.valB d).testBit j) ∧
    ((s.valB d).testBit (s.natS x) = false → s.params.cap < s.natS x / 32 + 1 →
      ∃ t, exec (.flipbit d x) s = .next t ∧ FaultTaken .capOverflow (encode (.flipbit d x)) s t)

/-- 43_bit_operations.md R178, R179 and R180, bit by bit on the numbers (R170). -/
def Obligations.AndOrXorActBitByBit : Prop :=
  ∀ (d a b : BReg) (s : State),
    (encode (.and d a b)).toNat = 0x35000000 + d.val * 2 ^ 20 + a.val * 2 ^ 16 + b.val * 2 ^ 12 ∧
    (encode (.or d a b)).toNat = 0x36000000 + d.val * 2 ^ 20 + a.val * 2 ^ 16 + b.val * 2 ^ 12 ∧
    (encode (.xor d a b)).toNat = 0x37000000 + d.val * 2 ^ 20 + a.val * 2 ^ 16 + b.val * 2 ^ 12 ∧
    (∃ t, exec (.and d a b) s = .next t ∧ WroteB d (words (t.valB d)) s t ∧
      ∀ j, (t.valB d).testBit j = ((s.valB a).testBit j && (s.valB b).testBit j)) ∧
    (∃ t, exec (.or d a b) s = .next t ∧ WroteB d (words (t.valB d)) s t ∧
      ∀ j, (t.valB d).testBit j = ((s.valB a).testBit j || (s.valB b).testBit j)) ∧
    (∃ t, exec (.xor d a b) s = .next t ∧ WroteB d (words (t.valB d)) s t ∧
      ∀ j, (t.valB d).testBit j = ((s.valB a).testBit j ^^ (s.valB b).testBit j))

/-- 44_radix_conversion.md R202: the numeral of the value in the base, padded with `0` on the left to `min_digits`,
stands at the address named by `S[p]`, its length in `S[l]`; `BAD_BASE` before `BM_RANGE`. With the characters of the
digits (R201): lower case above 9. -/
def Obligations.FmtWritesTheNumeral : Prop :=
  (∀ d, d < 36 → (digitChar d).toNat = if d ≤ 9 then 0x30 + d else 0x61 + (d - 10)) ∧
  ∀ (l : SReg) (a : BReg) (b m p : SReg) (s : State),
    (encode (.fmt l a b m p)).toNat =
      0x40000000 + l.val * 2 ^ 20 + a.val * 2 ^ 16 + b.val * 2 ^ 12 + m.val * 2 ^ 8 + p.val * 2 ^ 4 ∧
    (s.natS b < 2 ∨ 36 < s.natS b →
      ∃ t, exec (.fmt l a b m p) s = .next t ∧ FaultTaken .badBase (encode (.fmt l a b m p)) s t) ∧
    (2 ≤ s.natS b → s.natS b ≤ 36 →
      ∀ ds L, ds = digits (s.valB a) (s.natS b) → L = max ds.length (s.natS m) →
        (s.params.bmSize < s.natS p + L →
          ∃ t, exec (.fmt l a b m p) s = .next t ∧ FaultTaken .bmRange (encode (.fmt l a b m p)) s t) ∧
        (s.natS p + L ≤ s.params.bmSize →
          ∃ t, exec (.fmt l a b m p) s = .next t ∧ t.readS l = BitVec.ofNat 64 L ∧
            (s.params.Valid → t.natS l = L) ∧ SameSExcept l s t ∧ SameB s t ∧ Completed s t ∧
            SameBMOutside (s.natS p) L s t ∧
            ∀ j, j < L → t.readByte (s.natS p + j) =
              if j < L - ds.length then 0x30 else digitChar (ds.getD (j - (L - ds.length)) 0)))

/-- 44_radix_conversion.md R211 (with R206): what `parseText` reads from the bytes of the text is written; faults in
the order `BAD_BASE`, `BM_RANGE`, `CAP_OVERFLOW`; malformed text is never a fault. With the base and the start of the
scan (R206, R207): an operand other than 0 is the base, from position 0; under 0 a prefix `0b`, `0B`, `0x` or `0X` gives
the base and is consumed, and without one the base is 10. -/
def Obligations.ParseReadsANumeral : Prop :=
  (∀ (sep : Byte) (base : Nat) (t : List Byte),
    (base ≠ 0 → parseBase base t = (base, 0)) ∧
    (t[0]? = some 0x30 → t[1]? = some 0x62 ∨ t[1]? = some 0x42 → parseBase 0 t = (2, 2)) ∧
    (t[0]? = some 0x30 → t[1]? = some 0x78 ∨ t[1]? = some 0x58 → parseBase 0 t = (16, 2)) ∧
    (¬ (t[0]? = some 0x30 ∧
        (t[1]? = some 0x62 ∨ t[1]? = some 0x42 ∨ t[1]? = some 0x78 ∨ t[1]? = some 0x58)) →
      parseBase 0 t = (10, 0)) ∧
    ∀ b p, parseBase base t = (b, p) → parseText sep base t = scan sep b (t.drop p) 0 p) ∧
  ∀ (d : BReg) (c b p n : SReg) (s : State),
    (encode (.parse d c b p n)).toNat =
      0x41000000 + d.val * 2 ^ 20 + c.val * 2 ^ 16 + b.val * 2 ^ 12 + p.val * 2 ^ 8 + n.val * 2 ^ 4 ∧
    (s.natS b = 1 ∨ 36 < s.natS b →
      ∃ t, exec (.parse d c b p n) s = .next t ∧ FaultTaken .badBase (encode (.parse d c b p n)) s t) ∧
    (s.natS b ≠ 1 → s.natS b ≤ 36 →
      (s.params.bmSize < s.natS p + s.natS n →
        ∃ t, exec (.parse d c b p n) s = .next t ∧ FaultTaken .bmRange (encode (.parse d c b p n)) s t) ∧
      (s.natS p + s.natS n ≤ s.params.bmSize →
        ∀ v used, parseText s.params.sep (s.natS b) (s.memRead (s.natS p) (s.natS n)) = (v, used) →
          (2 ^ (32 * s.params.cap) ≤ v →
            ∃ t, exec (.parse d c b p n) s = .next t ∧
              FaultTaken .capOverflow (encode (.parse d c b p n)) s t) ∧
          (v < 2 ^ (32 * s.params.cap) →
            ∃ t, exec (.parse d c b p n) s = .next t ∧ t.readB d = words v ∧ SameBExcept d s t ∧
              t.readS c = BitVec.ofNat 64 used ∧ used ≤ s.natS n ∧ t.natS c = used ∧ SameSExcept c s t ∧
              SameBM s t ∧ Completed s t)))

/-- 45_byte_io.md R231 and R232: exactly `n` bytes are written, each the byte of its weight; high-order bytes are
silently lost, missing ones are zero. -/
def Obligations.WrbeAndWrleWriteExactlyNBytes : Prop :=
  ∀ (a : BReg) (p n : SReg) (s : State),
    (encode (.wrbe a p n)).toNat = 0x50000000 + a.val * 2 ^ 20 + p.val * 2 ^ 16 + n.val * 2 ^ 12 ∧
    (encode (.wrle a p n)).toNat = 0x51000000 + a.val * 2 ^ 20 + p.val * 2 ^ 16 + n.val * 2 ^ 12 ∧
    (s.params.bmSize < s.natS p + s.natS n →
      (∃ t, exec (.wrbe a p n) s = .next t ∧ FaultTaken .bmRange (encode (.wrbe a p n)) s t) ∧
      (∃ t, exec (.wrle a p n) s = .next t ∧ FaultTaken .bmRange (encode (.wrle a p n)) s t)) ∧
    (s.natS p + s.natS n ≤ s.params.bmSize →
      (∃ t, exec (.wrbe a p n) s = .next t ∧ SameB s t ∧ SameS s t ∧ Completed s t ∧
        SameBMOutside (s.natS p) (s.natS n) s t ∧
        ∀ j, j < s.natS n →
          (t.readByte (s.natS p + j)).toNat = s.valB a / 2 ^ (8 * (s.natS n - 1 - j)) % 256) ∧
      (∃ t, exec (.wrle a p n) s = .next t ∧ SameB s t ∧ SameS s t ∧ Completed s t ∧
        SameBMOutside (s.natS p) (s.natS n) s t ∧
        ∀ j, j < s.natS n → (t.readByte (s.natS p + j)).toNat = s.valB a / 2 ^ (8 * j) % 256))

/-- 45_byte_io.md R233 and R234: the number of the `n` bytes in big-endian and in little-endian order; `BM_RANGE`
before `CAP_OVERFLOW`, which is tested on the trimmed value. -/
def Obligations.RdbeAndRdleReadNBytes : Prop :=
  ∀ (d : BReg) (p n : SReg) (s : State),
    (encode (.rdbe d p n)).toNat = 0x52000000 + d.val * 2 ^ 20 + p.val * 2 ^ 16 + n.val * 2 ^ 12 ∧
    (encode (.rdle d p n)).toNat = 0x53000000 + d.val * 2 ^ 20 + p.val * 2 ^ 16 + n.val * 2 ^ 12 ∧
    (s.params.bmSize < s.natS p + s.natS n →
      (∃ t, exec (.rdbe d p n) s = .next t ∧ FaultTaken .bmRange (encode (.rdbe d p n)) s t) ∧
      (∃ t, exec (.rdle d p n) s = .next t ∧ FaultTaken .bmRange (encode (.rdle d p n)) s t)) ∧
    (s.natS p + s.natS n ≤ s.params.bmSize →
      ∀ big little,
        big = ∑ j ∈ Finset.range (s.natS n), (s.readByte (s.natS p + j)).toNat * 2 ^ (8 * (s.natS n - 1 - j)) →
        little = ∑ j ∈ Finset.range (s.natS n), (s.readByte (s.natS p + j)).toNat * 2 ^ (8 * j) →
        (big < 2 ^ (32 * s.params.cap) → ∃ t, exec (.rdbe d p n) s = .next t ∧ WroteB d (words big) s t) ∧
        (2 ^ (32 * s.params.cap) ≤ big →
          ∃ t, exec (.rdbe d p n) s = .next t ∧ FaultTaken .capOverflow (encode (.rdbe d p n)) s t) ∧
        (little < 2 ^ (32 * s.params.cap) →
          ∃ t, exec (.rdle d p n) s = .next t ∧ WroteB d (words little) s t) ∧
        (2 ^ (32 * s.params.cap) ≤ little →
          ∃ t, exec (.rdle d p n) s = .next t ∧ FaultTaken .capOverflow (encode (.rdle d p n)) s t))

/-! ### Encoding -/

/-- 30_encoding.md R79: encode and decode are inverse to each other on the legal commands and words. -/
def Obligations.EncodeAndDecodeAreInverse : Prop :=
  (∀ i : Instr, i.wellFormed = true → decode (encode i) = .ok i) ∧
  (∀ (c : Word) (i : Instr), decode c = .ok i → encode i = c ∧ i.wellFormed = true)

/-- 30_encoding.md R74: a word spells a command exactly when it meets mask and match of a row, and for `DIVMOD` also
`f1 ≠ f2`; no two rows share an opcode. -/
def Obligations.LegalWordsMeetMaskAndMatch : Prop :=
  (∀ c : Word, (∃ i, decode c = .ok i) ↔
    ∃ r ∈ opcodeMap, c &&& r.mask = r.bits ∧
      (r.op = 0x25 → c.extractLsb' 20 4 ≠ c.extractLsb' 16 4)) ∧
  (opcodeMap.map Row.op).Nodup

/-- 30_encoding.md R76 and 60_exceptions.md R251: which words are illegal, and that executing one raises
`ILLEGAL_CMD`. -/
def Obligations.IllegalWordsRaiseIllegalCmd : Prop :=
  ∀ c : Word,
    (decode c = .error .unassignedOpcode ↔
      (0x06 ≤ (opField c).toNat ∧ (opField c).toNat ≤ 0x0F) ∨ (0x14 ≤ (opField c).toNat ∧ (opField c).toNat ≤ 0x1F) ∨
      (0x27 ≤ (opField c).toNat ∧ (opField c).toNat ≤ 0x2F) ∨ (0x38 ≤ (opField c).toNat ∧ (opField c).toNat ≤ 0x3F) ∨
      (0x42 ≤ (opField c).toNat ∧ (opField c).toNat ≤ 0x4F) ∨ 0x54 ≤ (opField c).toNat) ∧
    (∀ r ∈ opcodeMap, r.op = opField c → c &&& r.mask ≠ r.bits → decode c = .error .nonzeroUnusedBit) ∧
    (opField c = 0x33 → 2 ≤ (c.extractLsb' 12 4).toNat → decode c = .error .nonzeroUnusedBit) ∧
    (opField c = 0x25 → c.extractLsb' 20 4 = c.extractLsb' 16 4 → ∃ e, decode c = .error e) ∧
    (∀ (s : State) (e : IllegalWord), s.rs = .run → s.prog[s.k]? = some c → decode c = .error e →
      ∃ t, step s = .next t ∧ FaultTaken .illegalCmd c s t)

/-- The example words of 30_encoding.md R82 and of the rules' examples decode to the commands they stand for. -/
def Obligations.SampleWordsDecode : Prop :=
  decode 0x20201000 = .ok (.add 2 0 1) ∧ decode 0x02301234 = .ok (.li 3 0x1234) ∧
  decode 0x25230100 = .ok (.divmod 2 3 0 1) ∧ decode 0x33411000 = .ok (.setbit 4 1 true) ∧
  decode 0x40520120 = .ok (.fmt 5 2 0 1 2) ∧ decode 0x13010000 = .ok (.cmp 0 1 0) ∧
  decode 0x53101000 = .ok (.rdle 1 0 1)

/-! ### The step, the command counter, the faults -/

/-- 10_state.md R31: while the unit runs and the next word of the stream decodes to `i`, the step is `exec i`. -/
def Obligations.StepRunsTheDecodedCommand : Prop :=
  ∀ (s : State) (c : Word) (i : Instr),
    s.rs = .run → s.prog[s.k]? = some c → decode c = .ok i → step s = exec i s

/-- 10_state.md R31: a step is enabled exactly when `STATUS.RS = RUN` and `k < len(prog)`; an illegal word raises
`ILLEGAL_CMD`; a legal one completes, or is `HALT`, or raises one of its faults with its own word. -/
def Obligations.StepEndsAsTheRuleSays : Prop :=
  ∀ s : State,
    ((∃ t, step s = .next t) ↔ s.rs = .run ∧ s.k < s.prog.length) ∧
    ∀ t, step s = .next t →
      ∃ c, s.prog[s.k]? = some c ∧
        ((∃ e, decode c = .error e ∧ FaultTaken .illegalCmd c s t) ∨
          ∃ i, decode c = .ok i ∧ exec i s = .next t ∧
            ((i = .halt ∧ t.rs = .halted ∧ t.cc = s.cc ∧ t.k = s.k) ∨
              (i ≠ .halt ∧ Completed s t) ∨ ∃ f ∈ mayRaise i, FaultTaken f c s t))

/-- 10_state.md R30: `CC` advances by exactly one, modulo `2^32`, with every command that completes and is not `HALT`;
`HALT` and a fault leave it; and it always holds `k mod 2^32`. -/
def Obligations.CounterAdvancesByOne : Prop :=
  (∀ s t : State, step s = .next t →
    (t.rs = .run → t.cc.toNat = (s.cc.toNat + 1) % 2 ^ 32 ∧ t.k = s.k + 1) ∧
    (t.rs ≠ .run → t.cc = s.cc ∧ t.k = s.k)) ∧
  (∀ s : State, Reachable s → s.cc.toNat = s.k % 2 ^ 32)

/-- 60_exceptions.md R250: each command raises only the faults listed for it, and a command with none listed raises
none. -/
def Obligations.OnlyTheListedFaultsAreRaised : Prop :=
  ∀ (i : Instr) (s t : State), s.rs = .run → exec i s = .next t → t.rs = .fault →
    ∃ f ∈ mayRaise i, FaultTaken f (encode i) s t

/-- 60_exceptions.md R258: whatever command of a run faults, it has no effect at all, and the four status registers
record the fault with `CC` and the command word. -/
def Obligations.FaultsAreTakenWithoutEffect : Prop :=
  ∀ s t : State, step s = .next t → t.rs = .fault →
    ∃ f c, s.prog[s.k]? = some c ∧ FaultTaken f c s t

/-- 60_exceptions.md R259: the first condition in the order `ILLEGAL_CMD`, domain check, `BM_RANGE`, `CAP_OVERFLOW`
is the one reported, whatever else holds. -/
def Obligations.FaultPriorityOrder : Prop :=
  (∀ (s : State) (c : Word) (e : IllegalWord), s.rs = .run → s.prog[s.k]? = some c → decode c = .error e →
    ∃ t, step s = .next t ∧ t.causeCode = 1) ∧
  (∀ (l : SReg) (a : BReg) (b m p : SReg) (s : State), s.natS b < 2 ∨ 36 < s.natS b →
    ∃ t, exec (.fmt l a b m p) s = .next t ∧ t.causeCode = 3) ∧
  (∀ (d : BReg) (c b p n : SReg) (s : State), s.natS b = 1 ∨ 36 < s.natS b →
    ∃ t, exec (.parse d c b p n) s = .next t ∧ t.causeCode = 3) ∧
  (∀ (d : BReg) (c b p n : SReg) (s : State), s.natS b ≠ 1 → s.natS b ≤ 36 →
    s.params.bmSize < s.natS p + s.natS n → ∃ t, exec (.parse d c b p n) s = .next t ∧ t.causeCode = 5) ∧
  (∀ (d : BReg) (p n : SReg) (s : State), s.params.bmSize < s.natS p + s.natS n →
    (∃ t, exec (.rdbe d p n) s = .next t ∧ t.causeCode = 5) ∧
    (∃ t, exec (.rdle d p n) s = .next t ∧ t.causeCode = 5))

/-- 60_exceptions.md R260: `FAULT` is absorbing: no step, `start` is ignored, and no host action but reset changes the
fault record or the run state. -/
def Obligations.FaultIsAbsorbing : Prop :=
  ∀ s : State, s.rs = .fault →
    (∀ t, step s ≠ .next t) ∧ (∀ prog, s.start prog = s) ∧
    (∀ (a : HostAction) (t : State), a ≠ .reset → s.hostAct a = some t →
      t.rs = .fault ∧ t.status = s.status ∧ t.cause = s.cause ∧ t.ecc = s.ecc ∧ t.ecmd = s.ecmd ∧ t.cc = s.cc) ∧
    s.assertReset.rs = .idle ∧ s.assertReset.cause = 0 ∧ s.assertReset.ecc = 0 ∧ s.assertReset.ecmd = 0

/-! ### Reset, runs, the host -/

/-- 10_state.md R33 and 70_reset_and_hazards.md R280: reset, from any state, gives every piece of state its reset
value and leaves BM untouched; nothing executes until `start`, and then the first command is `prog[0]` with `CC = 0`.
The stream and the parameters of `State.reset` are the model's choice (log entries 1 and 2) and are not spoken of. -/
def Obligations.ResetGivesTheResetValues : Prop :=
  (∀ s u : State, u = s.assertReset ∨ u = State.reset →
    (∀ i, u.readB i = []) ∧ (∀ i, u.readS i = 0) ∧ u.cc = 0 ∧ u.status = 0 ∧ u.rs = .idle ∧ u.cause = 0 ∧ u.ecc = 0 ∧
    u.ecmd = 0 ∧ (∀ t, step u ≠ .next t) ∧
    ∀ (c : Word) (prog : List Word), (u.start (c :: prog)).fetch = .ok c ∧ (u.start (c :: prog)).cc = 0) ∧
  (∀ s : State, SameBM s s.assertReset) ∧
  (∀ (s t : State) (a : HostAction), s.rs = .fault → s.hostAct a = some t → t.rs ≠ .fault → a = .reset)

/-- 70_reset_and_hazards.md R283. While the unit runs, no host action but reset changes anything, so only the step
does. -/
def Obligations.StartBeginsARun : Prop :=
  ∀ (s : State) (prog : List Word),
    (s.rs = .idle ∨ s.rs = .halted →
      ∃ t, t = s.start prog ∧ t.rs = .run ∧ t.status.toNat < 4 ∧ t.cc = 0 ∧ t.cause = 0 ∧ t.ecc = 0 ∧ t.ecmd = 0 ∧
        t.k = 0 ∧ t.prog = prog ∧ SameB s t ∧ SameS s t ∧ SameBM s t ∧ t.params = s.params) ∧
    (s.rs = .run ∨ s.rs = .fault → s.start prog = s) ∧
    (s.rs = .run → ∀ (a : HostAction) (t : State), a ≠ .reset → s.hostAct a = some t → t = s)

/-- 60_exceptions.md R264: what the host may do, and when. That a host access which R264 does not allow is answered by
`none` is the model's choice (log entry 12). What a status read gives during a run is spoken of in
`StatusReadsGiveABoundaryValue`. -/
def Obligations.HostActsOnlyAsTheTableAllows : Prop :=
  ∀ s : State,
    (s.rs = .run → ∀ (a : Nat) (v : Byte) (c : SReg),
      s.hostReadBM a = none ∧ s.hostWriteBM a v = none ∧ s.hostReadS c = none) ∧
    (s.rs ≠ .run → ∀ c : SReg, s.hostReadS c = some (s.readS c)) ∧
    (s.rs ≠ .run → ∀ a, a < s.params.bmSize → ∀ v : Byte,
      s.hostReadBM a = some (s.readByte a) ∧
      ∃ t, s.hostWriteBM a v = some t ∧ t.readByte a = v ∧ (∀ x, x ≠ a → t.readByte x = s.readByte x) ∧
        SameB s t ∧ SameS s t ∧ SameControl s t ∧ t.cc = s.cc ∧ t.k = s.k) ∧
    (s.rs ≠ .run → ∀ (r : StatusReg) (v : Word), s.MayReadStatus r v ↔
      v = match r with | .status => s.status | .cause => s.cause | .ecc => s.ecc | .ecmd => s.ecmd | .cc => s.cc) ∧
    (∀ (act : HostAction) (t : State), act ≠ .reset → s.hostAct act = some t → SameB s t ∧ SameS s t)

/-- 60_exceptions.md R264 and 93_implementation_defined.md U10: after `n` steps of a run that goes on, a status read may
give exactly the values that the register had at the boundaries of the run so far. That the model admits all of them
by a closed form is log entry 18. -/
def Obligations.StatusReadsGiveABoundaryValue : Prop :=
  ∀ (s t : State) (prog : List Word) (n : Nat), s.rs = .idle ∨ s.rs = .halted →
    Host.Core.run Sys2Proof.core n (s.start prog) = .next t → t.rs = .run →
    ∀ (r : StatusReg) (v : Word), t.MayReadStatus r v ↔
      ∃ m u, m ≤ n ∧ Host.Core.run Sys2Proof.core m (s.start prog) = .next u ∧ v = u.readStatus r

/-- 70_reset_and_hazards.md R289 and R286: every run reaches one of the three ends after at most as many steps as
commands are left, and no step is enabled there. -/
def Obligations.EveryRunEnds : Prop :=
  (∀ s : State, s.rs = .run →
    ∃ n, n ≤ s.prog.length - s.k ∧
      ∃ t, Host.Core.run Sys2Proof.core n s = .next t ∧ t.runEnd ≠ none) ∧
  (∀ s : State, s.runEnd ≠ none → ∀ t, step s ≠ .next t)

/-! ### Invariants -/

/-- The state after power-up and reset meets the invariant, for all valid parameters and any content of BM. -/
def Obligations.PowerUpMeetsTheInvariant : Prop :=
  Inv State.reset ∧
  ∀ (p : Params) (m : Memory), p.Valid → Memory.wf m → (∀ c ∈ m, c.1 < p.bmSize) → Inv (powerUp p m)

/-- 41_word_buffer_query.md R112 and 10_state.md R22: whether it completes or faults, a command keeps every B register
trimmed and within `CAP` words; with reset this holds at every command boundary of every run. -/
def Obligations.CommandsKeepRegistersTrimmed : Prop :=
  (∀ (i : Instr) (s t : State), s.params.Valid →
    (∀ r, Trimmed (s.readB r) ∧ (s.readB r).length ≤ s.params.cap) → exec i s = .next t →
    ∀ r, Trimmed (t.readB r) ∧ (t.readB r).length ≤ t.params.cap) ∧
  ∀ s : State, Reachable s → ∀ r, Trimmed (s.readB r) ∧ (s.readB r).length ≤ s.params.cap

/-- Every step keeps the invariant. -/
def Obligations.StepKeepsTheInvariant : Prop :=
  ∀ s t : State, Inv s → step s = .next t → Inv t

/-- Every host action keeps the invariant, and so every reachable state meets it. -/
def Obligations.EveryReachableStateMeetsTheInvariant : Prop :=
  (∀ (s t : State) (a : HostAction), Inv s → s.hostAct a = some t → Inv t) ∧
  (∀ s : State, Reachable s → Inv s)

/-! ### BM and the stream -/

/-- 20_memory.md R52 and R53. The last clause, that a write keeps the canonical form of the memory, is about the
model's own choice of that form (log entry 3), not about a rule of the spec. -/
def Obligations.MemReadAndMemWrite : Prop :=
  ∀ (s : State) (addr : Nat),
    (∀ n, (s.memRead addr n).length = n ∧ ∀ j, j < n → (s.memRead addr n)[j]? = some (s.readByte (addr + j))) ∧
    ∀ bs : List Byte,
      (s.memWrite addr bs).memRead addr bs.length = bs ∧
      SameBMOutside addr bs.length s (s.memWrite addr bs) ∧
      SameB s (s.memWrite addr bs) ∧ SameS s (s.memWrite addr bs) ∧ SameControl s (s.memWrite addr bs) ∧
      (s.memWrite addr bs).cc = s.cc ∧ (s.memWrite addr bs).k = s.k ∧
      (Memory.wf s.bm → Memory.wf (s.memWrite addr bs).bm)

/-- 10_state.md R26 and 20_memory.md R59: only `WRBE`, `WRLE` and `FMT` write BM, and the outcome of the commands that
do not reach BM does not depend on it. -/
def Obligations.OnlySixCommandsReachBM : Prop :=
  (∀ (i : Instr) (s t : State), writesBM i = false → exec i s = .next t → t.bm = s.bm) ∧
  (∀ (i : Instr) (s t : State) (m : Memory), reachesBM i = false → exec i s = .next t →
    exec i { s with bm := m } = .next { t with bm := m })

/-- 20_memory.md R63: the stream of a run is fixed, no write to BM changes a later command, and the parameters are
fixed too. -/
def Obligations.StreamIsFixedDuringARun : Prop :=
  (∀ s t : State, step s = .next t → t.prog = s.prog ∧ t.params = s.params) ∧
  (∀ (s : State) (m : Memory), ({ s with bm := m } : State).fetch = s.fetch)

/-! ### The functions of the word buffer -/

/-- 41_word_buffer_query.md R110. -/
def Obligations.TrimRemovesHighZeroWords : Prop :=
  ∀ w : Buf, trim w = words (val w) ∧ Trimmed (trim w) ∧ trim (trim w) = trim w ∧
    trim w = w.take (trim w).length ∧ (∀ i, (trim w).length ≤ i → wd w i = 0) ∧
    ((∀ i, wd w i = 0) → trim w = [])

/-- 41_word_buffer_query.md R116: on trimmed sequences `compare` is the numeric order, and 0 means equal. -/
def Obligations.CompareAgreesWithTheNumericOrder : Prop :=
  ∀ a b : Buf, Trimmed a → Trimmed b →
    (compareBuf a b = -1 ↔ val a < val b) ∧ (compareBuf a b = 0 ↔ val a = val b) ∧
    (compareBuf a b = 1 ↔ val b < val a) ∧ (compareBuf a b = 0 ↔ a = b)

/-! ### The datapaths compute their contracts -/

/-- 42_arithmetic.md R132. -/
def Obligations.AdderComputesTheSum : Prop :=
  ∀ a b : Buf, val (adder a b) = val a + val b ∧
    (Trimmed a → Trimmed b → adder a b = words (val a + val b))

/-- 42_arithmetic.md R134. -/
def Obligations.SubtractorComputesTheDifference : Prop :=
  ∀ a b : Buf, ((subtractor a b).2 = true ↔ val a < val b) ∧
    (val b ≤ val a → (subtractor a b).1 = words (val a - val b))

/-- 42_arithmetic.md R136. -/
def Obligations.MultiplierComputesTheProduct : Prop :=
  ∀ a b : Buf, multiplier a b = words (val a * val b)

/-- 42_arithmetic.md R138 against the contract of R137. -/
def Obligations.DividerMeetsTheContract : Prop :=
  ∀ x y : Buf, Trimmed x → Trimmed y → y ≠ [] →
    divider x y = (words (val x / val y), words (val x % val y))

/-- 42_arithmetic.md R143 against the contract of R142. -/
def Obligations.PowerSequencerComputesThePower : Prop :=
  ∀ a e : Buf, Trimmed a → Trimmed e → powerSequencer a e = words (val a ^ val e)

/-- 43_bit_operations.md R172 and R174. -/
def Obligations.ShifterComputesBothShifts : Prop :=
  ∀ (a : Buf) (n : Nat),
    val (shifterLeft a n) = val a * 2 ^ n ∧
    (Trimmed a → shifterLeft a n = words (val a * 2 ^ n)) ∧
    shifterRight a n = words (val a / 2 ^ n)

/-- 43_bit_operations.md R181 and the datapaths of R176 and R177. -/
def Obligations.BitwiseAndBitAccessUnitsAgree : Prop :=
  ∀ (a b : Buf) (k : Nat),
    andUnit a b = words (val a &&& val b) ∧
    (Trimmed a → Trimmed b → orUnit a b = words (val a ||| val b)) ∧
    xorUnit a b = words (val a ^^^ val b) ∧
    setBitUnit a k true = words (val a ||| 2 ^ k) ∧
    setBitUnit a k false = words (withoutBit (val a) (bit a k) k) ∧
    flipBitUnit a k = words (val a ^^^ 2 ^ k)

/-- 44_radix_conversion.md R203, R204 and R205: the numeral, and that both formatting datapaths give it. -/
def Obligations.FormatterGivesTheNumeral : Prop :=
  ∀ b : Nat, 2 ≤ b → b ≤ 36 →
    digits 0 b = [] ∧
    (∀ v, 0 < v → digits v b = digits (v / b) b ++ [v % b]) ∧
    (∀ v k, v < b ^ k ↔ (digits v b).length ≤ k) ∧
    (∀ v, ∀ d ∈ digits v b, d < b) ∧
    (∀ a : Buf, Trimmed a → formatter b a = digits (val a) b ∧ digitsByDivision b a = digits (val a) b) ∧
    (∀ a : Buf, Trimmed a → digitsDirect 1 a = digits (val a) 2 ∧ digitsDirect 4 a = digits (val a) 16)

/-- 44_radix_conversion.md R208, R209 and R210: the digit values of the characters, both letter cases; from any
position `p` of the text (0, or 2 after a prefix) the scan consumes exactly the characters before the first one that is
neither separator nor digit, and its value is that of the digits among them; the buffer datapath agrees. -/
def Obligations.ScanConsumesUpToTheFirstInvalid : Prop :=
  (∀ (c : Byte) (d : Nat), digitValue c = some d ↔
    (0x30 ≤ c.toNat ∧ c.toNat ≤ 0x39 ∧ d = c.toNat - 0x30) ∨
    (0x61 ≤ c.toNat ∧ c.toNat ≤ 0x7A ∧ d = c.toNat - 0x61 + 10) ∨
    (0x41 ≤ c.toNat ∧ c.toNat ≤ 0x5A ∧ d = c.toNat - 0x41 + 10)) ∧
  ∀ (sep : Byte) (base : Nat) (t : List Byte) (p v used : Nat), p ≤ t.length →
    scan sep base (t.drop p) 0 p = (v, used) →
    p ≤ used ∧ used ≤ t.length ∧
    (∀ j, (h : j < t.length) → p ≤ j → j < used → t[j] = sep ∨ ∃ d, digitValue t[j] = some d ∧ d < base) ∧
    (∀ h : used < t.length, t[used] ≠ sep ∧ ∀ d, digitValue t[used] = some d → base ≤ d) ∧
    v = Nat.ofDigits base
      (((t.take used).drop p).filterMap (fun c => if c = sep then none else digitValue c)).reverse ∧
    scanUnit sep base (t.drop p) [] p = (words v, used)

/-- 45_byte_io.md R233 and R234, the datapath paragraphs: words assembled from bytes. -/
def Obligations.ByteAssemblyGivesTheNumber : Prop :=
  ∀ bs : List Byte, assembleLE bs = words (valLE bs) ∧ assembleBE bs = words (valBE bs)

/-! ### Laws of command sequences -/

/-- 44_radix_conversion.md R212: `PARSE` with base, address and length of a completed `FMT` gives the value back and
consumes the whole text; on texts, for every value, and in base 10 under auto-detection too. -/
def Obligations.FmtThenParseGivesTheValueBack : Prop :=
  (∀ (s t : State) (l : SReg) (a : BReg) (b m p : SReg) (d : BReg) (c : SReg), Inv s → l ≠ b → l ≠ p →
    exec (.fmt l a b m p) s = .next t → Completed s t →
    ∃ u, exec (.parse d c b p l) t = .next u ∧ Completed t u ∧ u.readB d = s.readB a ∧ u.readS c = t.readS l) ∧
  (∀ (sep : Byte) (b v md L : Nat), isAsciiAlnum sep = false → 2 ≤ b → b ≤ 36 → L = max (digits v b).length md →
    parseText sep b (fmtText L (digits v b)) = (v, L)) ∧
  (∀ (sep : Byte) (v md L : Nat), isAsciiAlnum sep = false → L = max (digits v 10).length md →
    parseText sep 0 (fmtText L (digits v 10)) = (v, L))

/-- 45_byte_io.md R235: reading back with the same order and count gives `v mod 2^(8·cnt)`, which is `v` exactly when
`cnt ≥ bytes(v)`; the two orders write each other's reverse and read each other's reverse. -/
def Obligations.BytesReadBackAsWritten : Prop :=
  (∀ (s t : State) (a d : BReg) (p n : SReg), Inv s → Completed s t →
    exec (.wrbe a p n) s = .next t →
    ∃ u, exec (.rdbe d p n) t = .next u ∧ Completed t u ∧ u.valB d = s.valB a % 2 ^ (8 * s.natS n) ∧
      (u.readB d = s.readB a ↔ bytes (s.readB a) ≤ s.natS n)) ∧
  (∀ (s t : State) (a d : BReg) (p n : SReg), Inv s → Completed s t →
    exec (.wrle a p n) s = .next t →
    ∃ u, exec (.rdle d p n) t = .next u ∧ Completed t u ∧ u.valB d = s.valB a % 2 ^ (8 * s.natS n) ∧
      (u.readB d = s.readB a ↔ bytes (s.readB a) ≤ s.natS n)) ∧
  (∀ v cnt, bytesBE v cnt = (bytesLE v cnt).reverse) ∧
  (∀ bs : List Byte, valBE bs = valLE bs.reverse)

/-- 42_arithmetic.md R144, the source's first two laws: `(a + b) − b = a`, and the division law. -/
def Obligations.AddThenSubAndDivisionLaws : Prop :=
  (∀ (s t : State) (d a b e : BReg), Inv s → d ≠ b → exec (.add d a b) s = .next t → Completed s t →
    ∃ u, exec (.sub e d b) t = .next u ∧ Completed t u ∧ u.readB e = s.readB a) ∧
  (∀ (s t : State) (q r a b : BReg), Inv s → q ≠ r → exec (.divmod q r a b) s = .next t → Completed s t →
    t.valB q * s.valB b + t.valB r = s.valB a ∧ t.valB r < s.valB b)

/-- 43_bit_operations.md R182: `(a·2^n) div 2^n = a`, and `(a div 2^n)·2^n ≤ a` with equality exactly when the `n` low
bits of `a` are zero. -/
def Obligations.ShiftBackLaws : Prop :=
  (∀ (s t : State) (d a e : BReg) (c : SReg), Inv s → exec (.shl d a c) s = .next t → Completed s t →
    ∃ u, exec (.shr e d c) t = .next u ∧ Completed t u ∧ u.readB e = s.readB a) ∧
  (∀ (s t : State) (d a e : BReg) (c : SReg), Inv s → exec (.shr d a c) s = .next t →
    ∃ u, exec (.shl e d c) t = .next u ∧ Completed t u ∧ u.valB e ≤ s.valB a ∧
      (u.readB e = s.readB a ↔ ∀ j, j < s.natS c → (s.valB a).testBit j = false))

/-- 30_encoding.md R83: the expansions have 2, 4 and 1 commands, and their effects are as listed. -/
def Obligations.PseudoCommandsHaveTheirEffect : Prop :=
  (∀ (d : SReg) (imm : BitVec 32) (s : State), (Pseudo.li32 d imm).expand.length = 2 ∧
    ∃ t, execAll (Pseudo.li32 d imm).expand s = .next t ∧ t.readS d = imm.setWidth 64 ∧ SameSExcept d s t ∧
      SameB s t ∧ SameBM s t ∧ SameControl s t ∧ t.cc = s.cc + 2 ∧ t.k = s.k + 2) ∧
  (∀ (d : SReg) (imm : BitVec 64) (s : State), (Pseudo.li64 d imm).expand.length = 4 ∧
    ∃ t, execAll (Pseudo.li64 d imm).expand s = .next t ∧ t.readS d = imm ∧ SameSExcept d s t ∧
      SameB s t ∧ SameBM s t ∧ SameControl s t ∧ t.cc = s.cc + 4 ∧ t.k = s.k + 4) ∧
  (∀ (d : BReg) (s : State), (Pseudo.clr d).expand.length = 1 ∧
    ∃ t, execAll (Pseudo.clr d).expand s = .next t ∧ WroteB d [] s t)
end

