-- ==== Sys2Proof/Laws/Encoding.lean ====
section
/-! SUPPORT. The two formats as numbers and field by field (spec/30_encoding.md R71, R72). -/

namespace Sys2Proof

theorem toNat_formatR (op : BitVec 8) (f1 f2 f3 f4 f5 : BitVec 4) :
    (formatR op f1 f2 f3 f4 f5).toNat =
      op.toNat * 2 ^ 24 + f1.toNat * 2 ^ 20 + f2.toNat * 2 ^ 16 + f3.toNat * 2 ^ 12 + f4.toNat * 2 ^ 8 +
        f5.toNat * 2 ^ 4 := by
  have h1 := f1.isLt
  have h2 := f2.isLt
  have h3 := f3.isLt
  have h4 := f4.isLt
  have h5 := f5.isLt
  simp only [formatR, BitVec.toNat_append, BitVec.toNat_ofNat, ← Nat.shiftLeft_add_eq_or_of_lt h1,
    ← Nat.shiftLeft_add_eq_or_of_lt h2, ← Nat.shiftLeft_add_eq_or_of_lt h3, ← Nat.shiftLeft_add_eq_or_of_lt h4,
    ← Nat.shiftLeft_add_eq_or_of_lt h5]
  simp [Nat.shiftLeft_eq]
  omega

theorem toNat_formatI (op : BitVec 8) (f1 : BitVec 4) (imm : BitVec 16) :
    (formatI op f1 imm).toNat = op.toNat * 2 ^ 24 + f1.toNat * 2 ^ 20 + imm.toNat := by
  have h1 := f1.isLt
  have h2 := imm.isLt
  simp only [formatI, BitVec.toNat_append, BitVec.toNat_ofNat, ← Nat.shiftLeft_add_eq_or_of_lt h1,
    ← Nat.shiftLeft_add_eq_or_of_lt h2]
  simp [Nat.shiftLeft_eq]
  omega

@[simp] theorem toNat_regField (r : Fin 16) : (regField r).toNat = r.val := by
  simp [regField]

@[simp] theorem regNum_regField (r : Fin 16) : regNum (regField r) = r := Fin.ext (toNat_regField r)

@[simp] theorem regField_regNum (f : BitVec 4) : regField (regNum f) = f :=
  BitVec.eq_of_toNat_eq (by simp [regNum])

/-- The fields of a word in format R (30_encoding.md R71). -/
theorem fieldsOf_formatR (op : BitVec 8) (f1 f2 f3 f4 f5 : BitVec 4) :
    (fieldsOf (formatR op f1 f2 f3 f4 f5)).f1 = regNum f1 ∧ (fieldsOf (formatR op f1 f2 f3 f4 f5)).f2 = regNum f2 ∧
      (fieldsOf (formatR op f1 f2 f3 f4 f5)).f3 = regNum f3 ∧ (fieldsOf (formatR op f1 f2 f3 f4 f5)).f4 = regNum f4 ∧
      (fieldsOf (formatR op f1 f2 f3 f4 f5)).f5 = regNum f5 := by
  have h1 := f1.isLt
  have h2 := f2.isLt
  have h3 := f3.isLt
  have h4 := f4.isLt
  have h5 := f5.isLt
  refine ⟨?_, ?_, ?_, ?_, ?_⟩ <;> refine congrArg regNum (BitVec.eq_of_toNat_eq ?_) <;>
    simp only [BitVec.extractLsb'_toNat, toNat_formatR, Nat.shiftRight_eq_div_pow] <;> omega

/-- The fields of a word in format I (30_encoding.md R72). -/
theorem fieldsOf_formatI (op : BitVec 8) (f1 : BitVec 4) (imm : BitVec 16) :
    (fieldsOf (formatI op f1 imm)).f1 = regNum f1 ∧ (fieldsOf (formatI op f1 imm)).imm16 = imm := by
  have h1 := f1.isLt
  have h2 := imm.isLt
  refine ⟨congrArg regNum (BitVec.eq_of_toNat_eq ?_), BitVec.eq_of_toNat_eq ?_⟩ <;>
    simp only [fieldsOf, BitVec.extractLsb'_toNat, toNat_formatI, Nat.shiftRight_eq_div_pow] <;> omega

end Sys2Proof
end

