-- ==== Sys2Proof/Laws/State.lean ====
section
/-! SUPPORT. One lemma per field (and per accessor) of State per update, so that no proof unfolds a record update. -/

namespace Sys2Proof.Machine

variable (s : State)

/-! ### Fields -/

@[simp] theorem State.writeB_sReg (i : BReg) (w : Buf) : (s.writeB i w).sReg = s.sReg := rfl
@[simp] theorem State.writeB_bm (i : BReg) (w : Buf) : (s.writeB i w).bm = s.bm := rfl
@[simp] theorem State.writeB_cc (i : BReg) (w : Buf) : (s.writeB i w).cc = s.cc := rfl
@[simp] theorem State.writeB_status (i : BReg) (w : Buf) : (s.writeB i w).status = s.status := rfl
@[simp] theorem State.writeB_cause (i : BReg) (w : Buf) : (s.writeB i w).cause = s.cause := rfl
@[simp] theorem State.writeB_ecc (i : BReg) (w : Buf) : (s.writeB i w).ecc = s.ecc := rfl
@[simp] theorem State.writeB_ecmd (i : BReg) (w : Buf) : (s.writeB i w).ecmd = s.ecmd := rfl
@[simp] theorem State.writeB_prog (i : BReg) (w : Buf) : (s.writeB i w).prog = s.prog := rfl
@[simp] theorem State.writeB_k (i : BReg) (w : Buf) : (s.writeB i w).k = s.k := rfl
@[simp] theorem State.writeB_params (i : BReg) (w : Buf) : (s.writeB i w).params = s.params := rfl

@[simp] theorem State.writeS_bReg (i : SReg) (v : Scalar) : (s.writeS i v).bReg = s.bReg := rfl
@[simp] theorem State.writeS_bm (i : SReg) (v : Scalar) : (s.writeS i v).bm = s.bm := rfl
@[simp] theorem State.writeS_cc (i : SReg) (v : Scalar) : (s.writeS i v).cc = s.cc := rfl
@[simp] theorem State.writeS_status (i : SReg) (v : Scalar) : (s.writeS i v).status = s.status := rfl
@[simp] theorem State.writeS_cause (i : SReg) (v : Scalar) : (s.writeS i v).cause = s.cause := rfl
@[simp] theorem State.writeS_ecc (i : SReg) (v : Scalar) : (s.writeS i v).ecc = s.ecc := rfl
@[simp] theorem State.writeS_ecmd (i : SReg) (v : Scalar) : (s.writeS i v).ecmd = s.ecmd := rfl
@[simp] theorem State.writeS_prog (i : SReg) (v : Scalar) : (s.writeS i v).prog = s.prog := rfl
@[simp] theorem State.writeS_k (i : SReg) (v : Scalar) : (s.writeS i v).k = s.k := rfl
@[simp] theorem State.writeS_params (i : SReg) (v : Scalar) : (s.writeS i v).params = s.params := rfl

@[simp] theorem State.memWrite_bReg (a : Nat) (bs : List Byte) : (s.memWrite a bs).bReg = s.bReg := rfl
@[simp] theorem State.memWrite_sReg (a : Nat) (bs : List Byte) : (s.memWrite a bs).sReg = s.sReg := rfl
@[simp] theorem State.memWrite_bm (a : Nat) (bs : List Byte) : (s.memWrite a bs).bm = Memory.writeRun s.bm a bs := rfl
@[simp] theorem State.memWrite_cc (a : Nat) (bs : List Byte) : (s.memWrite a bs).cc = s.cc := rfl
@[simp] theorem State.memWrite_status (a : Nat) (bs : List Byte) : (s.memWrite a bs).status = s.status := rfl
@[simp] theorem State.memWrite_cause (a : Nat) (bs : List Byte) : (s.memWrite a bs).cause = s.cause := rfl
@[simp] theorem State.memWrite_ecc (a : Nat) (bs : List Byte) : (s.memWrite a bs).ecc = s.ecc := rfl
@[simp] theorem State.memWrite_ecmd (a : Nat) (bs : List Byte) : (s.memWrite a bs).ecmd = s.ecmd := rfl
@[simp] theorem State.memWrite_prog (a : Nat) (bs : List Byte) : (s.memWrite a bs).prog = s.prog := rfl
@[simp] theorem State.memWrite_k (a : Nat) (bs : List Byte) : (s.memWrite a bs).k = s.k := rfl
@[simp] theorem State.memWrite_params (a : Nat) (bs : List Byte) : (s.memWrite a bs).params = s.params := rfl

@[simp] theorem State.setRS_bReg (r : RunState) : (s.setRS r).bReg = s.bReg := rfl
@[simp] theorem State.setRS_sReg (r : RunState) : (s.setRS r).sReg = s.sReg := rfl
@[simp] theorem State.setRS_bm (r : RunState) : (s.setRS r).bm = s.bm := rfl
@[simp] theorem State.setRS_cc (r : RunState) : (s.setRS r).cc = s.cc := rfl
@[simp] theorem State.setRS_status (r : RunState) : (s.setRS r).status = r.code := rfl
@[simp] theorem State.setRS_cause (r : RunState) : (s.setRS r).cause = s.cause := rfl
@[simp] theorem State.setRS_ecc (r : RunState) : (s.setRS r).ecc = s.ecc := rfl
@[simp] theorem State.setRS_ecmd (r : RunState) : (s.setRS r).ecmd = s.ecmd := rfl
@[simp] theorem State.setRS_prog (r : RunState) : (s.setRS r).prog = s.prog := rfl
@[simp] theorem State.setRS_k (r : RunState) : (s.setRS r).k = s.k := rfl
@[simp] theorem State.setRS_params (r : RunState) : (s.setRS r).params = s.params := rfl

@[simp] theorem State.complete_bReg : (s.complete).bReg = s.bReg := rfl
@[simp] theorem State.complete_sReg : (s.complete).sReg = s.sReg := rfl
@[simp] theorem State.complete_bm : (s.complete).bm = s.bm := rfl
@[simp] theorem State.complete_cc : (s.complete).cc = s.cc + 1 := rfl
@[simp] theorem State.complete_status : (s.complete).status = s.status := rfl
@[simp] theorem State.complete_cause : (s.complete).cause = s.cause := rfl
@[simp] theorem State.complete_ecc : (s.complete).ecc = s.ecc := rfl
@[simp] theorem State.complete_ecmd : (s.complete).ecmd = s.ecmd := rfl
@[simp] theorem State.complete_prog : (s.complete).prog = s.prog := rfl
@[simp] theorem State.complete_k : (s.complete).k = s.k + 1 := rfl
@[simp] theorem State.complete_params : (s.complete).params = s.params := rfl

@[simp] theorem State.raise_bReg (f : Cause) (w : Word) : (s.raise f w).bReg = s.bReg := rfl
@[simp] theorem State.raise_sReg (f : Cause) (w : Word) : (s.raise f w).sReg = s.sReg := rfl
@[simp] theorem State.raise_bm (f : Cause) (w : Word) : (s.raise f w).bm = s.bm := rfl
@[simp] theorem State.raise_cc (f : Cause) (w : Word) : (s.raise f w).cc = s.cc := rfl
@[simp] theorem State.raise_status (f : Cause) (w : Word) : (s.raise f w).status = RunState.fault.code := rfl
@[simp] theorem State.raise_cause (f : Cause) (w : Word) : (s.raise f w).cause = f.code := rfl
@[simp] theorem State.raise_ecc (f : Cause) (w : Word) : (s.raise f w).ecc = s.cc := rfl
@[simp] theorem State.raise_ecmd (f : Cause) (w : Word) : (s.raise f w).ecmd = w := rfl
@[simp] theorem State.raise_prog (f : Cause) (w : Word) : (s.raise f w).prog = s.prog := rfl
@[simp] theorem State.raise_k (f : Cause) (w : Word) : (s.raise f w).k = s.k := rfl
@[simp] theorem State.raise_params (f : Cause) (w : Word) : (s.raise f w).params = s.params := rfl

/-! ### Accessors -/

@[simp] theorem State.writeB_readB_same (i : BReg) (w : Buf) : (s.writeB i w).readB i = w := by
  simp [State.readB, State.writeB]

@[simp] theorem State.writeB_readB_ne (i j : BReg) (w : Buf) (h : j ≠ i) : (s.writeB i w).readB j = s.readB j := by
  have hv : i.val ≠ j.val := fun e => h (Fin.ext e.symm)
  simp [State.readB, State.writeB, Vector.getElem_set_ne _ _ hv]

theorem State.writeB_readB (i j : BReg) (w : Buf) :
    (s.writeB i w).readB j = if j = i then w else s.readB j := by
  by_cases h : j = i
  · subst h; simp
  · simp [h]

@[simp] theorem State.writeS_readS_same (i : SReg) (v : Scalar) : (s.writeS i v).readS i = v := by
  simp [State.readS, State.writeS]

@[simp] theorem State.writeS_readS_ne (i j : SReg) (v : Scalar) (h : j ≠ i) : (s.writeS i v).readS j = s.readS j := by
  have hv : i.val ≠ j.val := fun e => h (Fin.ext e.symm)
  simp [State.readS, State.writeS, Vector.getElem_set_ne _ _ hv]

theorem State.writeS_readS (i j : SReg) (v : Scalar) :
    (s.writeS i v).readS j = if j = i then v else s.readS j := by
  by_cases h : j = i
  · subst h; simp
  · simp [h]

@[simp] theorem State.writeB_readS (i : BReg) (w : Buf) (j : SReg) : (s.writeB i w).readS j = s.readS j := rfl
@[simp] theorem State.writeB_readByte (i : BReg) (w : Buf) (j : Nat) : (s.writeB i w).readByte j = s.readByte j := rfl
@[simp] theorem State.writeB_rs (i : BReg) (w : Buf) : (s.writeB i w).rs = s.rs := rfl

@[simp] theorem State.writeS_readB (i : SReg) (v : Scalar) (j : BReg) : (s.writeS i v).readB j = s.readB j := rfl
@[simp] theorem State.writeS_readByte (i : SReg) (v : Scalar) (j : Nat) : (s.writeS i v).readByte j = s.readByte j := rfl
@[simp] theorem State.writeS_rs (i : SReg) (v : Scalar) : (s.writeS i v).rs = s.rs := rfl

@[simp] theorem State.memWrite_readB (a : Nat) (bs : List Byte) (j : BReg) : (s.memWrite a bs).readB j = s.readB j := rfl
@[simp] theorem State.memWrite_readS (a : Nat) (bs : List Byte) (j : SReg) : (s.memWrite a bs).readS j = s.readS j := rfl
@[simp] theorem State.memWrite_rs (a : Nat) (bs : List Byte) : (s.memWrite a bs).rs = s.rs := rfl

@[simp] theorem State.setRS_readB (r : RunState) (j : BReg) : (s.setRS r).readB j = s.readB j := rfl
@[simp] theorem State.setRS_readS (r : RunState) (j : SReg) : (s.setRS r).readS j = s.readS j := rfl
@[simp] theorem State.setRS_readByte (r : RunState) (j : Nat) : (s.setRS r).readByte j = s.readByte j := rfl

@[simp] theorem State.complete_readB (j : BReg) : (s.complete).readB j = s.readB j := rfl
@[simp] theorem State.complete_readS (j : SReg) : (s.complete).readS j = s.readS j := rfl
@[simp] theorem State.complete_readByte (j : Nat) : (s.complete).readByte j = s.readByte j := rfl
@[simp] theorem State.complete_rs : (s.complete).rs = s.rs := rfl

@[simp] theorem State.raise_readB (f : Cause) (w : Word) (j : BReg) : (s.raise f w).readB j = s.readB j := rfl
@[simp] theorem State.raise_readS (f : Cause) (w : Word) (j : SReg) : (s.raise f w).readS j = s.readS j := rfl
@[simp] theorem State.raise_readByte (f : Cause) (w : Word) (j : Nat) : (s.raise f w).readByte j = s.readByte j := rfl

@[simp] theorem State.setRS_rs (r : RunState) : (s.setRS r).rs = r := by cases r <;> rfl

@[simp] theorem State.raise_rs (f : Cause) (w : Word) : (s.raise f w).rs = .fault := rfl

theorem RunState.code_lt (r : RunState) : r.code.toNat < 4 := by cases r <;> decide

theorem Cause.code_bounds (f : Cause) : 1 ≤ f.code.toNat ∧ f.code.toNat ≤ 6 := by cases f <;> decide

end Sys2Proof.Machine
end

