-- ==== Sys2Proof/Laws/Memory.lean ====
section
/-! SUPPORT. What the memory operations do, said once: a write is read back, leaves every other address alone and
keeps the canonical form (spec/20_memory.md R52, R53, R60). -/

namespace Sys2Proof.Machine

theorem Memory.get?_write (m : Memory) (a b : Nat) (v : Byte) :
    Memory.get? (Memory.write m a v) b = if b = a then some v else Memory.get? m b := by
  induction m with
  | nil => simp [Memory.write, Memory.get?, eq_comm]
  | cons c m ih =>
    obtain ⟨c, w⟩ := c
    rcases lt_trichotomy a c with h | h | h
    · by_cases hb : b = a
      · subst hb; simp [Memory.write, Memory.get?, h]
      · simp [Memory.write, Memory.get?, h, hb, Ne.symm hb]
    · subst h
      by_cases hb : b = a
      · subst hb; simp [Memory.write, Memory.get?]
      · simp [Memory.write, Memory.get?, hb, Ne.symm hb]
    · have h1 : ¬ a < c := by omega
      have h2 : a ≠ c := by omega
      by_cases hb : c = b
      · subst hb
        have hba : c ≠ a := by omega
        simp [Memory.write, Memory.get?, h1, h2, hba]
      · simp [Memory.write, Memory.get?, h1, h2, hb, ih]

theorem Memory.mem_write (m : Memory) (a : Nat) (v : Byte) (c : Host.Cell) (h : c ∈ Memory.write m a v) :
    c = (a, v) ∨ c ∈ m := by
  induction m with
  | nil => simpa [Memory.write] using h
  | cons d m ih =>
    obtain ⟨d, w⟩ := d
    simp only [Memory.write] at h
    split at h
    · simpa using h
    · split at h
      · rcases List.mem_cons.1 h with h | h
        · exact .inl h
        · exact .inr (List.mem_cons_of_mem _ h)
      · rcases List.mem_cons.1 h with h | h
        · exact .inr (h ▸ List.mem_cons_self)
        · exact (ih h).imp id (List.mem_cons_of_mem _)

theorem Memory.wf_write (m : Memory) (a : Nat) (v : Byte) (hm : Memory.wf m) : Memory.wf (Memory.write m a v) := by
  induction m with
  | nil => simp [Memory.write]
  | cons c m ih =>
    obtain ⟨c, w⟩ := c
    have hc := List.pairwise_cons.1 hm
    simp only [Memory.write]
    split
    next h =>
      refine List.pairwise_cons.2 ⟨fun x hx => ?_, hm⟩
      rcases List.mem_cons.1 hx with rfl | hx
      · exact h
      · exact lt_trans h (hc.1 x hx)
    next h =>
      split
      next e => exact List.pairwise_cons.2 ⟨fun x hx => e ▸ hc.1 x hx, hc.2⟩
      next e =>
        refine List.pairwise_cons.2 ⟨fun x hx => ?_, ih hc.2⟩
        rcases Memory.mem_write _ _ _ _ hx with rfl | hx
        · show c < a; omega
        · exact hc.1 x hx

theorem Memory.wf_writeRun (m : Memory) (a : Nat) (bs : List Byte) (hm : Memory.wf m) :
    Memory.wf (Memory.writeRun m a bs) := by
  induction bs generalizing m a with
  | nil => exact hm
  | cons b bs ih => exact ih _ _ (Memory.wf_write _ _ _ hm)

theorem Memory.mem_writeRun (m : Memory) (a : Nat) (bs : List Byte) (c : Host.Cell)
    (h : c ∈ Memory.writeRun m a bs) : (a ≤ c.1 ∧ c.1 < a + bs.length) ∨ c ∈ m := by
  induction bs generalizing m a with
  | nil => exact .inr h
  | cons b bs ih =>
    rcases ih _ _ h with ⟨h1, h2⟩ | h
    · exact .inl ⟨by omega, by simp; omega⟩
    · rcases Memory.mem_write _ _ _ _ h with rfl | h
      · exact .inl ⟨le_refl _, by simp⟩
      · exact .inr h

theorem Memory.get?_writeRun (m : Memory) (a b : Nat) (bs : List Byte) :
    Memory.get? (Memory.writeRun m a bs) b =
      if a ≤ b ∧ b < a + bs.length then bs[b - a]? else Memory.get? m b := by
  induction bs generalizing m a with
  | nil =>
    simp [Memory.writeRun]
  | cons v bs ih =>
    rw [Memory.writeRun, ih, Memory.get?_write]
    simp only [List.length_cons]
    by_cases h : b = a
    · subst h
      simp
    · by_cases h1 : a + 1 ≤ b ∧ b < a + 1 + bs.length
      · have h2 : a ≤ b ∧ b < a + (bs.length + 1) := by omega
        have h3 : b - a = (b - (a + 1)) + 1 := by omega
        simp [h1, h2, h3]
      · have h2 : ¬ (a ≤ b ∧ b < a + (bs.length + 1)) := by omega
        rw [if_neg h1, if_neg h2, if_neg h]

/-- A byte inside a written run reads as the byte written there (20_memory.md R53). -/
theorem State.readByte_memWrite_inside (s : State) (a j : Nat) (bs : List Byte)
    (h : j < bs.length) : (s.memWrite a bs).readByte (a + j) = bs[j] := by
  simp [State.readByte, Memory.get?_writeRun, h]

/-- Every byte outside a written run reads as before (20_memory.md R53). -/
theorem State.readByte_memWrite_outside (s : State) (a b : Nat) (bs : List Byte)
    (h : b < a ∨ a + bs.length ≤ b) : (s.memWrite a bs).readByte b = s.readByte b := by
  have h' : ¬ (a ≤ b ∧ b < a + bs.length) := by omega
  simp [State.readByte, Memory.get?_writeRun, h']

@[simp] theorem State.length_memRead (s : State) (a n : Nat) : (s.memRead a n).length = n := by
  simp [State.memRead]

theorem State.getElem_memRead (s : State) (a n j : Nat) (h : j < (s.memRead a n).length) :
    (s.memRead a n)[j] = s.readByte (a + j) := by
  simp [State.memRead]

end Sys2Proof.Machine
end

