-- ==== Sys2Proof/Laws/Words.lean ====
section
/-! SUPPORT. Words and values: `words` inverts `val` on trimmed sequences, lengths bound values, `trim` keeps the
value (spec/00_scope.md R10, R11; spec/41_word_buffer_query.md R110). -/

namespace Sys2Proof.Machine

@[simp] theorem val_nil : val [] = 0 := rfl

@[simp] theorem val_cons (w : Word) (ws : Buf) : val (w :: ws) = w.toNat + 2 ^ 32 * val ws := rfl

theorem val_append (a b : Buf) : val (a ++ b) = val a + 2 ^ (32 * a.length) * val b := by
  induction a with
  | nil => simp
  | cons w ws ih =>
    simp only [List.cons_append, val_cons, ih, List.length_cons, Nat.mul_add, Nat.pow_add, mul_one]
    ring

theorem val_lt (w : Buf) : val w < 2 ^ (32 * w.length) := by
  induction w with
  | nil => simp
  | cons x xs ih =>
    have hx := x.isLt
    have e : 2 ^ (32 * (x :: xs).length) = 2 ^ 32 * 2 ^ (32 * xs.length) := by
      rw [List.length_cons, Nat.mul_add, Nat.pow_add, mul_comm]
    rw [val_cons, e]
    generalize 2 ^ (32 * xs.length) = p at ih
    omega

@[simp] theorem words_zero : words 0 = [] := by decide

theorem val_wordsUpTo (n v : Nat) (h : v < 2 ^ (32 * n)) : val (wordsUpTo n v) = v := by
  induction n generalizing v with
  | zero => simp at h; simp [wordsUpTo, h]
  | succ n ih =>
    by_cases hv : v = 0
    · simp [wordsUpTo, hv]
    · have e : 2 ^ (32 * (n + 1)) = 2 ^ (32 * n) * 2 ^ 32 := by rw [Nat.mul_add, Nat.pow_add]
      have hd : v / 2 ^ 32 < 2 ^ (32 * n) := Nat.div_lt_of_lt_mul (by rw [e, mul_comm] at h; exact h)
      simp only [wordsUpTo, hv, if_false, val_cons, ih _ hd, BitVec.toNat_ofNat]
      omega

theorem lt_words_bound (v : Nat) : v < 2 ^ (32 * (v.log2 / 32 + 1)) := by
  rcases Nat.eq_zero_or_pos v with rfl | hv
  · positivity
  · calc v < 2 ^ (v.log2 + 1) := Nat.lt_log2_self
      _ ≤ 2 ^ (32 * (v.log2 / 32 + 1)) := Nat.pow_le_pow_right (by norm_num) (by omega)

@[simp] theorem val_words (v : Nat) : val (words v) = v := val_wordsUpTo _ _ (lt_words_bound v)

theorem trimmed_cons (w : Word) (ws : Buf) : Trimmed (w :: ws) ↔ Trimmed ws ∧ (ws = [] → w ≠ 0) := by
  cases ws <;> simp [Trimmed]

theorem trimmed_wordsUpTo (n v : Nat) (h : v < 2 ^ (32 * n)) : Trimmed (wordsUpTo n v) := by
  induction n generalizing v with
  | zero => simp [wordsUpTo]
  | succ n ih =>
    by_cases hv : v = 0
    · simp [wordsUpTo, hv]
    · have e : 2 ^ (32 * (n + 1)) = 2 ^ (32 * n) * 2 ^ 32 := by rw [Nat.mul_add, Nat.pow_add]
      have hd : v / 2 ^ 32 < 2 ^ (32 * n) := Nat.div_lt_of_lt_mul (by rw [e, mul_comm] at h; exact h)
      rw [wordsUpTo, if_neg hv, trimmed_cons]
      refine ⟨ih _ hd, fun hnil hw => hv ?_⟩
      have h1 := val_wordsUpTo n _ hd
      rw [hnil] at h1
      have h2 : v % 2 ^ 32 = 0 := by simpa using congrArg BitVec.toNat hw
      simp at h1
      omega

theorem trimmed_words (v : Nat) : Trimmed (words v) := trimmed_wordsUpTo _ _ (lt_words_bound v)

/-- A non-empty trimmed sequence has a value that needs all its words. -/
theorem le_val_of_trimmed (w : Buf) (h : Trimmed w) (hne : w ≠ []) : 2 ^ (32 * (w.length - 1)) ≤ val w := by
  induction w with
  | nil => exact absurd rfl hne
  | cons x xs ih =>
    rw [trimmed_cons] at h
    by_cases hx : xs = []
    · subst hx
      have hpos : x.toNat ≠ 0 := fun e => h.2 rfl (BitVec.eq_of_toNat_eq (by simpa using e))
      simp; omega
    · have h1 := ih h.1 hx
      have hlen : 0 < xs.length := List.length_pos_iff.2 hx
      have e : 2 ^ (32 * ((x :: xs).length - 1)) = 2 ^ (32 * (xs.length - 1)) * 2 ^ 32 := by
        rw [← Nat.pow_add]; congr 1; simp; omega
      rw [e, val_cons]
      nlinarith

theorem val_eq_zero_of_trimmed (w : Buf) (h : Trimmed w) : val w = 0 ↔ w = [] := by
  refine ⟨fun hv => ?_, fun hw => by simp [hw]⟩
  by_contra hne
  have h1 := le_val_of_trimmed w h hne
  have h2 : 0 < 2 ^ (32 * (w.length - 1)) := by positivity
  omega

/-- Two trimmed sequences with the same value are the same (00_scope.md R11). -/
theorem eq_of_val_eq (a b : Buf) (ha : Trimmed a) (hb : Trimmed b) (h : val a = val b) : a = b := by
  induction a generalizing b with
  | nil => exact ((val_eq_zero_of_trimmed b hb).1 h.symm).symm
  | cons x xs ih =>
    cases b with
    | nil => exact (val_eq_zero_of_trimmed _ ha).1 h
    | cons y ys =>
      have hx := x.isLt
      have hy := y.isLt
      simp only [val_cons] at h
      have e1 : x.toNat = y.toNat := by omega
      have e2 : val xs = val ys := by omega
      rw [BitVec.eq_of_toNat_eq e1, ih ys ((trimmed_cons _ _).1 ha).1 ((trimmed_cons _ _).1 hb).1 e2]

@[simp] theorem words_val (w : Buf) (h : Trimmed w) : words (val w) = w :=
  eq_of_val_eq _ _ (trimmed_words _) h (val_words _)

/-- The capacity check on a trimmed result is a bound on its value (60_exceptions.md R256). -/
theorem length_le_iff_of_trimmed (w : Buf) (h : Trimmed w) (c : Nat) : w.length ≤ c ↔ val w < 2 ^ (32 * c) := by
  constructor
  · exact fun hc => lt_of_lt_of_le (val_lt w) (Nat.pow_le_pow_right (by norm_num) (by omega))
  · intro hv
    by_contra hc
    have hne : w ≠ [] := by rintro rfl; simp at hc
    have h1 := le_val_of_trimmed w h hne
    have h2 : 2 ^ (32 * c) ≤ 2 ^ (32 * (w.length - 1)) := Nat.pow_le_pow_right (by norm_num) (by omega)
    omega

theorem length_words_le_iff (v c : Nat) : (words v).length ≤ c ↔ v < 2 ^ (32 * c) := by
  rw [length_le_iff_of_trimmed _ (trimmed_words v), val_words]

@[simp] theorem val_trim (w : Buf) : val (trim w) = val w := by
  induction w with
  | nil => rfl
  | cons x xs ih =>
    rw [trim]
    split
    next h => simp [h.2, ← ih, h.1]
    next h => simp [ih]

theorem trimmed_trim (w : Buf) : Trimmed (trim w) := by
  induction w with
  | nil => simp [trim]
  | cons x xs ih =>
    rw [trim]
    split
    next h => simp
    next h => exact (trimmed_cons _ _).2 ⟨ih, fun hnil hx => h ⟨hnil, hx⟩⟩

@[simp] theorem wd_nil (i : Nat) : wd [] i = 0 := by simp [wd]

@[simp] theorem wd_cons_zero (w : Word) (ws : Buf) : wd (w :: ws) 0 = w := by simp [wd]

@[simp] theorem wd_cons_succ (w : Word) (ws : Buf) (i : Nat) : wd (w :: ws) (i + 1) = wd ws i := by simp [wd]

/-- Bit `i` of a buffer is bit `i` of the number it stands for (43_bit_operations.md R170). -/
theorem testBit_val (w : Buf) (i : Nat) : (val w).testBit i = bit w i := by
  induction w generalizing i with
  | nil => simp [bit]
  | cons x xs ih =>
    rw [val_cons, Nat.add_comm, Nat.testBit_two_pow_mul_add _ x.isLt]
    by_cases h : i < 32
    · have h1 : i / 32 = 0 := by omega
      have h2 : i % 32 = i := by omega
      simp [bit, h, h1, h2, BitVec.getLsbD]
    · have h1 : i / 32 = (i - 32) / 32 + 1 := by omega
      have h2 : i % 32 = (i - 32) % 32 := by omega
      simp [h, ih, bit, h1, h2]

end Sys2Proof.Machine
end

