-- ==== Sys2Proof/Laws/Ops.lean ====
section
/-! SUPPORT. One lemma for each shared operation that says everything it can do; the inversion lemmas of `exec` and
of `step`. -/

namespace Sys2Proof.Machine

/-- Fault entry records the fault and changes nothing else (60_exceptions.md R258). -/
theorem faultTaken_raise (s : State) (f : Cause) (w : Word) : FaultTaken f w s (s.raise f w) where
  rs := rfl
  statusReserved := RunState.code_lt .fault
  causeCode := by cases f <;> rfl
  causeReserved := lt_of_le_of_lt (Cause.code_bounds f).2 (by norm_num)
  ecc := rfl
  ecmd := rfl
  cc := rfl
  k := rfl
  bRegs := fun _ => rfl
  sRegs := fun _ => rfl
  bm := fun _ => rfl
  prog := rfl
  params := rfl

/-- The end of a command that completes (10_state.md R31). -/
theorem completed_complete (s u : State) (hcc : u.cc = s.cc) (hk : u.k = s.k) (h : SameControl s u) :
    Completed s u.complete where
  cc := by simp [hcc]
  k := by simp [hk]
  control := ⟨h.status, h.cause, h.ecc, h.ecmd, h.prog, h.params⟩

theorem sameControl_refl (s : State) : SameControl s s := ⟨rfl, rfl, rfl, rfl, rfl, rfl⟩

/-- Completing after one write to a buffer register. -/
theorem wroteB_complete (s : State) (d : BReg) (w : Buf) : WroteB d w s (s.writeB d w).complete where
  dest := by simp
  bRest := fun i hi => by simp [hi]
  sRegs := fun _ => rfl
  bm := fun _ => rfl
  completed := completed_complete _ _ rfl rfl ⟨rfl, rfl, rfl, rfl, rfl, rfl⟩

/-- Completing after one write to a scalar register. -/
theorem wroteS_complete (s : State) (d : SReg) (v : Scalar) : WroteS d v s (s.writeS d v).complete where
  dest := by simp
  bRegs := fun _ => rfl
  sRest := fun i hi => by simp [hi]
  bm := fun _ => rfl
  completed := completed_complete _ _ rfl rfl ⟨rfl, rfl, rfl, rfl, rfl, rfl⟩

/-- The capacity check passes exactly when the value fits (60_exceptions.md R256). -/
theorem finishB_fits (i : Instr) (d : BReg) (v : Nat) (s : State) (h : v < 2 ^ (32 * s.params.cap)) :
    finishB i d v s = .next (s.writeB d (words v)).complete := by
  have := (length_words_le_iff v s.params.cap).2 h
  rw [finishB, if_neg (by omega), done]

theorem finishB_overflows (i : Instr) (d : BReg) (v : Nat) (s : State) (h : 2 ^ (32 * s.params.cap) ≤ v) :
    finishB i d v s = .next (s.raise .capOverflow (encode i)) := by
  have h' : ¬ (words v).length ≤ s.params.cap := fun hc => absurd ((length_words_le_iff v s.params.cap).1 hc) (by omega)
  rw [finishB, if_pos (by omega), raised]

/-- Fetch answers a command exactly when the step is enabled (10_state.md R31). -/
theorem fetch_eq_ok (s : State) (c : Word) : s.fetch = .ok c ↔ s.rs = .run ∧ s.prog[s.k]? = some c := by
  unfold State.fetch
  cases hrs : s.rs <;> simp
  cases hp : s.prog[s.k]? <;> simp

/-- What a step that answers a next state has done (10_state.md R31). -/
theorem step_cases (s t : State) (h : step s = .next t) :
    ∃ c, s.rs = .run ∧ s.prog[s.k]? = some c ∧
      ((∃ e, decode c = .error e ∧ t = s.raise .illegalCmd c) ∨ ∃ i, decode c = .ok i ∧ exec i s = .next t) := by
  unfold step at h
  cases hf : s.fetch with
  | error r => simp [hf] at h
  | ok c =>
    obtain ⟨h1, h2⟩ := (fetch_eq_ok s c).1 hf
    refine ⟨c, h1, h2, ?_⟩
    rw [hf] at h
    cases hd : decode c with
    | error e => exact .inl ⟨e, rfl, by simpa [hd, eq_comm] using h⟩
    | ok i => exact .inr ⟨i, rfl, by simpa [hd] using h⟩

/-- A meaning's answer: the fault of the command `i`, or a completed command. -/
def FaultsOrCompletes (i : Instr) (s : State) (r : Result) : Prop :=
  (∃ f ∈ mayRaise i, r = .next (s.raise f (encode i))) ∨ ∃ t, r = .next t ∧ Completed s t

theorem foc_raised (i : Instr) (s : State) (f : Cause) (h : f ∈ mayRaise i) :
    FaultsOrCompletes i s (raised f i s) := .inl ⟨f, h, rfl⟩

theorem foc_done (i : Instr) (s u : State) (hcc : u.cc = s.cc) (hk : u.k = s.k) (h : SameControl s u) :
    FaultsOrCompletes i s (done u) := .inr ⟨_, rfl, completed_complete s u hcc hk h⟩

theorem foc_finishFitting (i : Instr) (d : BReg) (v : Nat) (s : State) :
    FaultsOrCompletes i s (finishFitting d v s) := foc_done _ _ _ rfl rfl ⟨rfl, rfl, rfl, rfl, rfl, rfl⟩

theorem foc_finishS (i : Instr) (d : SReg) (v : Nat) (s u : State) (hcc : u.cc = s.cc) (hk : u.k = s.k)
    (h : SameControl s u) : FaultsOrCompletes i s (finishS d v u) :=
  foc_done _ _ _ hcc hk ⟨h.status, h.cause, h.ecc, h.ecmd, h.prog, h.params⟩

theorem foc_finishB (i : Instr) (d : BReg) (v : Nat) (s : State) (h : .capOverflow ∈ mayRaise i) :
    FaultsOrCompletes i s (finishB i d v s) := by
  unfold finishB
  split
  · exact foc_raised _ _ _ h
  · exact foc_done _ _ _ rfl rfl ⟨rfl, rfl, rfl, rfl, rfl, rfl⟩

/-- Every command but `HALT` raises one of its faults or completes (60_exceptions.md R250, 10_state.md R31). -/
theorem exec_faults_or_completes (i : Instr) (s : State) (hi : i ≠ .halt) : FaultsOrCompletes i s (exec i s) := by
  have refl := sameControl_refl s
  have b1 : ∀ d w, SameControl s (s.writeB d w) := fun _ _ => ⟨rfl, rfl, rfl, rfl, rfl, rfl⟩
  have m1 : ∀ a bs, SameControl s (s.memWrite a bs) := fun _ _ => ⟨rfl, rfl, rfl, rfl, rfl, rfl⟩
  cases i with
  | nop => exact foc_done _ _ _ rfl rfl refl
  | halt => exact absurd rfl hi
  | li d imm => exact foc_done _ _ _ rfl rfl ⟨rfl, rfl, rfl, rfl, rfl, rfl⟩
  | lih d imm => exact foc_done _ _ _ rfl rfl ⟨rfl, rfl, rfl, rfl, rfl, rfl⟩
  | mov d a => exact foc_done _ _ _ rfl rfl (b1 _ _)
  | setu d a => exact foc_finishFitting _ _ _ _
  | bits d a => exact foc_finishS _ _ _ _ _ rfl rfl refl
  | popc d a => exact foc_finishS _ _ _ _ _ rfl rfl refl
  | bytes d a => exact foc_finishS _ _ _ _ _ rfl rfl refl
  | cmp d a b => exact foc_done _ _ _ rfl rfl ⟨rfl, rfl, rfl, rfl, rfl, rfl⟩
  | add d a b => exact foc_finishB _ _ _ _ (by simp [mayRaise])
  | sub d a b =>
    simp only [exec, execSub]; split
    · exact foc_raised _ _ _ (by simp [mayRaise])
    · exact foc_finishFitting _ _ _ _
  | mul d a b => exact foc_finishB _ _ _ _ (by simp [mayRaise])
  | div q a b =>
    simp only [exec, execDiv]; split
    · exact foc_raised _ _ _ (by simp [mayRaise])
    · exact foc_finishFitting _ _ _ _
  | mod r a b =>
    simp only [exec, execMod]; split
    · exact foc_raised _ _ _ (by simp [mayRaise])
    · exact foc_finishFitting _ _ _ _
  | divmod q r a b =>
    simp only [exec, execDivmod]; split
    · exact foc_raised _ _ _ (by simp [mayRaise])
    · exact foc_done _ _ _ rfl rfl ⟨rfl, rfl, rfl, rfl, rfl, rfl⟩
  | pow d a e =>
    simp only [exec, execPow]; split
    · exact foc_raised _ _ _ (by simp [mayRaise])
    · exact foc_finishB _ _ _ _ (by simp [mayRaise])
  | shl d a c =>
    simp only [exec, execShl]; split
    · exact foc_done _ _ _ rfl rfl (b1 _ _)
    · split
      · exact foc_raised _ _ _ (by simp [mayRaise])
      · exact foc_finishFitting _ _ _ _
  | shr d a c => exact foc_finishFitting _ _ _ _
  | getbit d a x => exact foc_finishS _ _ _ _ _ rfl rfl refl
  | setbit d x v =>
    simp only [exec, execSetbit]; split
    · split
      · exact foc_raised _ _ _ (by simp [mayRaise])
      · exact foc_finishFitting _ _ _ _
    · exact foc_finishFitting _ _ _ _
  | flipbit d x =>
    simp only [exec, execFlipbit]; split
    · exact foc_raised _ _ _ (by simp [mayRaise])
    · exact foc_finishFitting _ _ _ _
  | and d a b => exact foc_finishFitting _ _ _ _
  | or d a b => exact foc_finishFitting _ _ _ _
  | xor d a b => exact foc_finishFitting _ _ _ _
  | fmt l a b m p =>
    simp only [exec, execFmt]; split
    · exact foc_raised _ _ _ (by simp [mayRaise])
    · split
      · exact foc_finishS _ _ _ _ _ rfl rfl (m1 _ _)
      · exact foc_raised _ _ _ (by simp [mayRaise])
  | parse d c b p n =>
    simp only [exec, execParse]; split
    · exact foc_raised _ _ _ (by simp [mayRaise])
    · split
      · split
        · exact foc_raised _ _ _ (by simp [mayRaise])
        · exact foc_finishS _ _ _ _ _ rfl rfl (b1 _ _)
      · exact foc_raised _ _ _ (by simp [mayRaise])
  | wrbe a p n =>
    simp only [exec, execWrbe]; split
    · exact foc_done _ _ _ rfl rfl (m1 _ _)
    · exact foc_raised _ _ _ (by simp [mayRaise])
  | wrle a p n =>
    simp only [exec, execWrle]; split
    · exact foc_done _ _ _ rfl rfl (m1 _ _)
    · exact foc_raised _ _ _ (by simp [mayRaise])
  | rdbe d p n =>
    simp only [exec, execRdbe]; split
    · exact foc_finishB _ _ _ _ (by simp [mayRaise])
    · exact foc_raised _ _ _ (by simp [mayRaise])
  | rdle d p n =>
    simp only [exec, execRdle]; split
    · exact foc_finishB _ _ _ _ (by simp [mayRaise])
    · exact foc_raised _ _ _ (by simp [mayRaise])

end Sys2Proof.Machine
end

