-- ==== Sys2Proof/Laws/PerInstr.lean ====
section
/-! SUPPORT. Statements made for every command as a term, one lemma per constructor: the family MatchesRow says that
the encoding of a command spells its row of the opcode map under mask and match (spec/30_encoding.md R74, R75). -/

namespace Sys2Proof.Laws.MatchesRow

/-- The word of `i` has the opcode of a row of R75, and all bits that the row fixes are as the row says. -/
def Statement (i : Instr) : Prop :=
  ∃ r ∈ opcodeMap, r.op = opField (encode i) ∧ encode i &&& r.mask = r.bits

theorem opField_formatR (op : BitVec 8) (f1 f2 f3 f4 f5 : BitVec 4) : opField (formatR op f1 f2 f3 f4 f5) = op := by
  have h : (op ++ f1 ++ f2 ++ f3 ++ f4 ++ f5 ++ 0#4).extractLsb' 24 8 = op := by
    iterate 6 rw [BitVec.extractLsb'_append_eq_of_le (by decide)]
    exact BitVec.extractLsb'_eq_self
  exact h

theorem opField_formatI (op : BitVec 8) (f1 : BitVec 4) (imm : BitVec 16) : opField (formatI op f1 imm) = op := by
  have h : (op ++ f1 ++ 0#4 ++ imm).extractLsb' 24 8 = op := by
    iterate 3 rw [BitVec.extractLsb'_append_eq_of_le (by decide)]
    exact BitVec.extractLsb'_eq_self
  exact h

/-- A mask that is laid out in format R, with all opcode bits and all of `z`, works on each field alone. -/
theorem formatR_and (op : BitVec 8) (f1 f2 f3 f4 f5 m1 m2 m3 m4 m5 : BitVec 4) :
    formatR op f1 f2 f3 f4 f5 &&& (0xFF#8 ++ m1 ++ m2 ++ m3 ++ m4 ++ m5 ++ 0xF#4) =
      formatR op (f1 &&& m1) (f2 &&& m2) (f3 &&& m3) (f4 &&& m4) (f5 &&& m5) := by
  have h : (op ++ f1 ++ f2 ++ f3 ++ f4 ++ f5 ++ 0#4) &&& (0xFF#8 ++ m1 ++ m2 ++ m3 ++ m4 ++ m5 ++ 0xF#4) =
      op ++ (f1 &&& m1) ++ (f2 &&& m2) ++ (f3 &&& m3) ++ (f4 &&& m4) ++ (f5 &&& m5) ++ 0#4 := by
    simp only [BitVec.and_append]
    rw [show op &&& 0xFF#8 = op from BitVec.and_allOnes, show 0#4 &&& 0xF#4 = 0#4 from rfl]
  exact h

theorem maskR0 (op : BitVec 8) : formatR op 0 0 0 0 0 &&& 0xFFFFFFFF = formatR op 0 0 0 0 0 :=
  formatR_and op 0 0 0 0 0 0xF 0xF 0xF 0xF 0xF

theorem maskR2 (op : BitVec 8) (f1 f2 : BitVec 4) :
    formatR op f1 f2 0 0 0 &&& 0xFF00FFFF = formatR op 0 0 0 0 0 := by
  have h := formatR_and op f1 f2 0 0 0 0#4 0#4 0xF 0xF 0xF
  rw [BitVec.and_zero, BitVec.and_zero] at h
  exact h

theorem maskR3 (op : BitVec 8) (f1 f2 f3 : BitVec 4) :
    formatR op f1 f2 f3 0 0 &&& 0xFF000FFF = formatR op 0 0 0 0 0 := by
  have h := formatR_and op f1 f2 f3 0 0 0#4 0#4 0#4 0xF 0xF
  rw [BitVec.and_zero, BitVec.and_zero, BitVec.and_zero] at h
  exact h

theorem maskR4 (op : BitVec 8) (f1 f2 f3 f4 : BitVec 4) :
    formatR op f1 f2 f3 f4 0 &&& 0xFF0000FF = formatR op 0 0 0 0 0 := by
  have h := formatR_and op f1 f2 f3 f4 0 0#4 0#4 0#4 0#4 0xF
  rw [BitVec.and_zero, BitVec.and_zero, BitVec.and_zero, BitVec.and_zero] at h
  exact h

theorem maskR5 (op : BitVec 8) (f1 f2 f3 f4 f5 : BitVec 4) :
    formatR op f1 f2 f3 f4 f5 &&& 0xFF00000F = formatR op 0 0 0 0 0 := by
  have h := formatR_and op f1 f2 f3 f4 f5 0#4 0#4 0#4 0#4 0#4
  rw [BitVec.and_zero, BitVec.and_zero, BitVec.and_zero, BitVec.and_zero, BitVec.and_zero] at h
  exact h

theorem maskSetbit (op : BitVec 8) (f1 f2 : BitVec 4) (v : Bool) :
    formatR op f1 f2 (if v then 1 else 0) 0 0 &&& 0xFF00EFFF = formatR op 0 0 0 0 0 := by
  have h := formatR_and op f1 f2 (if v then 1 else 0) 0 0 0#4 0#4 0xE 0xF 0xF
  rw [BitVec.and_zero, BitVec.and_zero] at h
  cases v <;> exact h

theorem maskI (op : BitVec 8) (f1 : BitVec 4) (imm : BitVec 16) :
    formatI op f1 imm &&& 0xFF0F0000 = formatR op 0 0 0 0 0 := by
  have h : (op ++ f1 ++ 0#4 ++ imm) &&& (0xFF#8 ++ 0#4 ++ 0xF#4 ++ 0#16) = op ++ 0#4 ++ 0#4 ++ 0#16 := by
    simp only [BitVec.and_append]
    rw [show op &&& 0xFF#8 = op from BitVec.and_allOnes, BitVec.and_zero, BitVec.and_zero]
    rfl
  have e : op ++ 0#4 ++ 0#4 ++ 0#16 = formatR op 0 0 0 0 0 := by
    unfold formatR
    rw [show (0#16 : BitVec 16) = 0#4 ++ 0#4 ++ 0#4 ++ 0#4 from rfl]
    clear h; revert op; decide
  exact h.trans e

theorem nop : Statement (.nop) :=
  ⟨opcodeMap[0]'(by decide), List.getElem_mem _, (opField_formatR _ _ _ _ _ _).symm, maskR0 _⟩

theorem halt : Statement (.halt) :=
  ⟨opcodeMap[1]'(by decide), List.getElem_mem _, (opField_formatR _ _ _ _ _ _).symm, maskR0 _⟩

theorem li (d : SReg) (imm : BitVec 16) : Statement (.li d imm) :=
  ⟨opcodeMap[2]'(by decide), List.getElem_mem _, (opField_formatI _ _ _).symm, maskI _ _ _⟩

theorem lih (d : SReg) (imm : BitVec 16) : Statement (.lih d imm) :=
  ⟨opcodeMap[3]'(by decide), List.getElem_mem _, (opField_formatI _ _ _).symm, maskI _ _ _⟩

theorem mov (d a : Fin 16) : Statement (.mov d a) :=
  ⟨opcodeMap[4]'(by decide), List.getElem_mem _, (opField_formatR _ _ _ _ _ _).symm, maskR2 _ _ _⟩

theorem setu (d a : Fin 16) : Statement (.setu d a) :=
  ⟨opcodeMap[5]'(by decide), List.getElem_mem _, (opField_formatR _ _ _ _ _ _).symm, maskR2 _ _ _⟩

theorem bits (d a : Fin 16) : Statement (.bits d a) :=
  ⟨opcodeMap[6]'(by decide), List.getElem_mem _, (opField_formatR _ _ _ _ _ _).symm, maskR2 _ _ _⟩

theorem popc (d a : Fin 16) : Statement (.popc d a) :=
  ⟨opcodeMap[7]'(by decide), List.getElem_mem _, (opField_formatR _ _ _ _ _ _).symm, maskR2 _ _ _⟩

theorem bytes (d a : Fin 16) : Statement (.bytes d a) :=
  ⟨opcodeMap[8]'(by decide), List.getElem_mem _, (opField_formatR _ _ _ _ _ _).symm, maskR2 _ _ _⟩

theorem cmp (d a b : Fin 16) : Statement (.cmp d a b) :=
  ⟨opcodeMap[9]'(by decide), List.getElem_mem _, (opField_formatR _ _ _ _ _ _).symm, maskR3 _ _ _ _⟩

theorem add (d a b : Fin 16) : Statement (.add d a b) :=
  ⟨opcodeMap[10]'(by decide), List.getElem_mem _, (opField_formatR _ _ _ _ _ _).symm, maskR3 _ _ _ _⟩

theorem sub (d a b : Fin 16) : Statement (.sub d a b) :=
  ⟨opcodeMap[11]'(by decide), List.getElem_mem _, (opField_formatR _ _ _ _ _ _).symm, maskR3 _ _ _ _⟩

theorem mul (d a b : Fin 16) : Statement (.mul d a b) :=
  ⟨opcodeMap[12]'(by decide), List.getElem_mem _, (opField_formatR _ _ _ _ _ _).symm, maskR3 _ _ _ _⟩

theorem div (q a b : Fin 16) : Statement (.div q a b) :=
  ⟨opcodeMap[13]'(by decide), List.getElem_mem _, (opField_formatR _ _ _ _ _ _).symm, maskR3 _ _ _ _⟩

theorem mod (r a b : Fin 16) : Statement (.mod r a b) :=
  ⟨opcodeMap[14]'(by decide), List.getElem_mem _, (opField_formatR _ _ _ _ _ _).symm, maskR3 _ _ _ _⟩

theorem divmod (q r a b : Fin 16) : Statement (.divmod q r a b) :=
  ⟨opcodeMap[15]'(by decide), List.getElem_mem _, (opField_formatR _ _ _ _ _ _).symm, maskR4 _ _ _ _ _⟩

theorem pow (d a e : Fin 16) : Statement (.pow d a e) :=
  ⟨opcodeMap[16]'(by decide), List.getElem_mem _, (opField_formatR _ _ _ _ _ _).symm, maskR3 _ _ _ _⟩

theorem shl (d a c : Fin 16) : Statement (.shl d a c) :=
  ⟨opcodeMap[17]'(by decide), List.getElem_mem _, (opField_formatR _ _ _ _ _ _).symm, maskR3 _ _ _ _⟩

theorem shr (d a c : Fin 16) : Statement (.shr d a c) :=
  ⟨opcodeMap[18]'(by decide), List.getElem_mem _, (opField_formatR _ _ _ _ _ _).symm, maskR3 _ _ _ _⟩

theorem getbit (d a x : Fin 16) : Statement (.getbit d a x) :=
  ⟨opcodeMap[19]'(by decide), List.getElem_mem _, (opField_formatR _ _ _ _ _ _).symm, maskR3 _ _ _ _⟩

theorem setbit (d : BReg) (x : SReg) (v : Bool) : Statement (.setbit d x v) :=
  ⟨opcodeMap[20]'(by decide), List.getElem_mem _, (opField_formatR _ _ _ _ _ _).symm, maskSetbit _ _ _ _⟩

theorem flipbit (d x : Fin 16) : Statement (.flipbit d x) :=
  ⟨opcodeMap[21]'(by decide), List.getElem_mem _, (opField_formatR _ _ _ _ _ _).symm, maskR2 _ _ _⟩

theorem and (d a b : Fin 16) : Statement (.and d a b) :=
  ⟨opcodeMap[22]'(by decide), List.getElem_mem _, (opField_formatR _ _ _ _ _ _).symm, maskR3 _ _ _ _⟩

theorem or (d a b : Fin 16) : Statement (.or d a b) :=
  ⟨opcodeMap[23]'(by decide), List.getElem_mem _, (opField_formatR _ _ _ _ _ _).symm, maskR3 _ _ _ _⟩

theorem xor (d a b : Fin 16) : Statement (.xor d a b) :=
  ⟨opcodeMap[24]'(by decide), List.getElem_mem _, (opField_formatR _ _ _ _ _ _).symm, maskR3 _ _ _ _⟩

theorem fmt (l a b m p : Fin 16) : Statement (.fmt l a b m p) :=
  ⟨opcodeMap[25]'(by decide), List.getElem_mem _, (opField_formatR _ _ _ _ _ _).symm, maskR5 _ _ _ _ _ _⟩

theorem parse (d c b p n : Fin 16) : Statement (.parse d c b p n) :=
  ⟨opcodeMap[26]'(by decide), List.getElem_mem _, (opField_formatR _ _ _ _ _ _).symm, maskR5 _ _ _ _ _ _⟩

theorem wrbe (a p n : Fin 16) : Statement (.wrbe a p n) :=
  ⟨opcodeMap[27]'(by decide), List.getElem_mem _, (opField_formatR _ _ _ _ _ _).symm, maskR3 _ _ _ _⟩

theorem wrle (a p n : Fin 16) : Statement (.wrle a p n) :=
  ⟨opcodeMap[28]'(by decide), List.getElem_mem _, (opField_formatR _ _ _ _ _ _).symm, maskR3 _ _ _ _⟩

theorem rdbe (d p n : Fin 16) : Statement (.rdbe d p n) :=
  ⟨opcodeMap[29]'(by decide), List.getElem_mem _, (opField_formatR _ _ _ _ _ _).symm, maskR3 _ _ _ _⟩

theorem rdle (d p n : Fin 16) : Statement (.rdle d p n) :=
  ⟨opcodeMap[30]'(by decide), List.getElem_mem _, (opField_formatR _ _ _ _ _ _).symm, maskR3 _ _ _ _⟩

end Sys2Proof.Laws.MatchesRow
end

