-- ==== Sys2Proof/Laws/Units.lean ====
section
/-! SUPPORT. One lemma for each function that a meaning calls: bit length, power, the texts of `FMT` and `PARSE`,
byte strings, and the inversion lemma of the host actions. -/

namespace Sys2Proof.Machine

/-- `bits` of a trimmed sequence is the least `n` with value below `2^n` (41_word_buffer_query.md R113). -/
theorem val_lt_two_pow_iff_bits (w : Buf) (h : Trimmed w) (n : Nat) : val w < 2 ^ n ↔ bits w ≤ n := by
  rcases List.eq_nil_or_concat w with rfl | ⟨xs, t, rfl⟩
  · simp [bits]
  · rw [List.concat_eq_append] at h ⊢
    have ht : t ≠ 0 := by simpa [Trimmed] using h
    have ht' : t.toNat ≠ 0 := fun e => ht (BitVec.eq_of_toNat_eq (by simpa using e))
    have hb : bits (xs ++ [t]) = 32 * xs.length + (t.toNat.log2 + 1) := by
      simp [bits, topPosition]
      exact ht
    have hx := val_lt xs
    have h1 : 2 ^ t.toNat.log2 ≤ t.toNat := Nat.log2_self_le ht'
    have h2 : t.toNat + 1 ≤ 2 ^ (t.toNat.log2 + 1) := Nat.lt_log2_self
    rw [hb, val_append]
    simp only [val_cons, val_nil, mul_zero, add_zero]
    constructor
    · intro hv
      by_contra hn
      have h3 : 2 ^ n ≤ 2 ^ (32 * xs.length) * 2 ^ t.toNat.log2 := by
        rw [← Nat.pow_add]; exact Nat.pow_le_pow_right (by norm_num) (by omega)
      have h4 := Nat.mul_le_mul_left (2 ^ (32 * xs.length)) h1
      omega
    · intro hn
      have h3 : 2 ^ (32 * xs.length) * 2 ^ (t.toNat.log2 + 1) ≤ 2 ^ n := by
        rw [← Nat.pow_add]; exact Nat.pow_le_pow_right (by norm_num) hn
      have h4 := Nat.mul_le_mul_left (2 ^ (32 * xs.length)) h2
      rw [Nat.mul_add] at h4
      omega

/-- `power` is the power (42_arithmetic.md R142). -/
@[simp] theorem power_eq_pow (x n : Nat) : power x n = x ^ n := by
  unfold power
  split
  · simp [*]
  · split
    · interval_cases x <;> simp [*]
    · rfl

@[simp] theorem length_fmtText (L : Nat) (ds : List Nat) (h : ds.length ≤ L) : (fmtText L ds).length = L := by
  simp [fmtText]
  omega

/-- The scan stops inside its text (44_radix_conversion.md R210). -/
theorem scan_consumed_le (sep : Byte) (base : Nat) (t : List Byte) (v p : Nat) :
    (scan sep base t v p).2 ≤ p + t.length := by
  induction t generalizing v p with
  | nil => simp [scan]
  | cons c cs ih =>
    simp only [scan, List.length_cons]
    split
    · have := ih v (p + 1); omega
    · split
      next d _ => have := ih (v * base + d) (p + 1); omega
      next => omega

theorem parseBase_start_le (base : Nat) (t : List Byte) : (parseBase base t).2 ≤ t.length := by
  unfold parseBase detectBase
  split <;> try split <;> try split <;> try split
  all_goals simp

/-- `PARSE` consumes at most the text (44_radix_conversion.md R211). -/
theorem parseText_consumed_le (sep : Byte) (base : Nat) (t : List Byte) : (parseText sep base t).2 ≤ t.length := by
  have h1 := scan_consumed_le sep (parseBase base t).1 (t.drop (parseBase base t).2) 0 (parseBase base t).2
  have h2 := parseBase_start_le base t
  rw [List.length_drop] at h1
  unfold parseText
  omega

@[simp] theorem length_bytesLE (v n : Nat) : (bytesLE v n).length = n := by simp [bytesLE]

@[simp] theorem length_bytesBE (v n : Nat) : (bytesBE v n).length = n := by simp [bytesBE]

@[simp] theorem toNat_byteOf (v k : Nat) : (byteOf v k).toNat = v / 2 ^ (8 * k) % 256 := by
  simp [byteOf, Nat.shiftRight_eq_div_pow]

/-- A byte string in little-endian order as a sum of weights (45_byte_io.md R234). -/
theorem valLE_eq_sum (bs : List Byte) :
    valLE bs = ∑ j ∈ Finset.range bs.length, (bs.getD j 0).toNat * 2 ^ (8 * j) := by
  induction bs with
  | nil => simp [valLE]
  | cons b bs ih =>
    rw [valLE, ih, List.length_cons, Finset.sum_range_succ', Finset.mul_sum, add_comm]
    simp only [List.getD_cons_succ, List.getD_cons_zero, mul_zero, pow_zero, mul_one, add_left_inj]
    refine Finset.sum_congr rfl fun x _ => ?_
    rw [Nat.mul_add, Nat.pow_add]
    ring

/-- The range check of a byte-run operand as an inequality (20_memory.md R51). -/
theorem runOk_iff (s : State) (p n : SReg) : s.runOk p n = true ↔ s.natS p + s.natS n ≤ s.params.bmSize := by
  simp [State.runOk, State.inRange]

/-- `STATUS.RS` depends on `STATUS` alone (10_state.md R28). -/
theorem rs_eq_of_status_eq {s t : State} (h : t.status = s.status) : t.rs = s.rs := by
  unfold State.rs
  rw [h]

/-- A status read in a unit that does not run gives the register (60_exceptions.md R264). -/
theorem mayReadStatus_stopped (s : State) (r : StatusReg) (v : Word) (h : s.rs ≠ .run) :
    s.MayReadStatus r v ↔ v = s.readStatus r := by
  rw [State.MayReadStatus, if_neg h]

/-- A status read during a run gives the register at a boundary of the run so far (60_exceptions.md R264). -/
theorem mayReadStatus_running (s : State) (r : StatusReg) (v : Word) (h : s.rs = .run) :
    s.MayReadStatus r v ↔ ∃ j, j ≤ s.k ∧ v = s.statusAt j r := by
  rw [State.MayReadStatus, if_pos h]

/-- What a host action does (60_exceptions.md R264). -/
theorem hostAct_cases (s t : State) (a : HostAction) (h : s.hostAct a = some t) :
    (a = .reset ∧ t = s.assertReset) ∨ (∃ prog, a = .start prog ∧ t = s.start prog) ∨
      ∃ x v, a = .writeBM x v ∧ s.rs ≠ .run ∧ x < s.params.bmSize ∧ t = s.memWrite x [v] := by
  cases a with
  | reset => exact .inl ⟨rfl, by simpa [State.hostAct, eq_comm] using h⟩
  | start p => exact .inr (.inl ⟨p, rfl, by simpa [State.hostAct, eq_comm] using h⟩)
  | writeBM x v =>
    simp only [State.hostAct, State.hostWriteBM] at h
    split at h
    next hc => exact .inr (.inr ⟨x, v, rfl, by simpa [State.notRunning] using hc.1, hc.2, by simpa [eq_comm] using h⟩)
    next => cases h

end Sys2Proof.Machine
end

