-- ==== Sys2Proof/Tests/Slice0.lean ====
section
/-! SUPPORT. Tests of the model. Expected words come from the encodings of spec/30_encoding.md, expected results from
the vectors of spec/95_test_vectors.md (the section is named at each group). Then a witness for the hypotheses of
every obligation that has some, at the boundary values of its clauses. -/

namespace Sys2Proof.Tests

open Sys2Proof.Machine

/-! ### WellFormed, encoding (30_encoding.md R71, R72, R75, R76) -/

theorem test_wellFormed_refuses_equal_divmod_destinations :
    (Instr.divmod 2 2 0 1).wellFormed = false ∧ (Instr.divmod 2 3 0 1).wellFormed = true := by decide

theorem test_decode_control_and_query :
    decode 0x00000000 = .ok .nop ∧ decode 0x01000000 = .ok .halt ∧ decode 0x02A01234 = .ok (.li 10 0x1234) ∧
    decode 0x03B0FFFE = .ok (.lih 11 0xFFFE) ∧ decode 0x041F0000 = .ok (.mov 1 15) ∧
    decode 0x05E20000 = .ok (.setu 14 2) ∧ decode 0x10340000 = .ok (.bits 3 4) ∧
    decode 0x11560000 = .ok (.popc 5 6) ∧ decode 0x12780000 = .ok (.bytes 7 8) ∧
    decode 0x139AB000 = .ok (.cmp 9 10 11) := by decide

theorem test_decode_arithmetic :
    decode 0x20123000 = .ok (.add 1 2 3) ∧ decode 0x21456000 = .ok (.sub 4 5 6) ∧
    decode 0x22789000 = .ok (.mul 7 8 9) ∧ decode 0x23ABC000 = .ok (.div 10 11 12) ∧
    decode 0x24DEF000 = .ok (.mod 13 14 15) ∧ decode 0x25123400 = .ok (.divmod 1 2 3 4) ∧
    decode 0x26567000 = .ok (.pow 5 6 7) := by decide

theorem test_decode_bit_operations :
    decode 0x30123000 = .ok (.shl 1 2 3) ∧ decode 0x31456000 = .ok (.shr 4 5 6) ∧
    decode 0x32789000 = .ok (.getbit 7 8 9) ∧ decode 0x33AB0000 = .ok (.setbit 10 11 false) ∧
    decode 0x33AB1000 = .ok (.setbit 10 11 true) ∧ decode 0x34CD0000 = .ok (.flipbit 12 13) ∧
    decode 0x35123000 = .ok (.and 1 2 3) ∧ decode 0x36456000 = .ok (.or 4 5 6) ∧
    decode 0x37789000 = .ok (.xor 7 8 9) := by decide

theorem test_decode_radix_and_bytes :
    decode 0x40123450 = .ok (.fmt 1 2 3 4 5) ∧ decode 0x41678900 = .ok (.parse 6 7 8 9 0) ∧
    decode 0x50123000 = .ok (.wrbe 1 2 3) ∧ decode 0x51456000 = .ok (.wrle 4 5 6) ∧
    decode 0x52789000 = .ok (.rdbe 7 8 9) ∧ decode 0x53ABC000 = .ok (.rdle 10 11 12) := by decide

/-- The illegal words of 95_test_vectors.md section 2.8, by their reason. -/
theorem test_decode_refuses_illegal_words :
    ([0x06000000, 0xFF000000, 0x27201000, 0x54001000].map decode).all (· == .error .unassignedOpcode) ∧
    ([0x00000001, 0x00100000, 0x01000100, 0x02310005, 0x03310005, 0x04211000, 0x20201001, 0x20201100, 0x10100010,
      0x34001000, 0x33003000, 0x3300F000, 0x40300121, 0x41030128].map decode).all (· == .error .nonzeroUnusedBit) ∧
    ([0x25000100, 0x25FF0100].map decode).all (· == .error .equalDivmodDestinations) := by decide

theorem test_encode_inverts_the_spec_words :
    [encode (.add 2 0 1), encode (.li 3 0x1234), encode (.divmod 2 3 0 1), encode (.setbit 4 1 true),
      encode (.fmt 5 2 0 1 2), encode (.cmp 0 1 0), encode (.rdle 1 0 1)] =
    [0x20201000, 0x02301234, 0x25230100, 0x33411000, 0x40520120, 0x13010000, 0x53101000] := by decide

/-- 30_encoding.md R82, R83: lines of assembler text and what they stand for. -/
theorem test_assembler :
    assembleLine "ADD B2, B0, B1".toList = some [.add 2 0 1] ∧
    assembleLine "LI S3, 0x1234 ; load".toList = some [.li 3 0x1234] ∧
    assembleLine "CLR B4".toList = some [.xor 4 4 4] ∧
    assembleLine "LI32 S1, 0xdeadbeef".toList = some [.li 1 0xDEAD, .lih 1 0xBEEF] ∧
    assembleLine "DIVMOD B2, B2, B0, B1".toList = none ∧
    assembleLine ("LI S0, ".toList ++ [Char.ofNat 0x130]) = none ∧
    assembleLine "LI S0, 1_000".toList = none ∧
    asmText (.setbit 4 1 true) = "SETBIT B4, S1, 1".toList := by decide

/-! ### One step each (95_test_vectors.md section 2) -/

/-- A running unit about to execute the command word `c`, with `CC = 5` as in the vectors: `CAP = cap`,
`BM_SIZE = 64`, the listed registers, and the bytes `bs` of BM at address `a`. -/
def testUnit (cap : Nat) (c : Word) (b : List (BReg × Buf)) (r : List (SReg × Scalar)) (a : Nat) (bs : List Byte) :
    State :=
  let s0 : State :=
    { State.reset with
      status := 1, cc := 5, k := 5, prog := [0, 0, 0, 0, 0, c], bm := Memory.writeRun [] a bs,
      params := { cap := cap, bmSize := 64, sep := 0x27 } }
  let s1 := b.foldl (fun s p => s.writeB p.1 p.2) s0
  r.foldl (fun s p => s.writeS p.1 p.2) s1

/-- The step completes, and the state after it meets `p`. -/
def runsTo (s : State) (p : State → Bool) : Bool :=
  match step s with
  | .next t => t.cc == 6 && t.k == 6 && t.status == 1 && p t
  | .fault _ => false
  | .refused _ => false

/-- The step raises the fault with the cause code `code`, and changes nothing but the four status registers. -/
def faultsWith (s : State) (code : Word) (c : Word) : Bool :=
  match step s with
  | .next t => decide (t = { s with status := 3, cause := code, ecc := 5, ecmd := c })
  | .fault _ => false
  | .refused _ => false

/-- The words of `0x123456789abcdef0` (95_test_vectors.md section 1.4). -/
def demo : Buf := [0x9ABCDEF0, 0x12345678]

theorem test_nop : runsTo (testUnit 8 0x00000000 [(1, demo)] [(1, 7)] 0 []) (fun t => t.readB 1 == demo) = true := by
  decide

theorem test_halt :
    (match step (testUnit 8 0x01000000 [(1, demo)] [] 0 []) with
      | .next t => decide (t = { testUnit 8 0x01000000 [(1, demo)] [] 0 [] with status := 2 })
      | .fault _ => false
      | .refused _ => false) = true := by decide

theorem test_li :
    runsTo (testUnit 8 0x0230FFFF [] [(3, 0x1111222233334444)] 0 []) (fun t => t.readS 3 == 0xFFFF) = true := by
  decide

theorem test_lih :
    runsTo (testUnit 8 0x0330ABCD [] [(3, 0x1111222233334444)] 0 []) (fun t => t.readS 3 == 0x222233334444ABCD) =
      true := by decide

theorem test_mov : runsTo (testUnit 8 0x04210000 [(2, [7])] [] 0 []) (fun t => t.readB 2 == []) = true := by
  decide

theorem test_setu :
    runsTo (testUnit 8 0x05000000 [] [(0, 0x100000000)] 0 []) (fun t => t.readB 0 == [0, 1]) = true := by
  decide

theorem test_bits : runsTo (testUnit 8 0x10100000 [(0, demo)] [] 0 []) (fun t => t.readS 1 == 0x3D) = true := by
  decide

theorem test_popc : runsTo (testUnit 8 0x11100000 [(0, demo)] [] 0 []) (fun t => t.readS 1 == 0x20) = true := by
  decide

theorem test_bytes : runsTo (testUnit 8 0x12100000 [(0, [0, 1])] [] 0 []) (fun t => t.readS 1 == 5) = true := by
  decide

theorem test_cmp_length :
    runsTo (testUnit 8 0x13010000 [(0, [0, 1]), (1, [0xFFFFFFFF])] [] 0 [])
      (fun t => t.readS 0 == 0xFFFFFFFFFFFFFFFF) = true := by decide

theorem test_cmp_word :
    runsTo (testUnit 8 0x13001000 [(0, [1, 2]), (1, [2, 1])] [] 0 []) (fun t => t.readS 0 == 1) = true := by
  decide

theorem test_add_carry :
    runsTo (testUnit 8 0x20201000 [(0, [0xFFFFFFFF, 0xFFFFFFFF]), (1, [1])] [] 0 [])
      (fun t => t.readB 2 == [0, 0, 1]) = true := by decide

theorem test_add_overflow :
    faultsWith (testUnit 2 0x20201000 [(0, [0xFFFFFFFF, 0xFFFFFFFF]), (1, [1])] [] 0 []) 6 0x20201000 = true := by
  decide

theorem test_sub_borrow :
    runsTo (testUnit 8 0x21201000 [(0, [0, 0, 1]), (1, [1])] [] 0 [])
      (fun t => t.readB 2 == [0xFFFFFFFF, 0xFFFFFFFF]) = true := by decide

theorem test_sub_underflow :
    faultsWith (testUnit 8 0x21201000 [(0, [0xFFFFFFFF]), (1, [0, 1])] [] 0 []) 4 0x21201000 = true := by
  decide

theorem test_mul :
    runsTo (testUnit 4 0x22201000 [(0, [0xFFFFFFFF, 0xFFFFFFFF]), (1, [0xFFFFFFFF, 0xFFFFFFFF])] [] 0 [])
      (fun t => t.readB 2 == [1, 0, 0xFFFFFFFE, 0xFFFFFFFF]) = true := by decide

theorem test_mul_overflow :
    faultsWith (testUnit 2 0x22201000 [(0, [0, 1]), (1, [0, 1])] [] 0 []) 6 0x22201000 = true := by decide

theorem test_div :
    runsTo (testUnit 8 0x23201000 [(0, [0, 0, 1]), (1, [0xFFFFFFFF])] [] 0 []) (fun t => t.readB 2 == [1, 1]) =
      true := by decide

theorem test_div_zero : faultsWith (testUnit 8 0x23201000 [(0, [5])] [] 0 []) 2 0x23201000 = true := by decide

theorem test_mod :
    runsTo (testUnit 8 0x24201000 [(0, [0, 0, 1]), (1, [0xFFFFFFFF])] [] 0 []) (fun t => t.readB 2 == [1]) = true := by
  decide

theorem test_mod_zero : faultsWith (testUnit 8 0x24201000 [(2, [9])] [] 0 []) 2 0x24201000 = true := by decide

/-- The 45-digit division of 95_test_vectors.md section 1.2. -/
theorem test_divmod :
    runsTo
      (testUnit 8 0x25230100
        [(0, [0x84045F15, 0x83F150B6, 0xFEFABB26, 0xE53D139A, 0x00058936]), (1, [0x3ADE68B1])] [] 0 [])
      (fun t => t.readB 2 == [0xCFE811E9, 0x61ACBB02, 0xCC3250CC, 0x001812F9] && t.readB 3 == [0x2B3B54FC]) =
        true := by decide

theorem test_divmod_over_its_sources :
    runsTo (testUnit 8 0x25010100 [(0, [100]), (1, [7])] [] 0 [])
      (fun t => t.readB 0 == [14] && t.readB 1 == [2]) = true := by decide

theorem test_pow :
    runsTo (testUnit 8 0x26201000 [(0, [3]), (1, [41])] [] 0 [])
      (fun t => t.readB 2 == [0x7B5FB863, 0xFA2A1CF6, 1]) = true := by decide

theorem test_pow_huge_exponent :
    faultsWith (testUnit 8 0x26201000 [(0, [2]), (1, [0, 0, 0x40])] [] 0 []) 6 0x26201000 = true ∧
    runsTo (testUnit 8 0x26201000 [(0, []), (1, [0, 0, 0x40])] [] 0 []) (fun t => t.readB 2 == []) = true := by
  decide

theorem test_shl :
    runsTo (testUnit 8 0x30100000 [(0, [0x80000001])] [(0, 0x21)] 0 []) (fun t => t.readB 1 == [0, 2, 1]) = true := by
  decide

theorem test_shl_overflow :
    faultsWith (testUnit 8 0x30100000 [(0, [1])] [(0, 0xFFFFFFFFFFFFFFFF)] 0 []) 6 0x30100000 = true ∧
    runsTo (testUnit 8 0x30100000 [(1, [9])] [(0, 0xFFFFFFFFFFFFFFFF)] 0 []) (fun t => t.readB 1 == []) = true := by
  decide

theorem test_shr :
    runsTo (testUnit 8 0x31100000 [(0, [1, 0, 1])] [(0, 1)] 0 []) (fun t => t.readB 1 == [0, 0x80000000]) = true := by
  decide

theorem test_getbit :
    runsTo (testUnit 8 0x32001000 [(0, demo)] [(1, 0x3C)] 0 []) (fun t => t.readS 0 == 1) = true := by decide

theorem test_getbit_beyond :
    runsTo (testUnit 8 0x32001000 [(0, demo)] [(1, 0xFFFFFFFFFFFFFFFF), (0, 9)] 0 []) (fun t => t.readS 0 == 0) =
      true := by decide

theorem test_setbit_grows :
    runsTo (testUnit 8 0x33001000 [] [(0, 0x40)] 0 []) (fun t => t.readB 0 == [0, 0, 1]) = true := by decide

theorem test_setbit_clears_and_trims :
    runsTo (testUnit 8 0x33000000 [(0, [5, 0, 1])] [(0, 0x40)] 0 []) (fun t => t.readB 0 == [5]) = true ∧
    faultsWith (testUnit 2 0x33001000 [(0, [5])] [(0, 0x40)] 0 []) 6 0x33001000 = true := by decide

theorem test_flipbit :
    runsTo (testUnit 8 0x34000000 [(0, [0, 1])] [(0, 0x20)] 0 []) (fun t => t.readB 0 == []) = true := by
  decide

theorem test_flipbit_overflow :
    faultsWith (testUnit 2 0x34000000 [(0, [5])] [(0, 0x40)] 0 []) 6 0x34000000 = true := by decide

theorem test_and :
    runsTo (testUnit 8 0x35201000 [(0, demo), (1, [0xFF])] [] 0 []) (fun t => t.readB 2 == [0xF0]) = true := by
  decide

theorem test_or :
    runsTo (testUnit 8 0x36201000 [(0, [0xFFFF0000, 0xFFFF, 1]), (1, [0xFFFF, 0xFFFF0000])] [] 0 [])
      (fun t => t.readB 2 == [0xFFFFFFFF, 0xFFFFFFFF, 1]) = true := by decide

theorem test_xor :
    runsTo (testUnit 8 0x37201000 [(0, [0x12345678, 0xDEADBEEF]), (1, [0xFFFFFFFF, 0xDEADBEEF])] [] 0 [])
      (fun t => t.readB 2 == [0xEDCBA987]) = true := by decide

theorem test_fmt :
    runsTo (testUnit 8 0x40300120 [(0, [255])] [(0, 16), (1, 4)] 0 [])
      (fun t => t.readS 3 == 4 && t.memRead 0 4 == [0x30, 0x30, 0x66, 0x66]) = true := by decide

theorem test_fmt_faults :
    faultsWith (testUnit 8 0x40300120 [(0, [5])] [(0, 99), (1, 1), (2, 1000)] 0 []) 3 0x40300120 = true ∧
    faultsWith (testUnit 8 0x40300120 [] [(0, 10), (1, 0), (2, 65)] 0 []) 5 0x40300120 = true := by decide

/-- The text `0x1F'ffzz` under auto-detection. -/
theorem test_parse :
    runsTo
      (testUnit 8 0x41030120 [(0, [0x99])] [(3, 0x99), (0, 0), (2, 9)] 0
        [0x30, 0x78, 0x31, 0x46, 0x27, 0x66, 0x66, 0x7A, 0x7A])
      (fun t => t.readB 0 == [0x1FFF] && t.readS 3 == 7) = true := by decide

/-- The text `0b` in base 2, and a range that ends past BM. -/
theorem test_parse_prefix_and_range :
    runsTo (testUnit 8 0x41030120 [(0, [0x99])] [(3, 0x99), (0, 2), (2, 2)] 0 [0x30, 0x62])
      (fun t => t.readB 0 == [] && t.readS 3 == 1) = true ∧
    faultsWith (testUnit 8 0x41030120 [] [(0, 10), (1, 62), (2, 3)] 0 [0x31]) 5 0x41030120 = true := by decide

theorem test_wrbe :
    runsTo (testUnit 8 0x50001000 [(0, [0x02030405, 1])] [(0, 0x10), (1, 8)] 16 [0xEE, 0xEE])
      (fun t => t.memRead 16 8 == [0, 0, 0, 1, 2, 3, 4, 5]) = true := by decide

theorem test_wrle :
    runsTo (testUnit 8 0x51001000 [(0, [0x02030405, 1])] [(0, 0x10), (1, 3)] 16 [0xEE, 0xEE, 0xEE, 0xEE])
      (fun t => t.memRead 16 4 == [5, 4, 3, 0xEE]) = true := by decide

theorem test_rdbe :
    runsTo (testUnit 8 0x52101000 [] [(0, 0x13), (1, 5)] 16 [0, 0, 0, 1, 2, 3, 4, 5])
      (fun t => t.readB 1 == [0x02030405, 1]) = true := by decide

theorem test_rdbe_overflow :
    faultsWith (testUnit 2 0x52101000 [] [(0, 0x10), (1, 9)] 16 [1, 0, 0, 0, 0, 0, 0, 0, 0]) 6 0x52101000 = true := by
  decide

theorem test_rdle :
    runsTo (testUnit 8 0x53101000 [] [(0, 0x10), (1, 8)] 16 [0, 0, 0, 1, 2, 3, 4, 5])
      (fun t => t.readB 1 == [0x01000000, 0x05040302]) = true := by decide

theorem test_illegal_words_fault :
    faultsWith (testUnit 8 0x25220100 [(0, [100]), (1, [7])] [] 0 []) 1 0x25220100 = true ∧
    faultsWith (testUnit 8 0x33002000 [(0, [5])] [(0, 1)] 0 []) 1 0x33002000 = true := by decide

/-- A command placed by `withFetchWord` at reset stands there as after the host's `start`, and the next step runs
it. -/
theorem test_fetch_word_runs_first :
    State.reset.withFetchWord 32 0x02301234 = State.reset.start [0x02301234] ∧
    (match step (State.reset.withFetchWord 32 0x02301234) with
      | .next t => t.readS 3 == 0x1234 && t.k == 1
      | .fault _ => false
      | .refused _ => false) = true ∧
    decodeTableWord 32 0x02301234 = some (.li 3 0x1234) := by decide

/-! ### Witnesses: states and operands that meet the hypotheses of the obligations, at the boundary values -/

/-- The command completes when its counter advances. -/
theorem completes (i : Instr) (s : State) (hi : i ≠ .halt)
    (h : (match exec i s with | .next t => t.cc != s.cc | .fault _ => false | .refused _ => false) = true) :
    ∃ t, exec i s = .next t ∧ Completed s t := by
  rcases exec_faults_or_completes i s hi with ⟨f, -, e⟩ | h'
  · rw [e] at h; simp at h
  · exact h'

/-- `CAP = 2`, `BM_SIZE = 64`; `B0 = 2^64 − 1`, `B1 = 1`, `B2 = 2^32`, `B3 = 2`, `B4 = 0`, `B5 = 63`, `B6 = 64`,
`B7 = 2^32 − 1`; `S0 = 0`, `S1 = 63`, `S2 = 64`, `S3 = 1`, `S4 = 2`, `S5 = 36`, `S6 = 37`, `S7 = 65`, `S8 = 9`,
`S9 = 20`; at address 0 of BM a 1 with eight zero bytes, at address 20 a zero with eight bytes `FF`, at address 40 the
text `12'3`. -/
def edge : State :=
  testUnit 2 0x20201000
    [(0, [0xFFFFFFFF, 0xFFFFFFFF]), (1, [1]), (2, [0, 1]), (3, [2]), (5, [63]), (6, [64]), (7, [0xFFFFFFFF])]
    [(1, 63), (2, 64), (3, 1), (4, 2), (5, 36), (6, 37), (7, 65), (8, 9), (9, 20), (10, 40), (11, 4)] 0
    ([1, 0, 0, 0, 0, 0, 0, 0, 0] ++ List.replicate 11 0 ++ [0, 255, 255, 255, 255, 255, 255, 255, 255] ++
      List.replicate 11 0 ++ [0x31, 0x32, 0x27, 0x33])

theorem inv_edge : Inv edge where
  params := by decide
  trimmed := by decide
  fits := by decide
  bmWf := by decide
  bmInside := by decide
  index := by decide
  counter := by decide
  statusReserved := by decide
  haltedAtHalt := fun h => absurd h (by decide)
  faultCause := fun h => absurd h (by decide)
  faultRecord := fun h => absurd h (by decide)
  noRecord := fun _ => ⟨rfl, rfl, rfl⟩

theorem realisable_edge : edge.params.Realisable := by decide

/-- `CmpGivesTheThreeValuedOrder`: less, equal, greater. -/
theorem witness_cmp :
    Trimmed (edge.readB 7) ∧ Trimmed (edge.readB 2) ∧ edge.valB 7 < edge.valB 2 ∧ ¬ edge.valB 2 < edge.valB 7 ∧
    edge.valB 2 ≠ edge.valB 7 ∧ edge.valB 4 = edge.valB 8 := by decide

/-- `AddAndMulWriteTheResultOrOverflow`: `2^64 − 1 + 0` fits, `2^64 − 1 + 1` does not; `(2^32 − 1)·2^32` fits,
`2^32·2^32` does not. -/
theorem witness_add_mul :
    edge.valB 0 + edge.valB 4 < 2 ^ (32 * edge.params.cap) ∧ 2 ^ (32 * edge.params.cap) ≤ edge.valB 0 + edge.valB 1 ∧
    edge.valB 7 * edge.valB 2 < 2 ^ (32 * edge.params.cap) ∧ 2 ^ (32 * edge.params.cap) ≤ edge.valB 2 * edge.valB 2 := by
  decide

/-- `SubWritesTheDifferenceOrUnderflows`: equal operands, and operands that differ by one. -/
theorem witness_sub :
    Trimmed (edge.readB 2) ∧ Trimmed (edge.readB 7) ∧ edge.valB 2 ≤ edge.valB 2 ∧ edge.valB 7 < edge.valB 2 := by
  decide

/-- `DivAndModFollowTheContract` and `DivmodWritesBothResults`: a non-zero and a zero divisor. -/
theorem witness_div :
    Trimmed (edge.readB 1) ∧ edge.valB 1 ≠ 0 ∧ Trimmed (edge.readB 4) ∧ edge.valB 4 = 0 ∧ (2 : BReg) ≠ 3 := by decide

/-- `PowWritesThePowerOrOverflows`: `2^63` fits, `2^64` does not, `0^0 = 1`. -/
theorem witness_pow :
    edge.valB 3 ^ edge.valB 5 < 2 ^ (32 * edge.params.cap) ∧
    2 ^ (32 * edge.params.cap) ≤ edge.valB 3 ^ edge.valB 6 ∧ edge.valB 4 ^ edge.valB 4 = 1 := by decide

/-- `ShlWritesTheShiftedValueOrOverflows`: zero; `1·2^63` fits exactly, `1·2^64` does not. -/
theorem witness_shl :
    Trimmed (edge.readB 4) ∧ edge.valB 4 = 0 ∧ Trimmed (edge.readB 1) ∧ edge.valB 1 ≠ 0 ∧
    bits (edge.readB 1) + edge.natS 1 ≤ 32 * edge.params.cap ∧
    32 * edge.params.cap < bits (edge.readB 1) + edge.natS 2 := by decide

/-- `ShrWritesTheFloor` and `GetbitReadsOneBit`: the whole value shifted out; the first index past the buffer. -/
theorem witness_shr_getbit :
    edge.valB 0 < 2 ^ edge.natS 2 ∧ 32 * (edge.readB 0).length ≤ edge.natS 2 := by decide

/-- `SetbitAndFlipbitWriteOneBit`: bit 63 is the last that fits two words, bit 64 the first that does not. -/
theorem witness_setbit_flipbit :
    edge.natS 1 / 32 + 1 ≤ edge.params.cap ∧ edge.params.cap < edge.natS 2 / 32 + 1 ∧
    (edge.valB 0).testBit (edge.natS 1) = true ∧ (edge.valB 0).testBit (edge.natS 2) = false := by decide

/-- `FmtWritesTheNumeral`: bases 1, 37, 2 and 36; a text that ends with the last byte of BM, and one a byte longer. -/
theorem witness_fmt :
    edge.natS 3 < 2 ∧ 36 < edge.natS 6 ∧ (2 ≤ edge.natS 4 ∧ edge.natS 4 ≤ 36) ∧
    (2 ≤ edge.natS 5 ∧ edge.natS 5 ≤ 36) ∧
    edge.natS 0 + max (digits (edge.valB 0) (edge.natS 4)).length (edge.natS 2) ≤ edge.params.bmSize ∧
    edge.params.bmSize < edge.natS 0 + max (digits (edge.valB 0) (edge.natS 4)).length (edge.natS 7) ∧
    edge.params.Valid := by decide

/-- `ParseReadsANumeral`: bases 1, 37, 0 and 36; an empty run at the end of BM, and a run that starts past it; the
text `12'3` with a value that fits. -/
theorem witness_parse :
    edge.natS 3 = 1 ∧ 36 < edge.natS 6 ∧ (edge.natS 0 ≠ 1 ∧ edge.natS 0 ≤ 36) ∧
    (edge.natS 5 ≠ 1 ∧ edge.natS 5 ≤ 36) ∧ edge.params.bmSize < edge.natS 7 + edge.natS 0 ∧
    edge.natS 2 + edge.natS 0 ≤ edge.params.bmSize ∧
    parseText edge.params.sep (edge.natS 0) (edge.memRead (edge.natS 10) (edge.natS 11)) = (123, 4) ∧
    123 < 2 ^ (32 * edge.params.cap) := by decide

/-- `ParseReadsANumeral`: the text `g` sixteen times in base 17 with `CAP = 2` has a value that does not fit. -/
theorem witness_parse_overflow :
    2 ^ (32 * 2) ≤ (parseText 0x27 17 (List.replicate 16 0x67)).1 := by decide

/-- `ParseReadsANumeral`: each prefix, a text without one, and a text too short for one (44_radix_conversion.md R207,
95_test_vectors.md section 2.6). -/
theorem witness_prefixes :
    parseBase 0 [0x30, 0x62] = (2, 2) ∧ parseBase 0 [0x30, 0x42, 0x31] = (2, 2) ∧ parseBase 0 [0x30, 0x78] = (16, 2) ∧
    parseBase 0 [0x30, 0x58, 0x31] = (16, 2) ∧ parseBase 0 [0x30] = (10, 0) ∧ parseBase 0 [0x30, 0x27, 0x78] = (10, 0) ∧
    parseBase 16 [0x30, 0x78] = (16, 0) := by decide

/-- The ends of the three rows of 44_radix_conversion.md R200: what is written and what is read. -/
theorem test_characters :
    [0, 9, 10, 35].map digitChar = [0x30, 0x39, 0x61, 0x7A] ∧
    [0x30, 0x39, 0x61, 0x7A, 0x41, 0x5A].map digitValue = [some 0, some 9, some 10, some 35, some 10, some 35] ∧
    [0x2F, 0x3A, 0x40, 0x5B, 0x60, 0x7B].all (fun c => digitValue c == none) = true := by decide

/-- `WrbeAndWrleWriteExactlyNBytes`, `RdbeAndRdleReadNBytes`: all of BM, and one byte more. -/
theorem witness_byte_runs :
    edge.natS 0 + edge.natS 2 ≤ edge.params.bmSize ∧ edge.params.bmSize < edge.natS 0 + edge.natS 7 := by decide

/-- `RdbeAndRdleReadNBytes`: nine bytes with the values `2^64` and 1, and nine with `2^64 − 1` and `2^72 − 2^8`. -/
theorem witness_byte_values :
    valBE (edge.runBytes 0 8) = 2 ^ (32 * edge.params.cap) ∧ valLE (edge.runBytes 0 8) = 1 ∧
    valBE (edge.runBytes 9 8) = 2 ^ (32 * edge.params.cap) - 1 ∧ valLE (edge.runBytes 9 8) = 2 ^ 72 - 2 ^ 8 := by
  decide

/-- `IllegalWordsRaiseIllegalCmd`: an unused bit, `SETBIT` with 2, equal destinations, and an illegal word that a
running unit meets. -/
theorem witness_illegal :
    opField 0x20201001 = 0x20 ∧ (0x20201001 : Word) &&& 0xFF000FFF ≠ 0x20000000 ∧
    opField 0x33002000 = 0x33 ∧ 2 ≤ ((0x33002000 : Word).extractLsb' 12 4).toNat ∧
    opField 0x25220100 = 0x25 ∧ (0x25220100 : Word).extractLsb' 20 4 = (0x25220100 : Word).extractLsb' 16 4 ∧
    (testUnit 8 0x06000000 [] [] 0 []).rs = .run ∧
    (testUnit 8 0x06000000 [] [] 0 []).prog[(testUnit 8 0x06000000 [] [] 0 []).k]? = some 0x06000000 ∧
    decode 0x06000000 = .error .unassignedOpcode := by decide

/-- `StepRunsTheDecodedCommand`, `EncodeAndDecodeAreInverse`. -/
theorem witness_step :
    edge.rs = .run ∧ edge.prog[edge.k]? = some 0x20201000 ∧ decode 0x20201000 = .ok (.add 2 0 1) ∧
    (Instr.add 2 0 1).wellFormed = true := by decide

/-- A step that completes: `StepEndsAsTheRuleSays`, `CounterAdvancesByOne`, `StepKeepsTheInvariant`,
`StreamIsFixedDuringARun`, `CommandsKeepRegistersTrimmed`. -/
theorem witness_step_completes :
    ∃ s t, Inv s ∧ exec (.mul 8 7 2) s = .next t ∧ Completed s t :=
  ⟨edge, (completes (.mul 8 7 2) edge (by decide) (by decide)).elim fun t h => ⟨t, inv_edge, h⟩⟩

theorem exec_edge : exec (.add 2 0 1) edge = .next (edge.raise .capOverflow (encode (.add 2 0 1))) :=
  finishB_overflows (.add 2 0 1) 2 (edge.valB 0 + edge.valB 1) edge (by decide)

/-- A step that faults: `StepEndsAsTheRuleSays`, `CounterAdvancesByOne`, `OnlyTheListedFaultsAreRaised`,
`FaultsAreTakenWithoutEffect`, `StepKeepsTheInvariant`. -/
theorem witness_step_faults :
    ∃ t, Inv edge ∧ edge.rs = .run ∧ step edge = .next t ∧ exec (.add 2 0 1) edge = .next t ∧ t.rs = .fault := by
  refine ⟨edge.raise .capOverflow (encode (.add 2 0 1)), inv_edge, by decide, ?_, exec_edge, rfl⟩
  have hf := (fetch_eq_ok edge 0x20201000).2 ⟨by decide, by decide⟩
  have hd : decode 0x20201000 = .ok (.add 2 0 1) := by decide
  simp only [step, hf, hd, exec_edge]

/-- A step that halts: `CounterAdvancesByOne`, and a run that ends. -/
theorem witness_step_halts :
    (match step (testUnit 8 0x01000000 [] [] 0 []) with
      | .next t => t.rs == .halted && t.runEnd == some .final
      | .fault _ => false
      | .refused _ => false) = true := by decide

/-- `FaultPriorityOrder`: a bad base with a range that fails too; a range that fails with a text that would not fit. -/
theorem witness_priority :
    36 < edge.natS 6 ∧ edge.params.bmSize < edge.natS 2 + edge.natS 2 ∧ edge.natS 5 ≠ 1 ∧ edge.natS 5 ≤ 36 := by
  decide

/-- A state in `FAULT`, reachable from reset: an illegal word in a run of one command. -/
def faulted : State := (State.reset.start [0x06000000]).raise .illegalCmd 0x06000000

theorem reachable_faulted : Reachable faulted :=
  .step (.host (.reset Params.atReset [] (by decide) (by decide) (by decide)) (.start [0x06000000]) rfl) (by rfl)

/-- `FaultIsAbsorbing`, `ResetGivesTheResetValues`, `StartBeginsARun`, `EveryRunEnds`,
`EveryReachableStateMeetsTheInvariant`: a faulted state, a host action that leaves it faulted and one that does not. -/
theorem witness_faulted :
    faulted.rs = .fault ∧ faulted.hostAct (.writeBM 255 7) = some (faulted.memWrite 255 [7]) ∧
    faulted.hostAct .reset = some faulted.assertReset ∧ faulted.assertReset.rs ≠ .fault ∧
    faulted.runEnd = some .faulted := by decide

/-- `StartBeginsARun`, `HostActsOnlyAsTheTableAllows`, `EveryRunEnds`: each run state, the last byte of BM, a run
at the end of its stream. -/
theorem witness_run_states :
    State.reset.rs = .idle ∧ (State.reset.setRS .halted).rs = .halted ∧ edge.rs = .run ∧ faulted.rs = .fault ∧
    255 < State.reset.params.bmSize ∧ (State.reset.start []).runEnd = some .stuck := by decide

/-- `StatusReadsGiveABoundaryValue`: a run of two commands that has executed one and goes on; both boundary values of
`CC` may be read, and no other. -/
theorem witness_status_reads :
    ∃ t : State, Host.Core.run Sys2Proof.core 1 (State.reset.start [0, 0]) = .next t ∧ t.rs = .run ∧
      t.MayReadStatus .cc 0 ∧ t.MayReadStatus .cc 1 ∧ ¬ t.MayReadStatus .cc 2 := by
  refine ⟨(State.reset.start [0, 0]).complete, rfl, by decide, ?_, ?_, ?_⟩
  · exact (mayReadStatus_running _ _ _ (by decide)).2 ⟨0, by decide, rfl⟩
  · exact (mayReadStatus_running _ _ _ (by decide)).2 ⟨1, by decide, rfl⟩
  · rw [mayReadStatus_running _ _ _ (by decide)]
    decide

/-- `PowerUpMeetsTheInvariant`: the least `CAP` with the largest BM. -/
theorem witness_params :
    ({ cap := 2, bmSize := 2 ^ 32, sep := 0x5F } : Params).Valid ∧ Memory.wf [(0, 1), (2 ^ 32 - 1, 2)] := by decide

/-- `OnlySixCommandsReachBM`: a completed command of each kind. -/
theorem witness_bm_kinds :
    writesBM (.rdle 4 0 3) = false ∧ reachesBM (.add 4 1 3) = false ∧
    (∃ t, exec (.rdle 4 0 3) edge = .next t ∧ Completed edge t) ∧
    ∃ t, exec (.add 4 1 3) edge = .next t ∧ Completed edge t :=
  ⟨rfl, rfl, completes _ _ (by decide) (by decide), completes _ _ (by decide) (by decide)⟩

/-- `TrimRemovesHighZeroWords`, `CompareAgreesWithTheNumericOrder` and the obligations on the datapaths: trimmed
operands, a zero one, one that ends in zero words. -/
theorem witness_buffers :
    (∀ i, i < 2 → wd [0, 0] i = 0) ∧ Trimmed demo ∧ Trimmed ([] : Buf) ∧ ¬ Trimmed ([0, 0] : Buf) ∧
    demo ≠ [] ∧ val [1] ≤ val demo ∧ trim [5, 0, 0] = [5] := by decide

/-- `FormatterGivesTheNumeral`, `ScanConsumesUpToTheFirstInvalid`: both ends of the bases; a scan that stops at a
character that is no digit of the base, one that reaches the end, and both again from position 2 after a prefix. -/
theorem witness_texts :
    digits 35 36 = [35] ∧ digits 2 2 = [1, 0] ∧ scan 0x27 8 [0x37, 0x27, 0x38] 0 0 = (7, 2) ∧
    scan 0x27 10 [0x27, 0x39] 0 0 = (9, 2) ∧ scan 0x27 2 ([0x30, 0x62, 0x31, 0x32].drop 2) 0 2 = (1, 3) ∧
    scan 0x27 16 ([0x30, 0x78].drop 2) 0 2 = (0, 2) ∧ isAsciiAlnum 0x27 = false := by decide

/-- `FmtThenParseGivesTheValueBack`, `BytesReadBackAsWritten`, `AddThenSubAndDivisionLaws`, `ShiftBackLaws`: each
first command completes. -/
theorem witness_sequences :
    Inv edge ∧ (∃ t, exec (.fmt 12 0 4 2 0) edge = .next t ∧ Completed edge t) ∧
    (∃ t, exec (.wrbe 0 0 8) edge = .next t ∧ Completed edge t) ∧
    (∃ t, exec (.wrle 0 0 3) edge = .next t ∧ Completed edge t) ∧
    (∃ t, exec (.add 8 7 2) edge = .next t ∧ Completed edge t) ∧
    (∃ t, exec (.divmod 8 9 0 7) edge = .next t ∧ Completed edge t) ∧
    (∃ t, exec (.shl 8 1 1) edge = .next t ∧ Completed edge t) ∧
    ∃ t, exec (.shr 8 0 1) edge = .next t ∧ Completed edge t :=
  ⟨inv_edge, completes _ _ (by decide) (by decide), completes _ _ (by decide) (by decide),
    completes _ _ (by decide) (by decide), completes _ _ (by decide) (by decide),
    completes _ _ (by decide) (by decide), completes _ _ (by decide) (by decide),
    completes _ _ (by decide) (by decide)⟩

end Sys2Proof.Tests
end

section
/-! The encoder inverts the decoder: a word that decodes is the encoding of its command, row by row of the opcode map
(spec/30_encoding.md R74, R79). -/

namespace Sys2Proof

/-- A word is laid out in format R by its own fields when bits 3:0 are zero (30_encoding.md R71). -/
theorem formatR_fields (c : Word) (h : c.extractLsb' 0 4 = 0#4) :
    formatR (opField c) (c.extractLsb' 20 4) (c.extractLsb' 16 4) (c.extractLsb' 12 4) (c.extractLsb' 8 4)
      (c.extractLsb' 4 4) = c := by
  refine BitVec.eq_of_toNat_eq ?_
  have h0 := congrArg BitVec.toNat h
  have hc := c.isLt
  simp only [BitVec.extractLsb'_toNat, Nat.shiftRight_eq_div_pow, BitVec.toNat_ofNat] at h0
  simp only [toNat_formatR, opField, BitVec.extractLsb'_toNat, Nat.shiftRight_eq_div_pow]
  omega

/-- A word is laid out in format I by its own fields when bits 19:16 are zero (30_encoding.md R72). -/
theorem formatI_fields (c : Word) (h : c.extractLsb' 16 4 = 0#4) :
    formatI (opField c) (c.extractLsb' 20 4) (c.extractLsb' 0 16) = c := by
  refine BitVec.eq_of_toNat_eq ?_
  have h0 := congrArg BitVec.toNat h
  have hc := c.isLt
  simp only [BitVec.extractLsb'_toNat, Nat.shiftRight_eq_div_pow, BitVec.toNat_ofNat] at h0
  simp only [toNat_formatI, opField, BitVec.extractLsb'_toNat, Nat.shiftRight_eq_div_pow]
  omega

/-- A field of the match is the word's own field cut by the mask (30_encoding.md R74). -/
theorem extractLsb'_mask {c mask bits : Word} (h : c &&& mask = bits) (i n : Nat) :
    c.extractLsb' i n &&& mask.extractLsb' i n = bits.extractLsb' i n := by
  rw [← BitVec.extractLsb'_and, h]

/-- A field that the row fixes to zero is zero in every word of the row (30_encoding.md R74). -/
theorem field_eq_zero {c mask bits : Word} (h : c &&& mask = bits) (i : Nat)
    (hf : mask.extractLsb' i 4 = BitVec.allOnes 4) (hb : bits.extractLsb' i 4 = 0#4) : c.extractLsb' i 4 = 0#4 := by
  have h' := extractLsb'_mask h i 4
  rwa [hf, hb, BitVec.and_allOnes] at h'

/-- Every word of the row is the encoding of the command that its fields spell. -/
def Row.Inverts (r : Row) : Prop :=
  ∀ c : Word, opField c = r.op → c &&& r.mask = r.bits → encode (r.build (fieldsOf c)) = c

/-- The field at bit `i` of a word of the row: zero where the mask fixes it, else the register number. -/
def Row.fieldWord (r : Row) (i : Nat) (f : Fin 16) : BitVec 4 :=
  if r.mask.extractLsb' i 4 = BitVec.allOnes 4 then 0#4 else regField f

/-- A word of the row holds, at every four-bit position where the match is zero, what `fieldWord` says. -/
theorem Row.fieldWord_eq (r : Row) (c : Word) (i : Nat) (h : c &&& r.mask = r.bits)
    (hb : r.bits.extractLsb' i 4 = 0#4) : r.fieldWord i (regNum (c.extractLsb' i 4)) = c.extractLsb' i 4 := by
  rw [Row.fieldWord]
  split
  next hf => exact (field_eq_zero h i hf hb).symm
  next => exact regField_regNum _

/-- A row whose command is encoded in format R from the fields that the mask leaves free. -/
theorem Row.inverts_of_formatR (r : Row)
    (hb : ∀ i ∈ [0, 4, 8, 12, 16, 20], r.bits.extractLsb' i 4 = 0#4 := by decide)
    (hz : r.mask.extractLsb' 0 4 = BitVec.allOnes 4 := by decide)
    (he : ∀ f, encode (r.build f) = formatR r.op (r.fieldWord 20 f.f1) (r.fieldWord 16 f.f2) (r.fieldWord 12 f.f3)
      (r.fieldWord 8 f.f4) (r.fieldWord 4 f.f5) := by intro; rfl) : r.Inverts := by
  intro c hop hm
  have hf i (hi : i ∈ [0, 4, 8, 12, 16, 20]) := r.fieldWord_eq c i hm (hb i hi)
  have hc := formatR_fields c (field_eq_zero hm 0 hz (hb 0 (by decide)))
  rw [hop, ← hf 20 (by decide), ← hf 16 (by decide), ← hf 12 (by decide), ← hf 8 (by decide), ← hf 4 (by decide)] at hc
  exact (he _).trans hc

/-- A row whose command is encoded in format I (30_encoding.md R72). -/
theorem Row.inverts_of_formatI (r : Row) (hb : r.bits.extractLsb' 16 4 = 0#4 := by decide)
    (hz : r.mask.extractLsb' 16 4 = BitVec.allOnes 4 := by decide)
    (he : ∀ f, encode (r.build f) = formatI r.op (regField f.f1) f.imm16 := by intro; rfl) : r.Inverts := by
  intro c hop hm
  rw [he, ← hop]
  simpa [fieldsOf] using formatI_fields c (field_eq_zero hm 16 hz hb)

/-- The bit value of `SETBIT` is all of its field, which the mask holds to 0 or 1 (30_encoding.md R78). -/
theorem setbit_field (v : BitVec 4) (h : v &&& 0xE#4 = 0#4) : (if regNum v == 1 then 1 else 0) = v := by
  revert v; decide

theorem inverts_setbit :
    Row.Inverts ⟨0x33, 0xFF00EFFF, 0x33000000, fun f => .setbit f.f1 f.f2 (f.f3 == 1)⟩ := by
  intro c hop hm
  have h12 : (if regNum (c.extractLsb' 12 4) == 1 then 1 else 0) = c.extractLsb' 12 4 :=
    setbit_field _ (extractLsb'_mask hm 12 4)
  have hc := formatR_fields c (field_eq_zero hm 0 (by decide) (by decide))
  rw [hop, field_eq_zero hm 4 (by decide) (by decide), field_eq_zero hm 8 (by decide) (by decide), ← h12] at hc
  simpa [encode, fieldsOf] using hc

theorem opcodeMap_inverts : ∀ r ∈ opcodeMap, r.Inverts := by
  simp only [opcodeMap, rowsControlQuery, rowsArith, rowsBitOps, rowsRadixBytes, List.forall_mem_append,
    List.forall_mem_cons, List.not_mem_nil, false_implies, implies_true, and_true]
  refine ⟨⟨?_, ?_, Row.inverts_of_formatI _, Row.inverts_of_formatI _, ?_, ?_, ?_, ?_, ?_, ?_⟩,
    ⟨?_, ?_, ?_, ?_, ?_, ?_, ?_⟩, ⟨?_, ?_, ?_, inverts_setbit, ?_, ?_, ?_, ?_⟩, ?_, ?_, ?_, ?_, ?_, ?_⟩
  all_goals exact Row.inverts_of_formatR _

/-- The row that `decode` has used (30_encoding.md R79). -/
theorem decode_ok {c : Word} {i : Instr} (h : decode c = .ok i) :
    ∃ r ∈ opcodeMap, opField c = r.op ∧ c &&& r.mask = r.bits ∧ i = r.build (fieldsOf c) ∧ i.wellFormed = true := by
  unfold decode at h
  split at h
  next => cases h
  next r hr =>
    have hop : r.op = opField c := by simpa using List.find?_some hr
    split at h
    next hm =>
      split at h
      next hw =>
        cases h
        exact ⟨r, List.mem_of_find?_eq_some hr, hop.symm, hm, rfl, hw⟩
      next => cases h
    next => cases h

/-- A word that decodes is the encoding of its command (30_encoding.md R79). -/
theorem encode_of_decode {c : Word} {i : Instr} (h : decode c = .ok i) : encode i = c := by
  obtain ⟨r, hr, hop, hm, rfl, -⟩ := decode_ok h
  exact opcodeMap_inverts r hr c hop hm

end Sys2Proof
end

section
/-! What a command does to the B registers and to BM, and how a step ends: one lemma per shared operation, then one
case split over the commands for each (spec/10_state.md R22, R26, R31). -/

namespace Sys2Proof.Machine

/-! ### Answers -/

/-- If the result is a next state, that state meets `P`. -/
def NextMeets (P : State → Prop) (r : Result) : Prop := ∀ t, r = .next t → P t

theorem nextMeets_next {P : State → Prop} {s : State} (h : P s) : NextMeets P (.next s) := by
  rintro t ⟨⟩
  exact h

/-! ### B registers: trimmed and within `CAP` words (10_state.md R22) -/

/-- Every B register is trimmed and within `CAP` words. -/
def RegsOk (s : State) : Prop := ∀ r, Trimmed (s.readB r) ∧ (s.readB r).length ≤ s.params.cap

theorem RegsOk.valB_lt {s : State} (h : RegsOk s) (a : BReg) : s.valB a < 2 ^ (32 * s.params.cap) :=
  (length_le_iff_of_trimmed _ (h a).1 _).1 (h a).2

theorem RegsOk.writeB {s : State} (h : RegsOk s) (d : BReg) (w : Buf) (hw : Trimmed w ∧ w.length ≤ s.params.cap) :
    RegsOk (s.writeB d w) := by
  intro r
  rw [State.writeB_readB]
  split
  · exact hw
  · exact h r

theorem RegsOk.writeB_words {s : State} (h : RegsOk s) (d : BReg) (v : Nat) (hv : v < 2 ^ (32 * s.params.cap)) :
    RegsOk (s.writeB d (words v)) :=
  h.writeB d _ ⟨trimmed_words v, (length_words_le_iff _ _).2 hv⟩

theorem RegsOk.raised {s : State} (h : RegsOk s) (f : Cause) (i : Instr) : NextMeets RegsOk (raised f i s) :=
  nextMeets_next h

theorem RegsOk.done {u : State} (h : RegsOk u) : NextMeets RegsOk (done u) := nextMeets_next h

theorem RegsOk.finishS {u : State} (h : RegsOk u) (d : SReg) (v : Nat) : NextMeets RegsOk (finishS d v u) :=
  nextMeets_next h

theorem RegsOk.finishFitting {s : State} (h : RegsOk s) (d : BReg) {v : Nat} (hv : v < 2 ^ (32 * s.params.cap)) :
    NextMeets RegsOk (finishFitting d v s) := nextMeets_next (h.writeB_words d v hv)

theorem RegsOk.finishB {s : State} (h : RegsOk s) (i : Instr) (d : BReg) (v : Nat) :
    NextMeets RegsOk (finishB i d v s) := by
  unfold Machine.finishB
  split
  next => exact h.raised _ _
  next hc => exact nextMeets_next (h.writeB d _ ⟨trimmed_words v, by omega⟩)

/-- A scalar fits any B register, since `CAP ≥ 2` (00_scope.md R8). -/
theorem natS_lt_capacity (s : State) (hp : s.params.Valid) (c : SReg) : s.natS c < 2 ^ (32 * s.params.cap) := by
  obtain ⟨hcap, -, -⟩ := hp
  calc s.natS c < 2 ^ 64 := (s.readS c).isLt
    _ ≤ 2 ^ (32 * s.params.cap) := Nat.pow_le_pow_right (by norm_num) (by omega)

/-- A left shift that passes the check of R171 fits (43_bit_operations.md R171). -/
theorem RegsOk.shl_fits {s : State} (h : RegsOk s) (a : BReg) (n : Nat)
    (hn : bits (s.readB a) + n ≤ 32 * s.params.cap) : s.valB a * 2 ^ n < 2 ^ (32 * s.params.cap) := by
  have hv : s.valB a < 2 ^ bits (s.readB a) := (val_lt_two_pow_iff_bits _ (h a).1 _).2 le_rfl
  calc s.valB a * 2 ^ n < 2 ^ bits (s.readB a) * 2 ^ n := Nat.mul_lt_mul_of_pos_right hv (by positivity)
    _ = 2 ^ (bits (s.readB a) + n) := (Nat.pow_add ..).symm
    _ ≤ 2 ^ (32 * s.params.cap) := Nat.pow_le_pow_right (by norm_num) hn

/-- A bit that is set lies inside the capacity. -/
theorem RegsOk.bit_index_lt {s : State} (h : RegsOk s) (a : BReg) (k : Nat) (hk : bit (s.readB a) k = true) :
    k < 32 * s.params.cap := by
  by_contra hn
  have hlt : s.valB a < 2 ^ k :=
    lt_of_lt_of_le (h.valB_lt a) (Nat.pow_le_pow_right (by norm_num) (Nat.le_of_not_lt hn))
  rw [← testBit_val, show (val (s.readB a)).testBit k = false from Nat.testBit_lt_two_pow hlt] at hk
  cases hk

theorem withoutBit_le (x : Nat) (was : Bool) (k : Nat) : withoutBit x was k ≤ x := by
  unfold withoutBit
  split
  · exact Nat.sub_le _ _
  · exact le_rfl

/-- Whether it completes, halts or faults, a command keeps every B register trimmed and within `CAP` words
(10_state.md R22). -/
theorem exec_keeps_regsOk (i : Instr) (s : State) (hp : s.params.Valid) (h : RegsOk s) :
    NextMeets RegsOk (exec i s) := by
  have hv := h.valB_lt
  have two_pow_lt {k : Nat} (hk : k < 32 * s.params.cap) : 2 ^ k < 2 ^ (32 * s.params.cap) :=
    Nat.pow_lt_pow_right (by norm_num) hk
  cases i with
  | nop => exact h.done
  | halt => exact nextMeets_next h
  | li d imm => exact nextMeets_next h
  | lih d imm => exact nextMeets_next h
  | mov d a => exact nextMeets_next (h.writeB d _ (h a))
  | setu d a => exact h.finishFitting d (natS_lt_capacity s hp a)
  | bits d a => exact h.finishS _ _
  | popc d a => exact h.finishS _ _
  | bytes d a => exact h.finishS _ _
  | cmp d a b => exact nextMeets_next h
  | add d a b => exact h.finishB _ _ _
  | sub d a b =>
    simp only [exec, execSub]; split
    · exact h.raised _ _
    · exact h.finishFitting d (lt_of_le_of_lt (Nat.sub_le _ _) (hv a))
  | mul d a b => exact h.finishB _ _ _
  | div q a b =>
    simp only [exec, execDiv]; split
    · exact h.raised _ _
    · exact h.finishFitting q (lt_of_le_of_lt (Nat.div_le_self _ _) (hv a))
  | mod r a b =>
    simp only [exec, execMod]; split
    · exact h.raised _ _
    · exact h.finishFitting r (lt_of_le_of_lt (Nat.mod_le _ _) (hv a))
  | divmod q r a b =>
    simp only [exec, execDivmod]; split
    · exact h.raised _ _
    · have hq := h.writeB_words q _ (lt_of_le_of_lt (Nat.div_le_self _ (s.valB b)) (hv a))
      exact nextMeets_next (hq.writeB_words r _ (lt_of_le_of_lt (Nat.mod_le _ _) (hv a)))
  | pow d a e =>
    simp only [exec, execPow]; split
    · exact h.raised _ _
    · exact h.finishB _ _ _
  | shl d a c =>
    simp only [exec, execShl]; split
    · exact nextMeets_next (h.writeB d [] ⟨by decide, Nat.zero_le _⟩)
    · split
      next => exact h.raised _ _
      next hn => exact h.finishFitting d (h.shl_fits a _ (Nat.le_of_not_lt hn))
  | shr d a c =>
    exact h.finishFitting d (lt_of_le_of_lt (by rw [Nat.shiftRight_eq_div_pow]; exact Nat.div_le_self _ _) (hv a))
  | getbit d a x => exact h.finishS _ _
  | setbit d x v =>
    simp only [exec, execSetbit]; split
    · split
      next => exact h.raised _ _
      next hn => exact h.finishFitting d (Nat.or_lt_two_pow (hv d) (two_pow_lt (by omega)))
    · exact h.finishFitting d (lt_of_le_of_lt (withoutBit_le _ _ _) (hv d))
  | flipbit d x =>
    simp only [exec, execFlipbit]; split
    next => exact h.raised _ _
    next hn =>
      have hx : s.natS x < 32 * s.params.cap := by
        by_cases hb : bit (s.readB d) (s.natS x) = true
        · exact h.bit_index_lt d _ hb
        · have hc : ¬ s.params.cap < s.natS x / 32 + 1 := fun hc => hn ⟨by simpa using hb, hc⟩
          omega
      exact h.finishFitting d (Nat.xor_lt_two_pow (hv d) (two_pow_lt hx))
  | and d a b => exact h.finishFitting d (Nat.and_lt_two_pow _ (hv b))
  | or d a b => exact h.finishFitting d (Nat.or_lt_two_pow (hv a) (hv b))
  | xor d a b => exact h.finishFitting d (Nat.xor_lt_two_pow (hv a) (hv b))
  | fmt l a b m p =>
    simp only [exec, execFmt]; split
    · exact h.raised _ _
    · split
      · exact nextMeets_next h
      · exact h.raised _ _
  | parse d c b p n =>
    simp only [exec, execParse]; split
    · exact h.raised _ _
    · split
      · split
        next => exact h.raised _ _
        next hc => exact (h.writeB d _ ⟨trimmed_words _, Nat.le_of_not_lt hc⟩).finishS _ _
      · exact h.raised _ _
  | wrbe a p n =>
    simp only [exec, execWrbe]; split
    · exact nextMeets_next h
    · exact h.raised _ _
  | wrle a p n =>
    simp only [exec, execWrle]; split
    · exact nextMeets_next h
    · exact h.raised _ _
  | rdbe d p n =>
    simp only [exec, execRdbe]; split
    · exact h.finishB _ _ _
    · exact h.raised _ _
  | rdle d p n =>
    simp only [exec, execRdle]; split
    · exact h.finishB _ _ _
    · exact h.raised _ _

end Sys2Proof.Machine
end

section
/-! What a command does to BM: the 25 commands that do not reach BM commute with any change of it, the three writers
write one run inside BM (spec/10_state.md R26, spec/20_memory.md R51, R59). -/

namespace Sys2Proof.Machine

/-! ### Commands that do not reach BM -/

/-- The state with another content of BM. -/
def State.withBM (s : State) (m : Memory) : State := { s with bm := m }

/-- A result whose next state has another content of BM. -/
def resultWithBM (m : Memory) : Result → Result
  | .next t => .next (t.withBM m)
  | .fault r => .fault r
  | .refused r => .refused r

theorem ite_withBM {c : Prop} [Decidable c] {m : Memory} {x y x' y' : Result} (hx : x' = resultWithBM m x)
    (hy : y' = resultWithBM m y) : (if c then x' else y') = resultWithBM m (if c then x else y) := by
  split
  · exact hx
  · exact hy

theorem finishB_withBM (i : Instr) (d : BReg) (v : Nat) (s : State) (m : Memory) :
    finishB i d v (s.withBM m) = resultWithBM m (finishB i d v s) := ite_withBM rfl rfl

/-- A command that does not reach BM does the same whatever BM holds, and leaves it alone (20_memory.md R59). -/
theorem exec_withBM (i : Instr) (s : State) (m : Memory) (hi : reachesBM i = false) :
    exec i (s.withBM m) = resultWithBM m (exec i s) := by
  cases i with
  | nop => rfl
  | halt => rfl
  | li d imm => rfl
  | lih d imm => rfl
  | mov d a => rfl
  | setu d a => rfl
  | bits d a => rfl
  | popc d a => rfl
  | bytes d a => rfl
  | cmp d a b => rfl
  | add d a b => exact finishB_withBM _ _ _ _ _
  | sub d a b => exact ite_withBM rfl rfl
  | mul d a b => exact finishB_withBM _ _ _ _ _
  | div q a b => exact ite_withBM rfl rfl
  | mod r a b => exact ite_withBM rfl rfl
  | divmod q r a b => exact ite_withBM rfl rfl
  | pow d a e => exact ite_withBM rfl (finishB_withBM _ _ _ _ _)
  | shl d a c => exact ite_withBM rfl (ite_withBM rfl rfl)
  | shr d a c => rfl
  | getbit d a x => rfl
  | setbit d x v => exact ite_withBM (ite_withBM rfl rfl) rfl
  | flipbit d x => exact ite_withBM rfl rfl
  | and d a b => rfl
  | or d a b => rfl
  | xor d a b => rfl
  | fmt l a b n p => cases hi
  | parse d c b p n => cases hi
  | wrbe a p n => cases hi
  | wrle a p n => cases hi
  | rdbe d p n => cases hi
  | rdle d p n => cases hi

/-! ### What a command leaves in BM -/

theorem bm_finishB (i : Instr) (d : BReg) (v : Nat) (s : State) :
    NextMeets (fun t => t.bm = s.bm) (finishB i d v s) := by
  unfold finishB
  split <;> exact nextMeets_next rfl

/-- Only `WRBE`, `WRLE` and `FMT` write BM (10_state.md R26). -/
theorem exec_bm_of_not_writesBM (i : Instr) (s : State) (hi : writesBM i = false) :
    NextMeets (fun t => t.bm = s.bm) (exec i s) := by
  by_cases hr : reachesBM i = false
  · intro t ht
    have h : exec i s = resultWithBM s.bm (exec i s) := exec_withBM i s s.bm hr
    rw [ht] at h
    have e : t = t.withBM s.bm := Host.Outcome.next.inj h
    calc t.bm = (t.withBM s.bm).bm := congrArg State.bm e
      _ = s.bm := rfl
  · cases i with
    | parse d c b p n =>
      simp only [exec, execParse]; split
      · exact nextMeets_next rfl
      · split
        · split <;> exact nextMeets_next rfl
        · exact nextMeets_next rfl
    | rdbe d p n =>
      simp only [exec, execRdbe]; split
      · exact bm_finishB _ _ _ _
      · exact nextMeets_next rfl
    | rdle d p n =>
      simp only [exec, execRdle]; split
      · exact bm_finishB _ _ _ _
      · exact nextMeets_next rfl
    | fmt l a b n p => cases hi
    | wrbe a p n => cases hi
    | wrle a p n => cases hi
    | _ => exact absurd rfl hr

/-- A memory in canonical form that lists no address at or above `n`. -/
def BMOk (n : Nat) (m : Memory) : Prop := Memory.wf m ∧ ∀ c ∈ m, c.1 < n

theorem BMOk.writeRun {n : Nat} {m : Memory} (h : BMOk n m) (a : Nat) (bs : List Byte) (ha : a + bs.length ≤ n) :
    BMOk n (Memory.writeRun m a bs) := by
  refine ⟨Memory.wf_writeRun m a bs h.1, fun c hc => ?_⟩
  rcases Memory.mem_writeRun m a bs c hc with ⟨-, hlt⟩ | hm
  · exact lt_of_lt_of_le hlt ha
  · exact h.2 c hm

/-- The text of `FMT` has the length that its range check speaks of (44_radix_conversion.md R202). -/
theorem length_fmtText_fmtLength (ds : List Nat) (n : Nat) :
    (fmtText (fmtLength ds n) ds).length = fmtLength ds n := length_fmtText _ _ (le_max_left _ _)

/-- Whether it completes, halts or faults, a command keeps BM canonical and inside `BM_SIZE` (20_memory.md R51). -/
theorem exec_keeps_bmOk (i : Instr) (s : State) (h : BMOk s.params.bmSize s.bm) :
    NextMeets (fun t => BMOk s.params.bmSize t.bm) (exec i s) := by
  by_cases hw : writesBM i = false
  · intro t ht
    rw [exec_bm_of_not_writesBM i s hw t ht]
    exact h
  · cases i with
    | fmt l a b n p =>
      simp only [exec, execFmt]; split
      · exact nextMeets_next h
      · split
        next hin =>
          refine nextMeets_next (h.writeRun _ _ ?_)
          rw [length_fmtText_fmtLength]
          exact of_decide_eq_true hin
        next => exact nextMeets_next h
    | wrbe a p n =>
      simp only [exec, execWrbe]; split
      next hin => exact nextMeets_next (h.writeRun _ _ (by simpa using (runOk_iff s p n).1 hin))
      next => exact nextMeets_next h
    | wrle a p n =>
      simp only [exec, execWrle]; split
      next hin => exact nextMeets_next (h.writeRun _ _ (by simpa using (runOk_iff s p n).1 hin))
      next => exact nextMeets_next h
    | _ => exact absurd rfl hw

end Sys2Proof.Machine
end

section
/-! How a step ends, and the invariant: each of the ways a step ends keeps it, and so does every host action
(spec/10_state.md R22, R30, R31, R33; spec/60_exceptions.md R258, R264). -/

namespace Sys2Proof.Machine

/-! ### How a step ends (10_state.md R31) -/

/-- The three ways a command ends: `HALT`, completion, one of its faults (10_state.md R31). -/
theorem exec_ends {i : Instr} {s t : State} (h : exec i s = .next t) :
    (i = .halt ∧ t = s.setRS .halted) ∨ (i ≠ .halt ∧ Completed s t) ∨ ∃ f ∈ mayRaise i, t = s.raise f (encode i) := by
  by_cases hi : i = .halt
  · subst hi
    exact .inl ⟨rfl, (Host.Outcome.next.inj h).symm⟩
  · rcases exec_faults_or_completes i s hi with ⟨f, hf, he⟩ | ⟨u, he, hu⟩
    · exact .inr (.inr ⟨f, hf, Host.Outcome.next.inj (h.symm.trans he)⟩)
    · cases Host.Outcome.next.inj (h.symm.trans he)
      exact .inr (.inl ⟨hi, hu⟩)

/-- Every command answers a next state. -/
theorem exec_answers (i : Instr) (s : State) : ∃ t, exec i s = .next t := by
  by_cases hi : i = .halt
  · subst hi
    exact ⟨_, rfl⟩
  · rcases exec_faults_or_completes i s hi with ⟨f, -, he⟩ | ⟨t, he, -⟩
    · exact ⟨_, he⟩
    · exact ⟨t, he⟩

/-- How a step that answers a next state has ended: with the word fetched, an illegal word, `HALT`, completion, or a
fault that names the fetched word (10_state.md R31). -/
theorem step_ends {s t : State} (h : step s = .next t) :
    s.rs = .run ∧ ∃ c, s.prog[s.k]? = some c ∧
      ((∃ e, decode c = .error e ∧ t = s.raise .illegalCmd c) ∨
        ∃ i, decode c = .ok i ∧ exec i s = .next t ∧
          ((i = .halt ∧ t = s.setRS .halted) ∨ (i ≠ .halt ∧ Completed s t) ∨ ∃ f ∈ mayRaise i, t = s.raise f c)) := by
  obtain ⟨c, hrun, hc, he | ⟨i, hd, hx⟩⟩ := step_cases s t h
  · exact ⟨hrun, c, hc, .inl he⟩
  · have hends := exec_ends hx
    rw [encode_of_decode hd] at hends
    exact ⟨hrun, c, hc, .inr ⟨i, hd, hx, hends⟩⟩

/-- While the unit runs, the step on a word that decodes is `exec` of its command (10_state.md R31). -/
theorem step_eq_exec {s : State} {c : Word} {i : Instr} (hrun : s.rs = .run) (hc : s.prog[s.k]? = some c)
    (hd : decode c = .ok i) : step s = exec i s := by
  simp only [step, (fetch_eq_ok s c).2 ⟨hrun, hc⟩, hd]

/-- While the unit runs, the step on an illegal word raises `ILLEGAL_CMD` (60_exceptions.md R251). -/
theorem step_eq_raise {s : State} {c : Word} {e : IllegalWord} (hrun : s.rs = .run) (hc : s.prog[s.k]? = some c)
    (hd : decode c = .error e) : step s = .next (s.raise .illegalCmd c) := by
  simp only [step, (fetch_eq_ok s c).2 ⟨hrun, hc⟩, hd]

/-- A step is enabled exactly when the unit runs and a command is left (10_state.md R31). -/
theorem step_enabled_iff (s : State) : (∃ t, step s = .next t) ↔ s.rs = .run ∧ s.k < s.prog.length := by
  constructor
  · rintro ⟨t, h⟩
    obtain ⟨hrun, c, hc, -⟩ := step_ends h
    exact ⟨hrun, (List.getElem?_eq_some_iff.1 hc).1⟩
  · rintro ⟨hrun, hk⟩
    have hc := List.getElem?_eq_getElem hk
    cases hd : decode s.prog[s.k] with
    | error e => exact ⟨_, step_eq_raise hrun hc hd⟩
    | ok i =>
      rw [step_eq_exec hrun hc hd]
      exact exec_answers i s

/-- A completed command leaves the run state alone (10_state.md R28). -/
theorem Completed.rs {s t : State} (h : Completed s t) : t.rs = s.rs := rs_eq_of_status_eq h.control.status

/-! ### The invariant is kept by each end of a step -/

/-- Fault entry keeps the invariant when it records the word at the index (60_exceptions.md R258). -/
theorem Inv.raise {s : State} (h : Inv s) (f : Cause) {c : Word} (hc : s.prog[s.k]? = some c) :
    Inv (s.raise f c) :=
  { h with
    statusReserved := RunState.code_lt .fault
    haltedAtHalt := fun hr => nomatch hr
    faultCause := fun _ => f.code_bounds
    faultRecord := fun _ => ⟨rfl, hc⟩
    noRecord := fun hr => absurd rfl hr }

/-- `HALT` keeps the invariant when it stands at the index (40_control_move.md R91). -/
theorem Inv.halt {s : State} (h : Inv s) (hrun : s.rs = .run) (hc : s.prog[s.k]? = some (encode .halt)) :
    Inv (s.setRS .halted) :=
  { h with
    statusReserved := RunState.code_lt .halted
    haltedAtHalt := fun _ => hc
    faultCause := fun hr => nomatch hr
    faultRecord := fun hr => nomatch hr
    noRecord := fun _ => h.noRecord (by simp [hrun]) }

theorem Inv.regsOk {s : State} (h : Inv s) : RegsOk s := fun r => ⟨h.trimmed r, h.fits r⟩

theorem Inv.bmOk {s : State} (h : Inv s) : BMOk s.params.bmSize s.bm := ⟨h.bmWf, h.bmInside⟩

/-- A completed command keeps the invariant when it keeps the B registers and BM well formed. -/
theorem Inv.complete {s t : State} (h : Inv s) (hrun : s.rs = .run) (hk : s.k < s.prog.length) (ht : Completed s t)
    (hregs : RegsOk t) (hbm : BMOk s.params.bmSize t.bm) : Inv t := by
  have hrs : t.rs = .run := ht.rs.trans hrun
  obtain ⟨hcc, hkt, hstatus, hcause, hecc, hecmd, hprog, hparams⟩ := ht
  refine
    { params := hparams ▸ h.params
      trimmed := fun r => (hregs r).1
      fits := fun r => (hregs r).2
      bmWf := hbm.1
      bmInside := hparams ▸ hbm.2
      index := by rw [hkt, hprog]; exact hk
      counter := by rw [hcc, hkt, h.counter, BitVec.ofNat_add]; rfl
      statusReserved := hstatus ▸ h.statusReserved
      haltedAtHalt := fun hr => nomatch hrs.symm.trans hr
      faultCause := fun hr => nomatch hrs.symm.trans hr
      faultRecord := fun hr => nomatch hrs.symm.trans hr
      noRecord := fun _ => ?_ }
  rw [hcause, hecc, hecmd]
  exact h.noRecord (by simp [hrun])

theorem Inv.step {s t : State} (h : Inv s) (hs : step s = .next t) : Inv t := by
  obtain ⟨hrun, c, hc, ⟨e, -, rfl⟩ | ⟨i, hd, hx, ⟨rfl, rfl⟩ | ⟨-, hdone⟩ | ⟨f, -, rfl⟩⟩⟩ := step_ends hs
  · exact h.raise _ hc
  · exact h.halt hrun (by rw [hc, encode_of_decode hd])
  · exact h.complete hrun (List.getElem?_eq_some_iff.1 hc).1 hdone
      (exec_keeps_regsOk i s h.params h.regsOk t hx) (exec_keeps_bmOk i s h.bmOk t hx)
  · exact h.raise f hc

/-! ### The invariant holds after reset and is kept by the host -/

@[simp] theorem powerUp_readB (p : Params) (m : Memory) (r : BReg) : (powerUp p m).readB r = [] := by
  simp [powerUp, State.reset, State.readB]

@[simp] theorem powerUp_readS (p : Params) (m : Memory) (r : SReg) : (powerUp p m).readS r = 0 := by
  simp [powerUp, State.reset, State.readS]

@[simp] theorem powerUp_rs (p : Params) (m : Memory) : (powerUp p m).rs = .idle := rfl

/-- Reset at any time gives a power-up state with the present parameters and BM (70_reset_and_hazards.md R280). -/
theorem assertReset_eq_powerUp (s : State) : s.assertReset = powerUp s.params s.bm := rfl

theorem reset_eq_powerUp : State.reset = powerUp Params.atReset [] := rfl

theorem inv_powerUp (p : Params) (m : Memory) (hp : p.Valid) (hm : BMOk p.bmSize m) : Inv (powerUp p m) where
  params := hp
  trimmed r := by simp
  fits r := by simp
  bmWf := hm.1
  bmInside := hm.2
  index := le_rfl
  counter := rfl
  statusReserved := RunState.code_lt .idle
  haltedAtHalt hr := nomatch hr
  faultCause hr := nomatch hr
  faultRecord hr := nomatch hr
  noRecord _ := ⟨rfl, rfl, rfl⟩

/-- `start` has its effect in `IDLE` and `HALTED` (70_reset_and_hazards.md R283). -/
theorem start_of_idle_or_halted {s : State} (hs : s.rs = .idle ∨ s.rs = .halted) (prog : List Word) :
    s.start prog =
      { s with status := RunState.run.code, cc := 0, cause := 0, ecc := 0, ecmd := 0, prog := prog, k := 0 } :=
  if_pos hs

/-- `start` is ignored in `RUN` and `FAULT` (70_reset_and_hazards.md R283). -/
theorem start_of_run_or_fault {s : State} (hs : ¬ (s.rs = .idle ∨ s.rs = .halted)) (prog : List Word) :
    s.start prog = s := if_neg hs

theorem Inv.start {s : State} (h : Inv s) (prog : List Word) : Inv (s.start prog) := by
  by_cases hs : s.rs = .idle ∨ s.rs = .halted
  · rw [start_of_idle_or_halted hs]
    exact
      { h with
        index := Nat.zero_le _
        counter := rfl
        statusReserved := RunState.code_lt .run
        haltedAtHalt := fun hr => nomatch hr
        faultCause := fun hr => nomatch hr
        faultRecord := fun hr => nomatch hr
        noRecord := fun _ => ⟨rfl, rfl, rfl⟩ }
  · rwa [start_of_run_or_fault hs]

theorem Inv.memWrite {s : State} (h : Inv s) (a : Nat) (bs : List Byte) (ha : a + bs.length ≤ s.params.bmSize) :
    Inv (s.memWrite a bs) :=
  { h with
    bmWf := (h.bmOk.writeRun a bs ha).1
    bmInside := (h.bmOk.writeRun a bs ha).2 }

theorem Inv.hostAct {s t : State} (h : Inv s) {a : HostAction} (ha : s.hostAct a = some t) : Inv t := by
  obtain ⟨-, rfl⟩ | ⟨prog, -, rfl⟩ | ⟨x, v, -, -, hx, rfl⟩ := hostAct_cases s t a ha
  · exact inv_powerUp _ _ h.params h.bmOk
  · exact h.start prog
  · exact h.memWrite x [v] hx

theorem inv_of_reachable {s : State} (h : Reachable s) : Inv s := by
  induction h with
  | reset p m hp hm hin => exact inv_powerUp p m hp ⟨hm, hin⟩
  | step _ hs ih => exact ih.step hs
  | host _ a ha ih => exact ih.hostAct ha

/-! ### The obligations -/

/-- Settles O38: fault entry, `HALT` and completion each keep the invariant. -/
theorem stepKeepsTheInvariant : Obligations.StepKeepsTheInvariant := fun _ _ h hs => h.step hs

/-- Settles O39, by induction on how the state is reached. -/
theorem everyReachableStateMeetsTheInvariant : Obligations.EveryReachableStateMeetsTheInvariant :=
  ⟨fun _ _ _ h ha => h.hostAct ha, fun _ h => inv_of_reachable h⟩

/-- Settles O36: the reset state of the model is one of the power-up states. -/
theorem powerUpMeetsTheInvariant : Obligations.PowerUpMeetsTheInvariant :=
  ⟨inv_powerUp Params.atReset [] (by decide) ⟨by decide, by decide⟩, fun p m hp hm hin => inv_powerUp p m hp ⟨hm, hin⟩⟩

/-- Settles O41: the commands that do not reach BM commute with any change of its content, and the three that only read
it end in writes to registers alone. -/
theorem onlySixCommandsReachBM : Obligations.OnlySixCommandsReachBM := by
  refine ⟨fun i s t hw h => exec_bm_of_not_writesBM i s hw t h, fun i s t m hr h => ?_⟩
  have hm : exec i (s.withBM m) = resultWithBM m (exec i s) := exec_withBM i s m hr
  rwa [h] at hm

/-- Settles O25: fetch answers the word, `decode` its command. -/
theorem stepRunsTheDecodedCommand : Obligations.StepRunsTheDecodedCommand :=
  fun _ _ _ hrun hc hd => step_eq_exec hrun hc hd

/-- Settles O26: a command's own word is the word fetched, so each end of a step names it. -/
theorem stepEndsAsTheRuleSays : Obligations.StepEndsAsTheRuleSays := by
  refine fun s => ⟨step_enabled_iff s, fun t h => ?_⟩
  obtain ⟨-, c, hc, ⟨e, hd, rfl⟩ | ⟨i, hd, hx, hends⟩⟩ := step_ends h
  · exact ⟨c, hc, .inl ⟨e, hd, faultTaken_raise _ _ _⟩⟩
  · refine ⟨c, hc, .inr ⟨i, hd, hx, ?_⟩⟩
    obtain ⟨hi, rfl⟩ | hdone | ⟨f, hf, rfl⟩ := hends
    · exact .inl ⟨hi, State.setRS_rs _ _, rfl, rfl⟩
    · exact .inr (.inl hdone)
    · exact .inr (.inr ⟨f, hf, faultTaken_raise _ _ _⟩)

/-- Settles O27: of the ways a step ends only completion leaves the unit running; the equation with `k` is part of the
invariant. -/
theorem counterAdvancesByOne : Obligations.CounterAdvancesByOne := by
  refine ⟨fun s t h => ?_, fun s h => by simp [(inv_of_reachable h).counter]⟩
  obtain ⟨hrun, -, -, ⟨-, -, rfl⟩ | ⟨-, -, -, ⟨-, rfl⟩ | ⟨-, hdone⟩ | ⟨-, -, rfl⟩⟩⟩ := step_ends h
  · exact ⟨(fun hr => nomatch hr), fun _ => ⟨rfl, rfl⟩⟩
  · exact ⟨(fun hr => nomatch hr), fun _ => ⟨rfl, rfl⟩⟩
  · exact ⟨fun _ => ⟨by rw [hdone.cc, BitVec.toNat_add]; rfl, hdone.k⟩, fun hr => absurd (hdone.rs.trans hrun) hr⟩
  · exact ⟨(fun hr => nomatch hr), fun _ => ⟨rfl, rfl⟩⟩

/-- Settles O32: reset gives a power-up state, which waits for `start`; `start` is ignored in `FAULT` and a host write
keeps the run state. -/
theorem resetGivesTheResetValues : Obligations.ResetGivesTheResetValues := by
  refine ⟨fun s u hu => ?_, fun s a => rfl, fun s t a hf ha ht => ?_⟩
  · obtain ⟨p, m, rfl⟩ : ∃ p m, u = powerUp p m := by
      obtain rfl | rfl := hu
      · exact ⟨_, _, assertReset_eq_powerUp s⟩
      · exact ⟨_, _, reset_eq_powerUp⟩
    refine ⟨powerUp_readB p m, powerUp_readS p m, rfl, rfl, rfl, rfl, rfl, rfl, fun t ht => ?_, fun c prog => ?_⟩
    · exact nomatch (step_ends ht).1
    · rw [start_of_idle_or_halted (.inl (powerUp_rs p m))]
      exact ⟨rfl, rfl⟩
  · obtain ⟨hreset, -⟩ | ⟨prog, -, rfl⟩ | ⟨x, v, -, -, -, rfl⟩ := hostAct_cases s t a ha
    · exact hreset
    · exact absurd (by rw [start_of_run_or_fault (by simp [hf]), hf]) ht
    · exact absurd hf ht

end Sys2Proof.Machine
end

section
/-! The two operations on BM, and the stream that no write to BM reaches (spec/20_memory.md R52, R53, R63). -/

namespace Sys2Proof.Machine

/-! ### Reading and writing a run of BM -/

/-- Element `j` of a run that is read is the byte at `addr + j` (20_memory.md R52). -/
theorem State.getElem?_memRead (s : State) (addr : Nat) {n j : Nat} (hj : j < n) :
    (s.memRead addr n)[j]? = some (s.readByte (addr + j)) := by
  have hlt : j < (s.memRead addr n).length := by simpa using hj
  rw [List.getElem?_eq_getElem hlt, State.getElem_memRead]

/-- A run that has been written is read back (20_memory.md R52, R53). -/
@[simp] theorem State.memRead_memWrite (s : State) (addr : Nat) (bs : List Byte) :
    (s.memWrite addr bs).memRead addr bs.length = bs := by
  refine List.ext_getElem (State.length_memRead _ _ _) fun j _ hj => ?_
  rw [State.getElem_memRead, State.readByte_memWrite_inside s addr j bs hj]

/-- A write to BM leaves the status registers, the stream and the parameters alone (20_memory.md R53). -/
theorem State.sameControl_memWrite (s : State) (addr : Nat) (bs : List Byte) : SameControl s (s.memWrite addr bs) :=
  ⟨rfl, rfl, rfl, rfl, rfl, rfl⟩

/-! ### The stream -/

/-- Fetch looks at `STATUS`, the stream and the index only (10_state.md R29, R31). -/
theorem fetch_congr {s t : State} (hstatus : t.status = s.status) (hprog : t.prog = s.prog) (hk : t.k = s.k) :
    t.fetch = s.fetch := by
  unfold State.fetch
  rw [rs_eq_of_status_eq hstatus, hprog, hk]

/-- However a step ends, the stream and the parameters are those it began with (20_memory.md R63, 10_state.md R34). -/
theorem step_prog_params {s t : State} (h : step s = .next t) : t.prog = s.prog ∧ t.params = s.params := by
  obtain ⟨-, -, -, ⟨-, -, rfl⟩ | ⟨-, -, -, ⟨-, rfl⟩ | ⟨-, hdone⟩ | ⟨-, -, rfl⟩⟩⟩ := step_ends h
  · exact ⟨State.raise_prog _ _ _, State.raise_params _ _ _⟩
  · exact ⟨State.setRS_prog _ _, State.setRS_params _ _⟩
  · exact ⟨hdone.control.prog, hdone.control.params⟩
  · exact ⟨State.raise_prog _ _ _, State.raise_params _ _ _⟩

/-! ### The obligations -/

/-- Settles O40: `MemRead` byte by byte, and `MemWrite` by what it reads back and what it leaves alone. -/
theorem memReadAndMemWrite : Obligations.MemReadAndMemWrite := by
  refine fun s addr => ⟨fun n => ⟨s.length_memRead addr n, fun j hj => s.getElem?_memRead addr hj⟩, fun bs => ?_⟩
  exact ⟨s.memRead_memWrite addr bs, fun a ha => s.readByte_memWrite_outside addr a bs ha,
    s.memWrite_readB addr bs, s.memWrite_readS addr bs, s.sameControl_memWrite addr bs,
    s.memWrite_cc addr bs, s.memWrite_k addr bs, Memory.wf_writeRun s.bm addr bs⟩

/-- Settles O42: no end of a step touches the stream, and fetch does not look at BM. -/
theorem streamIsFixedDuringARun : Obligations.StreamIsFixedDuringARun :=
  ⟨fun _ _ h => step_prog_params h, fun _ _ => fetch_congr rfl rfl rfl⟩

end Sys2Proof.Machine
end

section
/-! The decoder inverts the encoder: what `decode` answers, said by the row whose opcode the word has, and for every
command the row that reads it back from its own word (spec/30_encoding.md R74, R76, R79). -/

namespace Sys2Proof

open Laws

/-! ### Rows by their opcode (30_encoding.md R75) -/

theorem nodup_opcodes : (opcodeMap.map Row.op).Nodup := by decide

/-- An opcode stands in one row at most. -/
theorem row_eq_of_op_eq {r r' : Row} (hr : r ∈ opcodeMap) (hr' : r' ∈ opcodeMap) (h : r.op = r'.op) : r = r' :=
  List.inj_on_of_nodup_map nodup_opcodes hr hr' h

/-- The ranges of 30_encoding.md R76 are the opcodes that stand in no row of R75. -/
theorem no_row_iff :
    ∀ op : BitVec 8, (∀ r ∈ opcodeMap, r.op ≠ op) ↔
      (0x06 ≤ op.toNat ∧ op.toNat ≤ 0x0F) ∨ (0x14 ≤ op.toNat ∧ op.toNat ≤ 0x1F) ∨
      (0x27 ≤ op.toNat ∧ op.toNat ≤ 0x2F) ∨ (0x38 ≤ op.toNat ∧ op.toNat ≤ 0x3F) ∨
      (0x42 ≤ op.toNat ∧ op.toNat ≤ 0x4F) ∨ 0x54 ≤ op.toNat := by
  decide

/-- The search of `decode` finds the row with the word's opcode. -/
theorem find?_opcodeMap {r : Row} (hr : r ∈ opcodeMap) {c : Word} (hop : r.op = opField c) :
    opcodeMap.find? (fun r => r.op == opField c) = some r := by
  cases hf : opcodeMap.find? (fun r => r.op == opField c) with
  | none => exact absurd (beq_iff_eq.2 hop) (List.find?_eq_none.1 hf r hr)
  | some r' =>
    have hop' : r'.op = opField c := by simpa using List.find?_some hf
    rw [row_eq_of_op_eq hr (List.mem_of_find?_eq_some hf) (hop.trans hop'.symm)]

/-- Mask and match of a row fix the opcode (30_encoding.md R74). -/
theorem op_eq_of_mask_eq {r : Row} (hr : r ∈ opcodeMap) {c : Word} (hm : c &&& r.mask = r.bits) :
    r.op = opField c := by
  have hrow : ∀ r ∈ opcodeMap, r.mask.extractLsb' 24 8 = BitVec.allOnes 8 ∧ r.bits.extractLsb' 24 8 = r.op := by
    decide
  obtain ⟨hmask, hbits⟩ := hrow r hr
  have h := extractLsb'_mask hm 24 8
  rw [hmask, hbits, BitVec.and_allOnes] at h
  exact h.symm

theorem regNum_injective : Function.Injective regNum := Function.LeftInverse.injective regField_regNum

/-- The one relation between fields of a command is `DIVMOD`'s (30_encoding.md R74). -/
theorem wellFormed_build_iff {r : Row} (hr : r ∈ opcodeMap) (c : Word) :
    (r.build (fieldsOf c)).wellFormed = true ↔ (r.op = 0x25 → c.extractLsb' 20 4 ≠ c.extractLsb' 16 4) := by
  have hother : ∀ r ∈ opcodeMap, r.op ≠ 0x25 → (r.build (fieldsOf c)).wellFormed = true := by
    simp [opcodeMap, rowsControlQuery, rowsArith, rowsBitOps, rowsRadixBytes, Instr.wellFormed]
  by_cases hop : r.op = 0x25
  · obtain rfl : r = opcodeMap[15]'(by decide) := row_eq_of_op_eq hr (List.getElem_mem _) hop
    calc (Instr.divmod (fieldsOf c).f1 (fieldsOf c).f2 (fieldsOf c).f3 (fieldsOf c).f4).wellFormed = true
      _ ↔ regNum (c.extractLsb' 20 4) ≠ regNum (c.extractLsb' 16 4) := bne_iff_ne
      _ ↔ c.extractLsb' 20 4 ≠ c.extractLsb' 16 4 := regNum_injective.ne_iff
      _ ↔ _ := (imp_iff_right hop).symm
  · exact iff_of_true (hother r hr hop) fun h => absurd h hop

/-- The mask of `SETBIT` holds its third field to 0 or 1 (30_encoding.md R76, R78). -/
theorem setbit_field_lt_two (v : BitVec 4) (h : v &&& 0xE#4 = 0#4) : v.toNat < 2 := by
  revert v; decide

/-! ### What `decode` answers -/

/-- A bit that the row fixes and the word does not hold (30_encoding.md R76). -/
theorem decode_of_mask_ne {r : Row} (hr : r ∈ opcodeMap) {c : Word} (hop : r.op = opField c)
    (hm : c &&& r.mask ≠ r.bits) : decode c = .error .nonzeroUnusedBit := by
  simp only [decode, find?_opcodeMap hr hop, if_neg hm]

/-- A word that meets mask and match spells the command of its fields (30_encoding.md R74). -/
theorem decode_of_mask_eq {r : Row} (hr : r ∈ opcodeMap) {c : Word} (hm : c &&& r.mask = r.bits)
    (hw : (r.build (fieldsOf c)).wellFormed = true) : decode c = .ok (r.build (fieldsOf c)) := by
  simp only [decode, find?_opcodeMap hr (op_eq_of_mask_eq hr hm), if_pos hm, if_pos hw]

/-- A word is rejected for its opcode exactly when no row has it (30_encoding.md R76). -/
theorem decode_unassigned_iff (c : Word) :
    decode c = .error .unassignedOpcode ↔ ∀ r ∈ opcodeMap, r.op ≠ opField c := by
  have hf : opcodeMap.find? (fun r => r.op == opField c) = none ↔ ∀ r ∈ opcodeMap, r.op ≠ opField c := by simp
  rw [← hf, decode]
  split
  next h => exact iff_of_true rfl h
  next r h =>
    rw [h]
    split_ifs <;> simp

/-! ### Encode, then decode -/

/-- The command's word has the row's opcode, and the row builds the command again from the fields of that word. -/
def Row.ReadsBack (r : Row) (i : Instr) : Prop := r.op = opField (encode i) ∧ r.build (fieldsOf (encode i)) = i

/-- A row that reads the command back from five register numbers, whatever stands in the bits of `imm16`. -/
theorem readsBack_of_formatR {r : Row} {i : Instr} (r1 r2 r3 r4 r5 : Fin 16)
    (he : encode i = formatR r.op (regField r1) (regField r2) (regField r3) (regField r4) (regField r5) := by rfl)
    (hb : ∀ imm, r.build ⟨r1, r2, r3, r4, r5, imm⟩ = i := by intro; rfl) : r.ReadsBack i := by
  obtain ⟨h1, h2, h3, h4, h5⟩ :=
    fieldsOf_formatR r.op (regField r1) (regField r2) (regField r3) (regField r4) (regField r5)
  rw [← he, regNum_regField] at h1 h2 h3 h4 h5
  refine ⟨by rw [he, MatchesRow.opField_formatR], ?_⟩
  have hf := hb (fieldsOf (encode i)).imm16
  rwa [← h1, ← h2, ← h3, ← h4, ← h5] at hf

/-- A row that reads the command back from one register number and an immediate, whatever the other fields hold. -/
theorem readsBack_of_formatI {r : Row} {i : Instr} (r1 : Fin 16) (imm : BitVec 16)
    (he : encode i = formatI r.op (regField r1) imm := by rfl)
    (hb : ∀ r2 r3 r4 r5, r.build ⟨r1, r2, r3, r4, r5, imm⟩ = i := by intros; rfl) : r.ReadsBack i := by
  obtain ⟨h1, h2⟩ := fieldsOf_formatI r.op (regField r1) imm
  rw [← he] at h1 h2
  rw [regNum_regField] at h1
  refine ⟨by rw [he, MatchesRow.opField_formatI], ?_⟩
  have hf := hb (fieldsOf (encode i)).f2 (fieldsOf (encode i)).f3 (fieldsOf (encode i)).f4 (fieldsOf (encode i)).f5
  rwa [← h1, ← h2] at hf

/-- A command is decoded from its own word when row `n` of the opcode map reads it back. -/
theorem decode_encode_of_row {i : Instr} (hw : i.wellFormed = true) (n : Fin 31) (hs : MatchesRow.Statement i)
    (hb : (opcodeMap[n.val]'n.isLt).ReadsBack i) : decode (encode i) = .ok i := by
  obtain ⟨r, hr, hop, hm⟩ := hs
  obtain ⟨hop', hi⟩ := hb
  obtain rfl := row_eq_of_op_eq hr (List.getElem_mem _) (hop.trans hop'.symm)
  have hd := decode_of_mask_eq hr hm (hi.symm ▸ hw)
  rwa [hi] at hd

/-- A command is decoded from its own word (30_encoding.md R79). -/
theorem decode_encode {i : Instr} (hw : i.wellFormed = true) : decode (encode i) = .ok i := by
  cases i with
  | nop => exact decode_encode_of_row hw 0 MatchesRow.nop (readsBack_of_formatR 0 0 0 0 0)
  | halt => exact decode_encode_of_row hw 1 MatchesRow.halt (readsBack_of_formatR 0 0 0 0 0)
  | li d imm => exact decode_encode_of_row hw 2 (MatchesRow.li d imm) (readsBack_of_formatI d imm)
  | lih d imm => exact decode_encode_of_row hw 3 (MatchesRow.lih d imm) (readsBack_of_formatI d imm)
  | mov d a => exact decode_encode_of_row hw 4 (MatchesRow.mov d a) (readsBack_of_formatR d a 0 0 0)
  | setu d a => exact decode_encode_of_row hw 5 (MatchesRow.setu d a) (readsBack_of_formatR d a 0 0 0)
  | bits d a => exact decode_encode_of_row hw 6 (MatchesRow.bits d a) (readsBack_of_formatR d a 0 0 0)
  | popc d a => exact decode_encode_of_row hw 7 (MatchesRow.popc d a) (readsBack_of_formatR d a 0 0 0)
  | bytes d a => exact decode_encode_of_row hw 8 (MatchesRow.bytes d a) (readsBack_of_formatR d a 0 0 0)
  | cmp d a b => exact decode_encode_of_row hw 9 (MatchesRow.cmp d a b) (readsBack_of_formatR d a b 0 0)
  | add d a b => exact decode_encode_of_row hw 10 (MatchesRow.add d a b) (readsBack_of_formatR d a b 0 0)
  | sub d a b => exact decode_encode_of_row hw 11 (MatchesRow.sub d a b) (readsBack_of_formatR d a b 0 0)
  | mul d a b => exact decode_encode_of_row hw 12 (MatchesRow.mul d a b) (readsBack_of_formatR d a b 0 0)
  | div q a b => exact decode_encode_of_row hw 13 (MatchesRow.div q a b) (readsBack_of_formatR q a b 0 0)
  | mod r a b => exact decode_encode_of_row hw 14 (MatchesRow.mod r a b) (readsBack_of_formatR r a b 0 0)
  | divmod q r a b => exact decode_encode_of_row hw 15 (MatchesRow.divmod q r a b) (readsBack_of_formatR q r a b 0)
  | pow d a e => exact decode_encode_of_row hw 16 (MatchesRow.pow d a e) (readsBack_of_formatR d a e 0 0)
  | shl d a c => exact decode_encode_of_row hw 17 (MatchesRow.shl d a c) (readsBack_of_formatR d a c 0 0)
  | shr d a c => exact decode_encode_of_row hw 18 (MatchesRow.shr d a c) (readsBack_of_formatR d a c 0 0)
  | getbit d a x => exact decode_encode_of_row hw 19 (MatchesRow.getbit d a x) (readsBack_of_formatR d a x 0 0)
  | setbit d x v =>
    cases v with
    | false => exact decode_encode_of_row hw 20 (MatchesRow.setbit d x false) (readsBack_of_formatR d x 0 0 0)
    | true => exact decode_encode_of_row hw 20 (MatchesRow.setbit d x true) (readsBack_of_formatR d x 1 0 0)
  | flipbit d x => exact decode_encode_of_row hw 21 (MatchesRow.flipbit d x) (readsBack_of_formatR d x 0 0 0)
  | and d a b => exact decode_encode_of_row hw 22 (MatchesRow.and d a b) (readsBack_of_formatR d a b 0 0)
  | or d a b => exact decode_encode_of_row hw 23 (MatchesRow.or d a b) (readsBack_of_formatR d a b 0 0)
  | xor d a b => exact decode_encode_of_row hw 24 (MatchesRow.xor d a b) (readsBack_of_formatR d a b 0 0)
  | fmt l a b m p => exact decode_encode_of_row hw 25 (MatchesRow.fmt l a b m p) (readsBack_of_formatR l a b m p)
  | parse d c b p n => exact decode_encode_of_row hw 26 (MatchesRow.parse d c b p n) (readsBack_of_formatR d c b p n)
  | wrbe a p n => exact decode_encode_of_row hw 27 (MatchesRow.wrbe a p n) (readsBack_of_formatR a p n 0 0)
  | wrle a p n => exact decode_encode_of_row hw 28 (MatchesRow.wrle a p n) (readsBack_of_formatR a p n 0 0)
  | rdbe d p n => exact decode_encode_of_row hw 29 (MatchesRow.rdbe d p n) (readsBack_of_formatR d p n 0 0)
  | rdle d p n => exact decode_encode_of_row hw 30 (MatchesRow.rdle d p n) (readsBack_of_formatR d p n 0 0)

end Sys2Proof
end

section
/-! The pseudo-commands: `LI` and the `LIH`s after it load an immediate 16 bits at a time from the top
(spec/30_encoding.md R83; spec/40_control_move.md R92, R93). -/

namespace Sys2Proof.Machine

/-! ### Sequences of commands that load one scalar register -/

/-- `n` commands completed, with `v` in `S[d]` at the end, and wrote nothing else. -/
structure LoadedS (n : Nat) (d : SReg) (v : Scalar) (s t : State) : Prop where
  dest : t.readS d = v
  sRest : SameSExcept d s t
  bRegs : SameB s t
  bm : SameBM s t
  control : SameControl s t
  cc : t.cc = s.cc + BitVec.ofNat 32 n
  k : t.k = s.k + n

theorem WroteS.loadedS {d : SReg} {v : Scalar} {s t : State} (h : WroteS d v s t) : LoadedS 1 d v s t :=
  ⟨h.dest, h.sRest, h.bRegs, h.bm, h.completed.control, h.completed.cc, h.completed.k⟩

theorem SameControl.trans {s t u : State} (h : SameControl s t) (h' : SameControl t u) : SameControl s u :=
  ⟨h'.status.trans h.status, h'.cause.trans h.cause, h'.ecc.trans h.ecc, h'.ecmd.trans h.ecmd, h'.prog.trans h.prog,
    h'.params.trans h.params⟩

theorem LoadedS.trans {m n : Nat} {d : SReg} {v w : Scalar} {s t u : State} (h : LoadedS m d v s t)
    (h' : LoadedS n d w t u) : LoadedS (m + n) d w s u where
  dest := h'.dest
  sRest i hi := (h'.sRest i hi).trans (h.sRest i hi)
  bRegs i := (h'.bRegs i).trans (h.bRegs i)
  bm a := (h'.bm a).trans (h.bm a)
  control := h.control.trans h'.control
  cc := by rw [h'.cc, h.cc, BitVec.ofNat_add, BitVec.add_assoc]
  k := by rw [h'.k, h.k, Nat.add_assoc]

/-- One `LIH`: the 64-bit value after a 16-bit immediate is shifted in at the low end (40_control_move.md R93). -/
def shiftIn (v : Scalar) (imm : BitVec 16) : Scalar := (v <<< 16) + immScalar imm

theorem loadedS_li (d : SReg) (imm : BitVec 16) (s : State) :
    ∃ t, exec (.li d imm) s = .next t ∧ LoadedS 1 d (immScalar imm) s t :=
  ⟨_, rfl, (wroteS_complete s d _).loadedS⟩

theorem loadedS_lih (d : SReg) (imm : BitVec 16) (s : State) :
    ∃ t, exec (.lih d imm) s = .next t ∧ LoadedS 1 d (shiftIn (s.readS d) imm) s t :=
  ⟨_, rfl, (wroteS_complete s d _).loadedS⟩

theorem execAll_cons {i : Instr} {s t : State} (h : exec i s = .next t) (is : List Instr) :
    execAll (i :: is) s = execAll is t := by
  rw [execAll, h]

/-- After `n` commands that loaded `S[d]`, each further `LIH` shifts one immediate in (40_control_move.md R93). -/
theorem LoadedS.execAll_lih {n : Nat} {d : SReg} {v : Scalar} {s t : State} (h : LoadedS n d v s t)
    (imms : List (BitVec 16)) :
    ∃ u, execAll (imms.map (.lih d)) t = .next u ∧ LoadedS (n + imms.length) d (imms.foldl shiftIn v) s u := by
  induction imms generalizing n v t with
  | nil => exact ⟨t, rfl, h⟩
  | cons imm imms ih =>
    obtain ⟨t', hx, ht'⟩ := loadedS_lih d imm t
    rw [h.dest] at ht'
    obtain ⟨u, hu, hload⟩ := ih (h.trans ht')
    refine ⟨u, (execAll_cons hx _).trans hu, ?_⟩
    rwa [List.length_cons, Nat.add_comm imms.length, ← Nat.add_assoc]

/-- `LI` and then one `LIH` for each further immediate. -/
theorem execAll_li_lih (d : SReg) (imm : BitVec 16) (imms : List (BitVec 16)) (s : State) :
    ∃ t, execAll (.li d imm :: imms.map (.lih d)) s = .next t ∧
      LoadedS (1 + imms.length) d (imms.foldl shiftIn (immScalar imm)) s t := by
  obtain ⟨t, hx, ht⟩ := loadedS_li d imm s
  obtain ⟨u, hu, hload⟩ := ht.execAll_lih imms
  exact ⟨u, (execAll_cons hx _).trans hu, hload⟩

/-- The top 16 bits of a number, as `LI` loads them. -/
theorem immScalar_top {n : Nat} (v : BitVec (n + 16)) : immScalar (v.extractLsb' n 16) = (v >>> n).setWidth 64 := by
  refine BitVec.eq_of_toNat_eq ?_
  have h : v.toNat / 2 ^ n < 2 ^ 16 := Nat.div_lt_of_lt_mul (Nat.pow_add 2 n 16 ▸ v.isLt)
  simp only [immScalar, BitVec.toNat_setWidth, BitVec.extractLsb'_toNat, BitVec.toNat_ushiftRight,
    Nat.shiftRight_eq_div_pow, Nat.mod_eq_of_lt h]

/-- Shifting in the next 16 bits of a number below its upper bits gives the number from those bits up. -/
theorem shiftIn_ushiftRight {w : Nat} (hw : w ≤ 64) (v : BitVec w) (n : Nat) :
    shiftIn ((v >>> (n + 16)).setWidth 64) (v.extractLsb' n 16) = (v >>> n).setWidth 64 := by
  refine BitVec.eq_of_toNat_eq ?_
  have hd : v.toNat / 2 ^ (n + 16) = v.toNat / 2 ^ n / 2 ^ 16 := by rw [Nat.pow_add, Nat.div_div_eq_div_mul]
  have hlt : v.toNat / 2 ^ n < 2 ^ 64 :=
    lt_of_le_of_lt (Nat.div_le_self _ _) (v.isLt.trans_le (Nat.pow_le_pow_right two_pos hw))
  simp only [shiftIn, immScalar, BitVec.toNat_add, BitVec.toNat_shiftLeft, BitVec.toNat_ushiftRight,
    BitVec.toNat_setWidth, BitVec.extractLsb'_toNat, Nat.shiftRight_eq_div_pow, Nat.shiftLeft_eq, hd]
  omega

/-! ### The expansions (30_encoding.md R83) -/

theorem execAll_li32 (d : SReg) (imm : BitVec 32) (s : State) :
    ∃ t, execAll (Pseudo.li32 d imm).expand s = .next t ∧ LoadedS 2 d (imm.setWidth 64) s t := by
  have hv : [imm.extractLsb' 0 16].foldl shiftIn (immScalar (imm.extractLsb' 16 16)) = imm.setWidth 64 := by
    rw [immScalar_top (n := 16)]
    exact shiftIn_ushiftRight (by decide) imm 0
  exact hv ▸ execAll_li_lih d _ [imm.extractLsb' 0 16] s

theorem execAll_li64 (d : SReg) (imm : BitVec 64) (s : State) :
    ∃ t, execAll (Pseudo.li64 d imm).expand s = .next t ∧ LoadedS 4 d imm s t := by
  have hv : [imm.extractLsb' 32 16, imm.extractLsb' 16 16, imm.extractLsb' 0 16].foldl shiftIn
      (immScalar (imm.extractLsb' 48 16)) = imm := by
    rw [immScalar_top (n := 48), List.foldl_cons, shiftIn_ushiftRight le_rfl imm 32, List.foldl_cons,
      shiftIn_ushiftRight le_rfl imm 16, List.foldl_cons, shiftIn_ushiftRight le_rfl imm 0]
    simp
  have h := execAll_li_lih d (imm.extractLsb' 48 16)
    [imm.extractLsb' 32 16, imm.extractLsb' 16 16, imm.extractLsb' 0 16] s
  rwa [hv] at h

theorem execAll_clr (d : BReg) (s : State) :
    ∃ t, execAll (Pseudo.clr d).expand s = .next t ∧ WroteB d [] s t := by
  have hx : exec (.xor d d d) s = .next (s.writeB d []).complete := by
    rw [exec, execXor, Nat.xor_self, finishFitting, words_zero, done]
  exact ⟨_, execAll_cons hx [], wroteB_complete s d []⟩

/-! ### The obligations -/

/-- Settles O21: the row that reads a command back is the row of its word, and each row inverts `encode`. -/
theorem encodeAndDecodeAreInverse : Obligations.EncodeAndDecodeAreInverse := by
  refine ⟨fun i hw => decode_encode hw, fun c i hd => ⟨encode_of_decode hd, ?_⟩⟩
  obtain ⟨-, -, -, -, -, hw⟩ := decode_ok hd
  exact hw

/-- Settles O22: mask and match fix the opcode and so the row, and the row's command is well-formed exactly under the
condition on `DIVMOD`. -/
theorem legalWordsMeetMaskAndMatch : Obligations.LegalWordsMeetMaskAndMatch := by
  refine ⟨fun c => ⟨?_, ?_⟩, nodup_opcodes⟩
  · rintro ⟨i, hd⟩
    obtain ⟨r, hr, -, hm, rfl, hw⟩ := decode_ok hd
    exact ⟨r, hr, hm, (wellFormed_build_iff hr c).1 hw⟩
  · rintro ⟨r, hr, hm, hdest⟩
    exact ⟨_, decode_of_mask_eq hr hm ((wellFormed_build_iff hr c).2 hdest)⟩

/-- Settles O23: no row has an opcode of the listed ranges, an unused bit breaks the match, `f3 ≥ 2` is one for
`SETBIT`, and a word with equal `DIVMOD` destinations builds no well-formed command. -/
theorem illegalWordsRaiseIllegalCmd : Obligations.IllegalWordsRaiseIllegalCmd := by
  refine fun c => ⟨(decode_unassigned_iff c).trans (no_row_iff (opField c)),
    fun r hr hop hm => decode_of_mask_ne hr hop hm, fun hop h3 => ?_, fun hop hdest => ?_,
    fun s e hrun hc hd => ⟨_, step_eq_raise hrun hc hd, faultTaken_raise s .illegalCmd c⟩⟩
  · exact decode_of_mask_ne (r := opcodeMap[20]'(by decide)) (List.getElem_mem _) hop.symm
      fun hm => (setbit_field_lt_two _ (extractLsb'_mask hm 12 4)).not_ge h3
  · cases hd : decode c with
    | error e => exact ⟨e, rfl⟩
    | ok i =>
      obtain ⟨r, hr, hop', -, rfl, hw⟩ := decode_ok hd
      exact absurd hdest ((wellFormed_build_iff hr c).1 hw (hop'.symm.trans hop))

/-- Settles O59: the `LIH` commands shift the lower parts of the immediate in, and a number XORed with itself is 0. -/
theorem pseudoCommandsHaveTheirEffect : Obligations.PseudoCommandsHaveTheirEffect := by
  refine ⟨fun d imm s => ⟨rfl, ?_⟩, fun d imm s => ⟨rfl, ?_⟩, fun d s => ⟨rfl, execAll_clr d s⟩⟩
  · obtain ⟨t, hx, h⟩ := execAll_li32 d imm s
    exact ⟨t, hx, h.dest, h.sRest, h.bRegs, h.bm, h.control, h.cc, h.k⟩
  · obtain ⟨t, hx, h⟩ := execAll_li64 d imm s
    exact ⟨t, hx, h.dest, h.sRest, h.bRegs, h.bm, h.control, h.cc, h.k⟩

/-- Settles O24: each word is the encoding of the command it stands for. -/
theorem sampleWordsDecode : Obligations.SampleWordsDecode :=
  ⟨decode_encode (i := .add 2 0 1) rfl, decode_encode (i := .li 3 0x1234) rfl,
    decode_encode (i := .divmod 2 3 0 1) rfl, decode_encode (i := .setbit 4 1 true) rfl,
    decode_encode (i := .fmt 5 2 0 1 2) rfl, decode_encode (i := .cmp 0 1 0) rfl,
    decode_encode (i := .rdle 1 0 1) rfl⟩

end Sys2Proof.Machine
end

section
/-! The control and move commands: their words, what each writes, and that nothing else changes
(spec/40_control_move.md R90 to R95). -/

namespace Sys2Proof

/-! ### Command words (30_encoding.md R71, R72) -/

/-- The number of a format R word that uses two register fields. -/
theorem toNat_formatR_two (op : BitVec 8) (r1 r2 : Fin 16) :
    (formatR op (regField r1) (regField r2) 0 0 0).toNat = op.toNat * 2 ^ 24 + r1.val * 2 ^ 20 + r2.val * 2 ^ 16 := by
  simp [toNat_formatR]

/-- The number of a format I word that names one register. -/
theorem toNat_formatI_reg (op : BitVec 8) (r : Fin 16) (imm : BitVec 16) :
    (formatI op (regField r) imm).toNat = op.toNat * 2 ^ 24 + r.val * 2 ^ 20 + imm.toNat := by
  rw [toNat_formatI, toNat_regField]

end Sys2Proof

namespace Sys2Proof.Machine

/-! ### Scalars and literals as numbers -/

/-- A zero-extended literal as `LI` and `LIH` name it (30_encoding.md R78). -/
theorem immScalar_eq_ofNat (imm : BitVec 16) : immScalar imm = BitVec.ofNat 64 imm.toNat :=
  (BitVec.ofNat_toNat 64 imm).symm

/-- What `LIH` writes, as the rule computes it on numbers (40_control_move.md R93). -/
theorem shiftIn_eq_ofNat (v : Scalar) (imm : BitVec 16) :
    shiftIn v imm = BitVec.ofNat 64 ((v.toNat * 2 ^ 16) % 2 ^ 64 + imm.toNat) := by
  refine BitVec.eq_of_toNat_eq ?_
  rw [shiftIn, immScalar_eq_ofNat]
  simp [Nat.shiftLeft_eq]

/-- The two halves of a 64-bit number are its value in words (00_scope.md R12). -/
theorem val_lo32_hi32 (v : Scalar) : val [lo32 v, hi32 v] = v.toNat := by
  have hv := v.isLt
  simp only [val_cons, val_nil, lo32, hi32, BitVec.extractLsb'_toNat, Nat.shiftRight_eq_div_pow]
  omega

/-- The words of a 64-bit number are its two halves, trimmed (40_control_move.md R95). -/
theorem words_toNat_eq_trim (v : Scalar) : words v.toNat = trim [lo32 v, hi32 v] :=
  eq_of_val_eq _ _ (trimmed_words _) (trimmed_trim _) (by rw [val_words, val_trim, val_lo32_hi32])

/-- A 64-bit number has at most two words (40_control_move.md R95). -/
theorem length_words_toNat_le (v : Scalar) : (words v.toNat).length ≤ 2 :=
  (length_words_le_iff v.toNat 2).2 v.isLt

/-! ### The obligations -/

/-- Settles O1: NOP is completion alone. -/
theorem nopChangesOnlyTheCounter : Obligations.NopChangesOnlyTheCounter := by
  refine ⟨rfl, decode_encode (i := .nop) rfl, fun s => ⟨s.complete, rfl, ?_, ?_, ?_, ?_⟩⟩
  · exact s.complete_readB
  · exact s.complete_readS
  · exact s.complete_readByte
  · exact completed_complete s s rfl rfl (sameControl_refl s)

/-- Settles O2: HALT writes the run state alone, and a step is enabled only in `RUN`. -/
theorem haltStopsTheRun : Obligations.HaltStopsTheRun := by
  refine ⟨rfl, fun s => ⟨s.setRS .halted, rfl, s.setRS_rs .halted, RunState.code_lt .halted, rfl, rfl,
    s.setRS_readB .halted, s.setRS_readS .halted, s.setRS_readByte .halted, rfl, rfl, rfl, rfl, rfl, fun u hu => ?_⟩⟩
  have hrun : (s.setRS .halted).rs = .run := (step_ends hu).1
  rw [State.setRS_rs] at hrun
  exact nomatch hrun

/-- Settles O3: one write to `S[d]`, of the literal for LI and of the shifted-in literal for LIH. -/
theorem liAndLihLoadALiteral : Obligations.LiAndLihLoadALiteral := by
  refine fun d imm s => ⟨toNat_formatI_reg 0x02 d imm, toNat_formatI_reg 0x03 d imm, ⟨_, rfl, ?_⟩, ⟨_, rfl, ?_⟩⟩
  · rw [← immScalar_eq_ofNat]
    exact wroteS_complete s d (immScalar imm)
  · rw [State.natS, ← shiftIn_eq_ofNat]
    exact wroteS_complete s d (shiftIn (s.readS d) imm)

/-- Settles O4: one write to `B[d]`; the words of a scalar are its two halves without leading zero words. -/
theorem movAndSetuFillABuffer : Obligations.MovAndSetuFillABuffer := by
  refine fun d a c s => ⟨toNat_formatR_two 0x04 d a, toNat_formatR_two 0x05 d c,
    ⟨_, rfl, wroteB_complete s d (s.readB a)⟩, ?_⟩
  have hwrote : WroteB d (words (s.natS c)) s _ := wroteB_complete s d (words (s.natS c))
  refine ⟨_, rfl, hwrote, ?_, ?_⟩ <;> rw [hwrote.dest, State.natS]
  · exact length_words_toNat_le (s.readS c)
  · exact words_toNat_eq_trim (s.readS c)

end Sys2Proof.Machine
end

section
/-! The functions of the word buffer and the query commands: `trim`, `compare`, bit length, population count and byte
length as facts about the number a buffer stands for (spec/41_word_buffer_query.md R110 to R121). -/

namespace Sys2Proof

/-! ### Command words (30_encoding.md R71) -/

/-- The number of a format R word that uses three register fields. -/
theorem toNat_formatR_three (op : BitVec 8) (r1 r2 r3 : Fin 16) :
    (formatR op (regField r1) (regField r2) (regField r3) 0 0).toNat =
      op.toNat * 2 ^ 24 + r1.val * 2 ^ 20 + r2.val * 2 ^ 16 + r3.val * 2 ^ 12 := by
  simp [toNat_formatR]

end Sys2Proof

namespace Sys2Proof.Machine

/-! ### Trim (41_word_buffer_query.md R110) -/

/-- `trim` gives the one trimmed sequence of the same value. -/
theorem trim_eq_words_val (w : Buf) : trim w = words (val w) := by
  rw [← val_trim, words_val _ (trimmed_trim w)]

theorem trim_of_trimmed {w : Buf} (h : Trimmed w) : trim w = w := by
  rw [trim_eq_words_val, words_val w h]

/-- What `trim` keeps is the low part of the sequence. -/
theorem trim_prefix (w : Buf) : trim w <+: w := by
  induction w with
  | nil => exact List.prefix_rfl
  | cons x xs ih =>
    rw [trim]
    split
    · exact List.nil_prefix
    · exact (List.prefix_cons_inj x).2 ih

/-- Reading a word with zero beyond the end does not see `trim` (00_scope.md R10). -/
theorem wd_trim (w : Buf) (i : Nat) : wd (trim w) i = wd w i := by
  induction w generalizing i with
  | nil => rfl
  | cons x xs ih =>
    rw [trim]
    split
    next h =>
      obtain ⟨hnil, rfl⟩ := h
      cases i with
      | zero => simp
      | succ i => simp [← ih, hnil]
    next =>
      cases i with
      | zero => simp
      | succ i => simp [ih]

theorem wd_of_length_le {w : Buf} {i : Nat} (h : w.length ≤ i) : wd w i = 0 :=
  List.getD_eq_default w 0 h

/-- A sequence of zero words stands for 0. -/
theorem val_eq_zero_of_wd {w : Buf} (h : ∀ i, wd w i = 0) : val w = 0 :=
  Nat.eq_of_testBit_eq fun i => by simp [testBit_val, bit, h]

/-! ### Compare (41_word_buffer_query.md R116) -/

/-- The value of the low `n + 1` words. -/
theorem val_take_succ (w : Buf) (n : Nat) :
    val (w.take (n + 1)) = val (w.take n) + 2 ^ (32 * n) * (wd w n).toNat := by
  induction w generalizing n with
  | nil => simp
  | cons x xs ih =>
    cases n with
    | zero => simp
    | succ n =>
      rw [List.take_succ_cons, List.take_succ_cons, val_cons, val_cons, ih, wd_cons_succ, Nat.mul_add 32 n 1,
        Nat.pow_add]
      ring

theorem val_take_lt (w : Buf) (n : Nat) : val (w.take n) < 2 ^ (32 * n) :=
  lt_of_lt_of_le (val_lt _) (Nat.pow_le_pow_right (by norm_num) (Nat.mul_le_mul_left 32 (List.length_take_le n w)))

/-- A difference in the high part decides the order. -/
theorem low_add_high_lt {p x y m n : Nat} (hx : x < p) (hmn : m < n) : x + p * m < y + p * n := by
  have h : p * (m + 1) ≤ p * n := Nat.mul_le_mul_left p hmn
  rw [Nat.mul_succ] at h
  omega

/-- The word comparison gives the order of the values of the low `n` words. -/
theorem compareFrom_eq_sign (a b : Buf) (n : Nat) :
    compareFrom a b n = ((val (a.take n) : Int) - val (b.take n)).sign := by
  induction n with
  | zero => rfl
  | succ n ih =>
    have ha := val_take_lt a n
    have hb := val_take_lt b n
    rw [compareFrom, val_take_succ, val_take_succ]
    split
    next hlt =>
      have h := low_add_high_lt (y := val (b.take n)) ha hlt
      exact (Int.sign_eq_neg_one_of_neg (by omega)).symm
    next hge =>
      split
      next hlt =>
        have h := low_add_high_lt (y := val (a.take n)) hb hlt
        exact (Int.sign_eq_one_of_pos (by omega)).symm
      next hle =>
        have heq : (wd a n).toNat = (wd b n).toNat := by omega
        rw [ih, heq]
        congr 1
        omega

/-- The shorter of two trimmed sequences has the smaller value. -/
theorem val_lt_of_length_lt {a b : Buf} (hb : Trimmed b) (h : a.length < b.length) : val a < val b := by
  have hle : ¬ b.length ≤ a.length := Nat.not_le.2 h
  rw [length_le_iff_of_trimmed b hb] at hle
  exact lt_of_lt_of_le (val_lt a) (Nat.le_of_not_lt hle)

/-- On trimmed sequences `compare` is the sign of the difference of the values. -/
theorem compareBuf_eq_sign {a b : Buf} (ha : Trimmed a) (hb : Trimmed b) :
    compareBuf a b = ((val a : Int) - val b).sign := by
  unfold compareBuf
  split
  next hlt =>
    have h := val_lt_of_length_lt hb hlt
    exact (Int.sign_eq_neg_one_of_neg (by omega)).symm
  next hge =>
    split
    next hlt =>
      have h := val_lt_of_length_lt ha hlt
      exact (Int.sign_eq_one_of_pos (by omega)).symm
    next hle =>
      rw [compareFrom_eq_sign, List.take_length, List.take_of_length_le (Nat.le_of_not_lt hge)]

/-- `compare` of trimmed operands, sign-extended to a scalar (41_word_buffer_query.md R118). -/
theorem ofInt_compareBuf {a b : Buf} (ha : Trimmed a) (hb : Trimmed b) :
    BitVec.ofInt 64 (compareBuf a b) =
      if val a < val b then 0xFFFFFFFFFFFFFFFF else if val a = val b then 0 else 1 := by
  rw [compareBuf_eq_sign ha hb]
  split
  next hlt => rw [Int.sign_eq_neg_one_of_neg (by omega)]; rfl
  next hge =>
    split
    next heq => rw [heq, Int.sub_self]; rfl
    next hne => rw [Int.sign_eq_one_of_pos (by omega)]; rfl

/-! ### Byte length (41_word_buffer_query.md R115) -/

/-- A non-zero word needs its bit length in bytes, rounded up. -/
theorem topBytes_eq {t : Word} (ht : t ≠ 0) : topBytes t = (topPosition t + 7) / 8 := by
  have hpos : t.toNat ≠ 0 := fun h => ht (BitVec.eq_of_toNat_eq h)
  have h8 := Nat.log2_lt (k := 8) hpos
  have h16 := Nat.log2_lt (k := 16) hpos
  have h24 := Nat.log2_lt (k := 24) hpos
  have h32 := (Nat.log2_lt (k := 32) hpos).2 t.isLt
  rw [topPosition, if_neg ht, topBytes]
  split_ifs <;> omega

/-- The byte length of a trimmed sequence is its bit length in bytes, rounded up. -/
theorem bytes_eq {w : Buf} (h : Trimmed w) : bytes w = (bits w + 7) / 8 := by
  cases hlast : w.getLast? with
  | none => simp [bytes, bits, hlast]
  | some t =>
    have ht : t ≠ 0 := fun h0 => h (hlast.trans (congrArg some h0))
    simp only [bytes, bits, hlast, topBytes_eq ht]
    omega

/-- `bytes` of a trimmed sequence is the least `n` with value below `2^(8n)`. -/
theorem val_lt_two_pow_iff_bytes {w : Buf} (h : Trimmed w) (n : Nat) : val w < 2 ^ (8 * n) ↔ bytes w ≤ n := by
  rw [val_lt_two_pow_iff_bits w h, bytes_eq h]
  omega

/-! ### Population count (41_word_buffer_query.md R114) -/

/-- The lowest binary digit and the digits above it. -/
theorem count_bits_eq_add (v : Nat) :
    v.bits.count true = (v / 2).bits.count true + if v.testBit 0 then 1 else 0 := by
  rcases Nat.even_or_odd' v with ⟨k, rfl | rfl⟩
  · by_cases hk : k = 0
    · simp [hk]
    · simp [Nat.bit0_bits k hk]
  · have hdiv : (2 * k + 1) / 2 = k := by omega
    simp [Nat.bit1_bits, hdiv]

/-- The 1 digits of a numeral are counted at its bit positions. -/
theorem count_bits_eq_countP (n v : Nat) (h : v < 2 ^ n) :
    v.bits.count true = (List.range n).countP v.testBit := by
  induction n generalizing v with
  | zero =>
    have hv : v = 0 := by simpa using h
    simp [hv]
  | succ n ih =>
    have hshift : v.testBit ∘ Nat.succ = (v / 2).testBit := funext (Nat.testBit_succ v)
    rw [count_bits_eq_add, ih (v / 2) (by omega), List.range_succ_eq_map, List.countP_cons, List.countP_map, hshift]

/-- `bits_set` counts at the bit positions of the value, 32 in each word. -/
theorem bitsSet_eq_countP (w : Buf) : bitsSet w = (List.range (32 * w.length)).countP (val w).testBit := by
  induction w with
  | nil => rfl
  | cons x xs ih =>
    have hbit := Nat.testBit_two_pow_mul_add (val xs) x.isLt
    have hlow : (List.range 32).countP (val (x :: xs)).testBit = onesInWord x :=
      List.countP_congr fun i hi => by
        rw [val_cons, Nat.add_comm, hbit, if_pos (List.mem_range.1 hi), BitVec.getLsbD]
    have hhigh : (val (x :: xs)).testBit ∘ (32 + ·) = (val xs).testBit :=
      funext fun i => by simp [val_cons, Nat.add_comm x.toNat, hbit]
    rw [List.length_cons, Nat.mul_succ, Nat.add_comm (32 * xs.length), List.range_add, List.countP_append, hlow,
      List.countP_map, hhigh, ← ih]
    rfl

/-- `bits_set` counts the 1 digits of the value. -/
theorem bitsSet_eq_count_bits (w : Buf) : bitsSet w = (val w).bits.count true := by
  rw [bitsSet_eq_countP, ← count_bits_eq_countP _ _ (val_lt w)]

theorem bitsSet_le (w : Buf) : bitsSet w ≤ 32 * w.length := by
  rw [bitsSet_eq_countP]
  exact List.countP_le_length.trans_eq List.length_range

/-! ### The obligations -/

/-- Settles O37: every end of a command keeps the registers trimmed and within `CAP` words, and that is part of the
invariant of the reachable states. -/
theorem commandsKeepRegistersTrimmed : Obligations.CommandsKeepRegistersTrimmed :=
  ⟨fun i s t hp h hx => exec_keeps_regsOk i s hp h t hx, fun _ h => (inv_of_reachable h).regsOk⟩

/-- Settles O43: what is left of `w` is a trimmed prefix that reads the same at every index. -/
theorem trimRemovesHighZeroWords : Obligations.TrimRemovesHighZeroWords := by
  refine fun w => ⟨trim_eq_words_val w, trimmed_trim w, trim_of_trimmed (trimmed_trim w),
    List.prefix_iff_eq_take.1 (trim_prefix w), fun i hi => ?_, fun hw => ?_⟩
  · rw [← wd_trim, wd_of_length_le hi]
  · rw [trim_eq_words_val, val_eq_zero_of_wd hw, words_zero]

/-- Settles O44: `compare` is the sign of the difference of the values, and trimmed sequences of one value are equal. -/
theorem compareAgreesWithTheNumericOrder : Obligations.CompareAgreesWithTheNumericOrder := by
  intro a b ha hb
  have hzero : compareBuf a b = 0 ↔ val a = val b := by
    rw [compareBuf_eq_sign ha hb, Int.sign_eq_zero_iff_zero]
    omega
  refine ⟨?_, hzero, ?_, hzero.trans ⟨eq_of_val_eq a b ha hb, congrArg val⟩⟩
  · rw [compareBuf_eq_sign ha hb, Int.sign_eq_neg_one_iff_neg]
    omega
  · rw [compareBuf_eq_sign ha hb, Int.sign_eq_one_iff_pos]
    omega

/-- Settles O5: one write to `S[d]`, of the order of the two values. -/
theorem cmpGivesTheThreeValuedOrder : Obligations.CmpGivesTheThreeValuedOrder := by
  refine fun d a b s => ⟨toNat_formatR_three 0x13 d a b, fun ha hb => ⟨_, rfl, ?_⟩⟩
  exact ofInt_compareBuf ha hb ▸ wroteS_complete s d _

/-- Settles O6: one write to `S[d]` each; none of the three results is above `32·CAP`, which is below `2^63`. -/
theorem queriesGiveBitsOnesAndBytes : Obligations.QueriesGiveBitsOnesAndBytes := by
  refine fun d a s => ⟨toNat_formatR_two 0x10 d a, toNat_formatR_two 0x11 d a, toNat_formatR_two 0x12 d a,
    fun hinv (hcap : 32 * s.params.cap < 2 ^ 63) => ?_⟩
  have ht : Trimmed (s.readB a) := hinv.trimmed a
  have hbits := val_lt_two_pow_iff_bits _ ht
  have hbytes := val_lt_two_pow_iff_bytes ht
  have hbitsLe : bits (s.readB a) ≤ 32 * s.params.cap := (hbits _).1 (hinv.regsOk.valB_lt a)
  have honesLe : bitsSet (s.readB a) ≤ 32 * s.params.cap :=
    (bitsSet_le _).trans (Nat.mul_le_mul_left 32 (hinv.fits a))
  have hbytesLe : bytes (s.readB a) ≤ bits (s.readB a) := by rw [bytes_eq ht]; omega
  exact ⟨⟨_, _, rfl, wroteS_complete s d _, by omega, (hbits _).2 le_rfl, fun m => (hbits m).1⟩,
    ⟨_, _, rfl, wroteS_complete s d _, by omega, bitsSet_eq_count_bits _⟩,
    ⟨_, _, rfl, wroteS_complete s d _, by omega, (hbytes _).2 le_rfl, fun m => (hbytes m).1⟩⟩

end Sys2Proof.Machine
end

section
/-! The arithmetic commands: their words, the number each writes, and the fault it raises instead
(spec/42_arithmetic.md R131 to R142). -/

namespace Sys2Proof

/-! ### Command words (30_encoding.md R71) -/

/-- The number of a format R word that uses four register fields. -/
theorem toNat_formatR_four (op : BitVec 8) (r1 r2 r3 r4 : Fin 16) :
    (formatR op (regField r1) (regField r2) (regField r3) (regField r4) 0).toNat =
      op.toNat * 2 ^ 24 + r1.val * 2 ^ 20 + r2.val * 2 ^ 16 + r3.val * 2 ^ 12 + r4.val * 2 ^ 8 := by
  simp [toNat_formatR]

end Sys2Proof

namespace Sys2Proof.Machine

/-! ### The ends of a command, with what they change -/

theorem raised_takesFault (f : Cause) (i : Instr) (s : State) :
    ∃ t, raised f i s = .next t ∧ FaultTaken f (encode i) s t :=
  ⟨_, rfl, faultTaken_raise s f (encode i)⟩

theorem finishFitting_writes (d : BReg) (v : Nat) (s : State) :
    ∃ t, finishFitting d v s = .next t ∧ WroteB d (words v) s t :=
  ⟨_, rfl, wroteB_complete s d (words v)⟩

theorem finishB_writes (i : Instr) (d : BReg) {v : Nat} {s : State} (h : v < 2 ^ (32 * s.params.cap)) :
    ∃ t, finishB i d v s = .next t ∧ WroteB d (words v) s t :=
  ⟨_, finishB_fits i d v s h, wroteB_complete s d (words v)⟩

theorem finishB_takesFault (i : Instr) (d : BReg) {v : Nat} {s : State} (h : 2 ^ (32 * s.params.cap) ≤ v) :
    ∃ t, finishB i d v s = .next t ∧ FaultTaken .capOverflow (encode i) s t :=
  ⟨_, finishB_overflows i d v s h, faultTaken_raise s .capOverflow (encode i)⟩

/-- Fault entry leaves the index, so it is no completion (10_state.md R31). -/
theorem FaultTaken.not_completed {f : Cause} {w : Word} {s t : State} (h : FaultTaken f w s t) : ¬ Completed s t := by
  intro hc
  have hk := hc.k
  rw [h.k] at hk
  omega

theorem WroteB.valB_dest {d : BReg} {v : Nat} {s t : State} (h : WroteB d (words v) s t) : t.valB d = v := by
  rw [State.valB, h.dest, val_words]

/-- A number written under the capacity check is there when the command has completed. -/
theorem wroteB_of_finishB {i : Instr} {d : BReg} {v : Nat} {s t : State} (hx : finishB i d v s = .next t)
    (hc : Completed s t) : WroteB d (words v) s t := by
  by_cases hv : v < 2 ^ (32 * s.params.cap)
  · obtain ⟨u, hu, hw⟩ := finishB_writes i d hv
    cases Host.Outcome.next.inj (hx.symm.trans hu)
    exact hw
  · obtain ⟨u, hu, hf⟩ := finishB_takesFault i d (Nat.le_of_not_lt hv)
    cases Host.Outcome.next.inj (hx.symm.trans hu)
    exact absurd hc hf.not_completed

/-! ### The commands by the values of their operands -/

/-- The test of `SUB` is the comparison of the two values (60_exceptions.md R254). -/
theorem compareBuf_eq_neg_one_iff {a b : Buf} (ha : Trimmed a) (hb : Trimmed b) :
    compareBuf a b = -1 ↔ val a < val b :=
  (compareAgreesWithTheNumericOrder a b ha hb).1

theorem exec_sub_of_le {d a b : BReg} {s : State} (ha : Trimmed (s.readB a)) (hb : Trimmed (s.readB b))
    (h : s.valB b ≤ s.valB a) : exec (.sub d a b) s = finishFitting d (s.valB a - s.valB b) s :=
  if_neg fun hc => absurd ((compareBuf_eq_neg_one_iff ha hb).1 hc) (Nat.not_lt.2 h)

theorem exec_sub_of_lt {d a b : BReg} {s : State} (ha : Trimmed (s.readB a)) (hb : Trimmed (s.readB b))
    (h : s.valB a < s.valB b) : exec (.sub d a b) s = raised .subUnderflow (.sub d a b) s :=
  if_pos ((compareBuf_eq_neg_one_iff ha hb).2 h)

/-- The test of the division commands is whether the divisor is zero (42_arithmetic.md R139). -/
theorem valB_eq_zero_iff {s : State} {b : BReg} (hb : Trimmed (s.readB b)) : s.valB b = 0 ↔ s.readB b = [] :=
  val_eq_zero_of_trimmed (s.readB b) hb

/-- What `DIVMOD` leaves when its divisor is not empty: both results of the old operands. -/
def State.divmodDone (s : State) (q r a b : BReg) : State :=
  ((s.writeB q (words (s.valB a / s.valB b))).writeB r (words (s.valB a % s.valB b))).complete

theorem exec_divmod_of_ne_nil {q r a b : BReg} {s : State} (h : s.readB b ≠ []) :
    exec (.divmod q r a b) s = .next (s.divmodDone q r a b) := if_neg h

theorem exec_divmod_of_eq_nil {q r a b : BReg} {s : State} (h : s.readB b = []) :
    exec (.divmod q r a b) s = raised .divZero (.divmod q r a b) s := if_pos h

theorem State.divmodDone_readB_quotient (s : State) {q r : BReg} (a b : BReg) (h : q ≠ r) :
    (s.divmodDone q r a b).readB q = words (s.valB a / s.valB b) := by
  simp [State.divmodDone, h]

theorem State.divmodDone_readB_remainder (s : State) (q r a b : BReg) :
    (s.divmodDone q r a b).readB r = words (s.valB a % s.valB b) := by
  simp [State.divmodDone]

/-- The early overflow answer of `POW` is the one that the capacity check would give (42_arithmetic.md R142). -/
theorem exec_pow_eq_finishB (d a e : BReg) (s : State) :
    exec (.pow d a e) s = finishB (.pow d a e) d (s.valB a ^ s.valB e) s := by
  rw [exec, execPow, power_eq_pow]
  split
  next h =>
    obtain ⟨hbase, hexp⟩ := h
    have hbig : 2 ^ (32 * s.params.cap) ≤ s.valB a ^ s.valB e :=
      calc 2 ^ (32 * s.params.cap) ≤ 2 ^ s.valB e := Nat.pow_le_pow_right two_pos hexp
        _ ≤ s.valB a ^ s.valB e := Nat.pow_le_pow_left hbase _
    rw [finishB_overflows _ _ _ _ hbig, raised]
  next => rfl

/-! ### The obligations -/

/-- Settles O7: both commands end in the capacity check. -/
theorem addAndMulWriteTheResultOrOverflow : Obligations.AddAndMulWriteTheResultOrOverflow :=
  fun d a b _ => ⟨toNat_formatR_three 0x20 d a b, toNat_formatR_three 0x22 d a b, finishB_writes (.add d a b) d,
    finishB_takesFault (.add d a b) d, finishB_writes (.mul d a b) d, finishB_takesFault (.mul d a b) d⟩

/-- Settles O8: `compare` of trimmed operands decides between the difference and the fault. -/
theorem subWritesTheDifferenceOrUnderflows : Obligations.SubWritesTheDifferenceOrUnderflows := by
  refine fun d a b s => ⟨toNat_formatR_three 0x21 d a b, fun ha hb => ⟨fun h => ?_, fun h => ?_⟩⟩
  · rw [exec_sub_of_le ha hb h]
    exact finishFitting_writes d _ s
  · rw [exec_sub_of_lt ha hb h]
    exact raised_takesFault .subUnderflow _ s

/-- Settles O9: a trimmed divisor is empty exactly when it is zero, and the two results are those of division on
numbers. -/
theorem divAndModFollowTheContract : Obligations.DivAndModFollowTheContract := by
  refine fun d a b s => ⟨toNat_formatR_three 0x23 d a b, toNat_formatR_three 0x24 d a b,
    fun hb => ⟨fun h => ?_, fun h => ?_⟩⟩
  · have hne : s.readB b ≠ [] := fun hnil => h ((valB_eq_zero_iff hb).2 hnil)
    have hdiv := wroteB_complete s d (words (s.valB a / s.valB b))
    have hmod := wroteB_complete s d (words (s.valB a % s.valB b))
    refine ⟨_, _, if_neg hne, if_neg hne, hdiv, hmod, ?_, ?_⟩
    · rw [hdiv.valB_dest, hmod.valB_dest]
      exact Nat.div_add_mod' _ _
    · rw [hmod.valB_dest]
      exact Nat.mod_lt _ (Nat.pos_of_ne_zero h)
  · have hnil : s.readB b = [] := (valB_eq_zero_iff hb).1 h
    exact ⟨⟨_, if_pos hnil, faultTaken_raise _ _ _⟩, ⟨_, if_pos hnil, faultTaken_raise _ _ _⟩⟩

/-- Settles O10: both values are computed before the first of the two writes. -/
theorem divmodWritesBothResults : Obligations.DivmodWritesBothResults := by
  refine fun q r a b s => ⟨toNat_formatR_four 0x25 q r a b, bne_iff_ne, fun hqr hb => ⟨fun h => ?_, fun h => ?_⟩⟩
  · have hne : s.readB b ≠ [] := fun hnil => h ((valB_eq_zero_iff hb).2 hnil)
    exact ⟨_, exec_divmod_of_ne_nil hne, s.divmodDone_readB_quotient a b hqr, s.divmodDone_readB_remainder q r a b,
      fun i hq hr => by simp [State.divmodDone, hq, hr], fun _ => rfl, fun _ => rfl,
      completed_complete _ _ rfl rfl ⟨rfl, rfl, rfl, rfl, rfl, rfl⟩⟩
  · rw [exec_divmod_of_eq_nil ((valB_eq_zero_iff hb).1 h)]
    exact raised_takesFault .divZero _ s

/-- Settles O11: the command ends in the capacity check of the plain power. -/
theorem powWritesThePowerOrOverflows : Obligations.PowWritesThePowerOrOverflows := by
  refine fun d a e s => ⟨toNat_formatR_three 0x26 d a e, fun h => ?_, fun h => ?_⟩ <;> rw [exec_pow_eq_finishB]
  · exact finishB_writes _ d h
  · exact finishB_takesFault _ d h

/-- Settles O57: the sum is still trimmed and at least the operand that `ADD` has kept; the division law is that of
numbers. -/
theorem addThenSubAndDivisionLaws : Obligations.AddThenSubAndDivisionLaws := by
  refine ⟨fun s t d a b e hinv hdb hx hc => ?_, fun s t q r a b hinv hqr hx hc => ?_⟩
  · have hadd : WroteB d (words (s.valB a + s.valB b)) s t := wroteB_of_finishB hx hc
    have hb : t.readB b = s.readB b := hadd.bRest b hdb.symm
    have hvb : t.valB b = s.valB b := congrArg val hb
    have hvd : t.valB d = s.valB a + s.valB b := hadd.valB_dest
    have hsub : exec (.sub e d b) t = finishFitting e (t.valB d - t.valB b) t :=
      exec_sub_of_le (hadd.dest ▸ trimmed_words _) (hb ▸ hinv.trimmed b) (by omega)
    obtain ⟨u, hu, hw⟩ := finishFitting_writes e (t.valB d - t.valB b) t
    refine ⟨u, hsub.trans hu, hw.completed, ?_⟩
    rw [hw.dest, hvd, hvb, Nat.add_sub_cancel]
    exact words_val _ (hinv.trimmed a)
  · have hne : s.readB b ≠ [] := by
      intro hnil
      cases Host.Outcome.next.inj (hx.symm.trans (exec_divmod_of_eq_nil hnil))
      exact (faultTaken_raise _ _ _).not_completed hc
    have hpos : 0 < s.valB b :=
      Nat.pos_of_ne_zero fun h => hne ((valB_eq_zero_iff (hinv.trimmed b)).1 h)
    cases Host.Outcome.next.inj (hx.symm.trans (exec_divmod_of_ne_nil hne))
    have hq : (s.divmodDone q r a b).valB q = s.valB a / s.valB b := by
      rw [State.valB, s.divmodDone_readB_quotient a b hqr, val_words]
    have hr : (s.divmodDone q r a b).valB r = s.valB a % s.valB b := by
      rw [State.valB, s.divmodDone_readB_remainder, val_words]
    rw [hq, hr]
    exact ⟨Nat.div_add_mod' _ _, Nat.mod_lt _ hpos⟩

end Sys2Proof.Machine
end

section
/-! The adder and the subtractor, word position by word position: the carry and the borrow are what passes from the
value of one position to the value of the positions above it (spec/42_arithmetic.md R132, R134). -/

namespace Sys2Proof.Machine

/-! ### The 64-bit accumulator (00_scope.md R6, R12) -/

@[simp] theorem toNat_acc (w : Word) : (acc w).toNat = w.toNat := by
  have hw := w.isLt
  rw [acc, BitVec.toNat_setWidth]
  omega

/-- A 64-bit value is its low word and its high word. -/
theorem lo32_add_hi32 (v : Acc) : (lo32 v).toNat + 2 ^ 32 * (hi32 v).toNat = v.toNat := by
  simpa using val_lo32_hi32 v

/-- Three words never overflow the accumulator. -/
theorem toNat_acc_add_acc_add_acc (x y z : Word) : (acc x + acc y + acc z).toNat = x.toNat + y.toNat + z.toNat := by
  have hx := x.isLt
  have hy := y.isLt
  have hz := z.isLt
  simp only [BitVec.toNat_add, toNat_acc]
  omega

/-! ### Word sequences from one position on -/

/-- The words from position `i` on: word `i`, and the words above it. -/
theorem val_drop (w : Buf) (i : Nat) : val (w.drop i) = (wd w i).toNat + 2 ^ 32 * val (w.drop (i + 1)) := by
  induction w generalizing i with
  | nil => simp
  | cons x xs ih =>
    cases i with
    | zero => simp
    | succ i => simpa using ih i

theorem trimmed_drop {w : Buf} (h : Trimmed w) (i : Nat) : Trimmed (w.drop i) := by
  rw [Trimmed, List.getLast?_drop]
  split
  · simp
  · exact h

/-- The words of a trimmed sequence from position `i` on stand for 0 only when there are none. -/
theorem val_drop_eq_zero_iff {w : Buf} (h : Trimmed w) (i : Nat) : val (w.drop i) = 0 ↔ w.length ≤ i := by
  rw [val_eq_zero_of_trimmed _ (trimmed_drop h i), List.drop_eq_nil_iff]

/-- A word below a trimmed sequence leaves it trimmed when the whole is not zero. -/
theorem trimmed_cons_of_val_ne_zero {w : Word} {ws : Buf} (h : Trimmed ws) (hv : val (w :: ws) ≠ 0) :
    Trimmed (w :: ws) := by
  refine (trimmed_cons w ws).2 ⟨h, ?_⟩
  rintro rfl rfl
  exact hv rfl

/-! ### Adder (42_arithmetic.md R132) -/

/-- From position `i` on the adder gives the sum of what stands there and the carry. -/
theorem val_addFrom (a b : Buf) (n i : Nat) (c : Word) (ha : a.length ≤ i + n) (hb : b.length ≤ i + n) :
    val (addFrom a b n i c) = val (a.drop i) + val (b.drop i) + c.toNat := by
  induction n generalizing i c with
  | zero =>
    have hda : a.drop i = [] := List.drop_of_length_le ha
    have hdb : b.drop i = [] := List.drop_of_length_le hb
    rw [hda, hdb, addFrom]
    split
    next => simp
    next hc => simp [not_not.1 hc]
  | succ n ih =>
    have hstep := lo32_add_hi32 (acc (wd a i) + acc (wd b i) + acc c)
    rw [toNat_acc_add_acc_add_acc] at hstep
    rw [addFrom, val_cons, ih (i + 1) _ (by omega) (by omega), val_drop a i, val_drop b i]
    omega

/-- The adder needs no trim: from each position on the sum of trimmed sequences is trimmed. -/
theorem trimmed_addFrom {a b : Buf} (ha : Trimmed a) (hb : Trimmed b) (n i : Nat) (c : Word)
    (hn : i + n = max a.length b.length) : Trimmed (addFrom a b n i c) := by
  induction n generalizing i c with
  | zero =>
    rw [addFrom]
    split
    next hc => exact (trimmed_cons c []).2 ⟨by simp, fun _ => hc⟩
    next => simp
  | succ n ih =>
    have hsum := val_addFrom a b (n + 1) i c (by omega) (by omega)
    have hva := val_drop_eq_zero_iff ha i
    have hvb := val_drop_eq_zero_iff hb i
    exact trimmed_cons_of_val_ne_zero (ih (i + 1) _ (by omega)) fun (hzero : val (addFrom a b (n + 1) i c) = 0) => by
      omega

theorem val_adder (a b : Buf) : val (adder a b) = val a + val b := by
  simpa [adder] using val_addFrom a b (max a.length b.length) 0 0 (by omega) (by omega)

theorem adder_eq_words {a b : Buf} (ha : Trimmed a) (hb : Trimmed b) : adder a b = words (val a + val b) := by
  have ht : Trimmed (adder a b) := trimmed_addFrom ha hb _ 0 0 (Nat.zero_add _)
  rw [← val_adder, words_val _ ht]

/-! ### Subtractor (42_arithmetic.md R134) -/

/-- A position borrows when what it is to give exceeds its word. -/
theorem borrowOut_iff (x y : Word) (c : Bool) : borrowOut x y c = true ↔ x.toNat < y.toNat + c.toNat := by
  have heq : x = y ↔ x.toNat = y.toNat := BitVec.toNat_inj.symm
  cases c with
  | false => simp [borrowOut]
  | true => simp [borrowOut, heq, Nat.le_iff_lt_or_eq]

theorem toNat_borrowDiff (x y : Word) (c : Bool) :
    (borrowDiff x y c).toNat = (2 ^ 33 + x.toNat - y.toNat - c.toNat) % 2 ^ 32 := by
  have hx := x.isLt
  have hy := y.isLt
  have hc := c.toNat_le
  have hword : (if c then 1 else 0 : Word).toNat = c.toNat := by cases c <;> rfl
  rw [borrowDiff, BitVec.toNat_sub, BitVec.toNat_sub, hword]
  omega

/-- One position of the subtractor: what is missing is borrowed from the position above. -/
theorem borrowDiff_add (x y : Word) (c : Bool) :
    (borrowDiff x y c).toNat + y.toNat + c.toNat = x.toNat + 2 ^ 32 * (borrowOut x y c).toNat := by
  have hx := x.isLt
  have hy := y.isLt
  have hc := c.toNat_le
  rw [toNat_borrowDiff]
  by_cases hlt : x.toNat < y.toNat + c.toNat
  · rw [(borrowOut_iff x y c).2 hlt, Bool.toNat_true]
    omega
  · rw [Bool.eq_false_iff.2 (mt (borrowOut_iff x y c).1 hlt), Bool.toNat_false]
    omega

@[simp] theorem length_subFrom (a b : Buf) (n i : Nat) (c : Bool) : (subFrom a b n i c).1.length = n := by
  induction n generalizing i c with
  | zero => rfl
  | succ n ih => simp [subFrom, ih]

/-- From position `i` on: difference, subtrahend and borrow make up the minuend and what the final borrow adds. -/
theorem val_subFrom_add (a b : Buf) (n i : Nat) (c : Bool) (ha : a.length ≤ i + n) (hb : b.length ≤ i + n) :
    val (subFrom a b n i c).1 + val (b.drop i) + c.toNat =
      val (a.drop i) + 2 ^ (32 * n) * (subFrom a b n i c).2.toNat := by
  induction n generalizing i c with
  | zero =>
    have hda : a.drop i = [] := List.drop_of_length_le ha
    have hdb : b.drop i = [] := List.drop_of_length_le hb
    simp [subFrom, hda, hdb]
  | succ n ih =>
    have hstep := borrowDiff_add (wd a i) (wd b i) c
    have hrest := ih (i + 1) (borrowOut (wd a i) (wd b i) c) (by omega) (by omega)
    rw [val_drop a i, val_drop b i, subFrom, Nat.mul_succ, Nat.pow_add, val_cons]
    linarith

/-- The whole subtractor, with the borrow-out as a number of the words above. -/
theorem val_subtractor_add (a b : Buf) :
    val (subtractor a b).1 + val b = val a + 2 ^ (32 * max a.length b.length) * (subtractor a b).2.toNat := by
  simpa [subtractor] using val_subFrom_add a b (max a.length b.length) 0 false (by omega) (by omega)

theorem val_subtractor_lt (a b : Buf) : val (subtractor a b).1 < 2 ^ (32 * max a.length b.length) := by
  simpa [subtractor] using val_lt (subFrom a b (max a.length b.length) 0 false).1

/-- The borrow-out is the comparison of the values. -/
theorem subtractor_borrow_iff (a b : Buf) : (subtractor a b).2 = true ↔ val a < val b := by
  have hsum := val_subtractor_add a b
  have hdiff := val_subtractor_lt a b
  have hb : val b < 2 ^ (32 * max a.length b.length) :=
    (val_lt b).trans_le (Nat.pow_le_pow_right two_pos (by omega))
  cases hbo : (subtractor a b).2 with
  | false =>
    rw [hbo, Bool.toNat_false, Nat.mul_zero] at hsum
    simp only [Bool.false_eq_true, false_iff]
    omega
  | true =>
    rw [hbo, Bool.toNat_true, Nat.mul_one] at hsum
    simp only [true_iff]
    omega

theorem subtractor_eq_words {a b : Buf} (h : val b ≤ val a) : (subtractor a b).1 = words (val a - val b) := by
  have hsum := val_subtractor_add a b
  have hborrow : (subtractor a b).2 = false :=
    Bool.eq_false_iff.2 fun hbo => absurd ((subtractor_borrow_iff a b).1 hbo) (Nat.not_lt.2 h)
  rw [hborrow, Bool.toNat_false, Nat.mul_zero, Nat.add_zero] at hsum
  rw [← hsum, Nat.add_sub_cancel]
  exact (words_val _ (trimmed_trim _)).symm

/-! ### The obligations -/

/-- Settles O45: position by position the carry keeps the sum, and no zero word is left at the top. -/
theorem adderComputesTheSum : Obligations.AdderComputesTheSum := fun a b => ⟨val_adder a b, adder_eq_words⟩

/-- Settles O46: position by position the borrow keeps the difference, so what is borrowed at the end decides the
order. -/
theorem subtractorComputesTheDifference : Obligations.SubtractorComputesTheDifference :=
  fun a b => ⟨subtractor_borrow_iff a b, subtractor_eq_words⟩

end Sys2Proof.Machine
end

section
/-! The schoolbook multiplier. Every word it sets changes the value of the result sequence by a multiple of a power of
`2^32`, and a carry out of the last word falls away, so the work is followed modulo `2^(32·length)`; at the end both
sides are below that bound (spec/42_arithmetic.md R136). -/

namespace Sys2Proof.Machine

/-! ### Adding a number into the words of a result -/

/-- The words `r'` are as many as those of `r` and stand for `v` more, modulo what so many words can hold. -/
def AddsInto (v : Nat) (r r' : Buf) : Prop :=
  r'.length = r.length ∧ val r' ≡ val r + v [MOD 2 ^ (32 * r.length)]

theorem AddsInto.refl (r : Buf) : AddsInto 0 r r := ⟨rfl, Nat.ModEq.refl _⟩

theorem AddsInto.trans {v w : Nat} {r r' r'' : Buf} (h : AddsInto v r r') (h' : AddsInto w r' r'') :
    AddsInto (v + w) r r'' := by
  obtain ⟨hlen, hval⟩ := h
  obtain ⟨hlen', hval'⟩ := h'
  refine ⟨hlen'.trans hlen, ?_⟩
  rw [hlen] at hval'
  rw [← Nat.add_assoc]
  exact hval'.trans (hval.add_right w)

/-- Steps that add one number each add the sum of the numbers. -/
theorem AddsInto.foldl {f : Buf → Nat → Buf} {g : Nat → Nat} (xs : List Nat)
    (h : ∀ x ∈ xs, ∀ r, AddsInto (g x) r (f r x)) (r : Buf) : AddsInto (xs.map g).sum r (xs.foldl f r) := by
  induction xs generalizing r with
  | nil => exact .refl r
  | cons x xs ih =>
    obtain ⟨hx, hxs⟩ := List.forall_mem_cons.1 h
    exact (hx r).trans (ih hxs (f r x))

/-- Replacing word `j`, said without subtraction. -/
theorem val_set_add {r : Buf} {j : Nat} (hj : j < r.length) (w : Word) :
    val (r.set j w) + 2 ^ (32 * j) * (wd r j).toNat = val r + 2 ^ (32 * j) * w.toNat := by
  induction r generalizing j with
  | nil => cases hj
  | cons x xs ih =>
    cases j with
    | zero =>
      simp only [List.set_cons_zero, val_cons, wd_cons_zero, Nat.mul_zero, Nat.pow_zero, Nat.one_mul]
      omega
    | succ j =>
      have h := ih (Nat.lt_of_succ_lt_succ hj)
      rw [List.set_cons_succ, val_cons, val_cons, wd_cons_succ, Nat.mul_succ, Nat.pow_add]
      linarith

/-- A multiple of the weight of a word beyond the last falls away. -/
theorem weight_mul_modEq_zero {n i : Nat} (h : n ≤ i) (x : Nat) : 2 ^ (32 * i) * x ≡ 0 [MOD 2 ^ (32 * n)] :=
  Nat.modEq_zero_iff_dvd.2 ((pow_dvd_pow 2 (Nat.mul_le_mul_left 32 h)).mul_right x)

/-- Setting word `j` to the low half of its sum with `x` adds `x` there, once the high half is carried on. -/
theorem val_set_lo32 {r : Buf} {j x : Nat} {t : Acc} (ht : t.toNat = (wd r j).toNat + x) :
    val (r.set j (lo32 t)) + 2 ^ (32 * (j + 1)) * (hi32 t).toNat ≡ val r + 2 ^ (32 * j) * x
      [MOD 2 ^ (32 * r.length)] := by
  by_cases hj : j < r.length
  · have hset := val_set_add hj (lo32 t)
    have hsplit : 2 ^ (32 * j) * ((lo32 t).toNat + 2 ^ 32 * (hi32 t).toNat) = 2 ^ (32 * j) * ((wd r j).toNat + x) := by
      rw [lo32_add_hi32, ht]
    have heq : val (r.set j (lo32 t)) + 2 ^ (32 * (j + 1)) * (hi32 t).toNat = val r + 2 ^ (32 * j) * x := by
      rw [Nat.mul_succ, Nat.pow_add]
      linarith
    rw [heq]
  · rw [List.set_eq_of_length_le (Nat.le_of_not_lt hj)]
    exact ((weight_mul_modEq_zero (by omega) _).trans (weight_mul_modEq_zero (by omega) _).symm).add_left (val r)

/-! ### The datapath, step by step (42_arithmetic.md R136) -/

theorem toNat_acc_add_acc (x y : Word) : (acc x + acc y).toNat = x.toNat + y.toNat := by
  simpa [acc] using toNat_acc_add_acc_add_acc x y 0

/-- The cascading carry adds the carry at its index. -/
theorem addsInto_cascade (n : Nat) (r : Buf) (j : Nat) (c : Word) (hn : r.length ≤ j + n) :
    AddsInto (2 ^ (32 * j) * c.toNat) r (cascade n r j c) := by
  induction n generalizing r j c with
  | zero => exact ⟨rfl, (weight_mul_modEq_zero hn c.toNat).symm.add_left (val r)⟩
  | succ n ih =>
    rw [cascade]
    split
    next hc =>
      rw [hc]
      exact .refl r
    next =>
      obtain ⟨hlen, hval⟩ := ih (r.set j (lo32 (acc (wd r j) + acc c))) (j + 1) (hi32 (acc (wd r j) + acc c))
        (by rw [List.length_set]; omega)
      rw [List.length_set] at hlen hval
      exact ⟨hlen, hval.trans (val_set_lo32 (toNat_acc_add_acc (wd r j) c))⟩

/-- One product is added at its index: its low half there, its high half with the carry at the next index, and the
last carry cascades. -/
theorem addsInto_accumulate (r : Buf) (k : Nat) (p : Acc) : AddsInto (2 ^ (32 * k) * p.toNat) r (accumulate r k p) := by
  unfold accumulate
  extract_lets t0 r0 t1
  have hlow := val_set_lo32 (toNat_acc_add_acc (wd r k) (lo32 p))
  have h1 : t1.toNat = (wd r0 (k + 1)).toNat + ((hi32 p).toNat + (hi32 t0).toNat) := by
    rw [← Nat.add_assoc]
    exact toNat_acc_add_acc_add_acc _ _ _
  have hhigh := val_set_lo32 h1
  have hlen0 : r0.length = r.length := List.length_set
  obtain ⟨hlen, hcarry⟩ := addsInto_cascade r.length (r0.set (k + 1) (lo32 t1)) (k + 2) (hi32 t1)
    (by rw [List.length_set, hlen0]; omega)
  rw [List.length_set, hlen0] at hlen hcarry
  rw [hlen0] at hhigh
  refine ⟨hlen, ?_⟩
  calc val (cascade r.length (r0.set (k + 1) (lo32 t1)) (k + 2) (hi32 t1))
    _ ≡ val r0 + 2 ^ (32 * (k + 1)) * ((hi32 p).toNat + (hi32 t0).toNat) [MOD 2 ^ (32 * r.length)] :=
      hcarry.trans hhigh
    _ = val r0 + 2 ^ (32 * (k + 1)) * (hi32 t0).toNat + 2 ^ (32 * (k + 1)) * (hi32 p).toNat := by ring
    _ ≡ val r + 2 ^ (32 * k) * (lo32 p).toNat + 2 ^ (32 * (k + 1)) * (hi32 p).toNat [MOD 2 ^ (32 * r.length)] :=
      hlow.add_right _
    _ = val r + 2 ^ (32 * k) * p.toNat := by
      rw [← lo32_add_hi32 p]
      ring

/-- Two words never overflow the accumulator in a product. -/
theorem toNat_acc_mul_acc (x y : Word) : (acc x * acc y).toNat = x.toNat * y.toNat := by
  have h : x.toNat * y.toNat < 2 ^ 64 := Nat.mul_lt_mul'' (c := 2 ^ 32) (d := 2 ^ 32) x.isLt y.isLt
  rw [BitVec.toNat_mul, toNat_acc, toNat_acc, Nat.mod_eq_of_lt h]

/-- The cross-product of word `i` of `a` and word `j` of `b`, with the weight it has in the result. -/
def crossProduct (a b : Buf) (i j : Nat) : Nat := 2 ^ (32 * (i + j)) * ((wd a i).toNat * (wd b j).toNat)

theorem crossProduct_eq_zero {a b : Buf} {i j : Nat} (h : a.length ≤ i ∨ b.length ≤ j) : crossProduct a b i j = 0 := by
  rcases h with h | h <;> simp [crossProduct, wd_of_length_le h]

theorem mem_validIndices {m n k i : Nat} : i ∈ validIndices m n k ↔ k < i + n ∧ i ≤ k ∧ i ≤ m - 1 := by
  rw [validIndices, List.mem_range'_1]
  omega

/-- The valid indices of a result index leave out only cross-products that are zero. -/
theorem sum_validIndices (a b : Buf) (k : Nat) :
    ((validIndices a.length b.length k).map fun i => crossProduct a b i (k - i)).sum =
      ∑ i ∈ Finset.range (k + 1), crossProduct a b i (k - i) := by
  have hnodup : (validIndices a.length b.length k).Nodup := List.nodup_range'
  rw [← List.sum_toFinset _ hnodup]
  refine Finset.sum_subset (fun i hi => ?_) fun i hi hout => crossProduct_eq_zero ?_
  · rw [List.mem_toFinset, mem_validIndices] at hi
    rw [Finset.mem_range]
    omega
  · rw [List.mem_toFinset, mem_validIndices] at hout
    rw [Finset.mem_range] at hi
    omega

/-- A diagonal adds all cross-products of its result index. -/
theorem addsInto_diagonal (a b r : Buf) (k : Nat) :
    AddsInto (∑ i ∈ Finset.range (k + 1), crossProduct a b i (k - i)) r (diagonal a b r k) := by
  rw [← sum_validIndices]
  refine AddsInto.foldl _ (fun i hi r => ?_) r
  obtain ⟨-, hik, -⟩ := mem_validIndices.1 hi
  rw [crossProduct, Nat.add_sub_of_le hik, ← toNat_acc_mul_acc]
  exact addsInto_accumulate r k _

/-! ### The sum of all cross-products -/

theorem val_take_eq_sum (w : Buf) (n : Nat) :
    val (w.take n) = ∑ i ∈ Finset.range n, 2 ^ (32 * i) * (wd w i).toNat := by
  induction n with
  | zero => rfl
  | succ n ih => rw [val_take_succ, ih, Finset.sum_range_succ]

/-- A sequence as the sum of its words, and of any number of zero words beyond its end (00_scope.md R10). -/
theorem val_eq_sum {w : Buf} {n : Nat} (h : w.length ≤ n) :
    val w = ∑ i ∈ Finset.range n, 2 ^ (32 * i) * (wd w i).toNat := by
  rw [← val_take_eq_sum, List.take_of_length_le h]

/-- All diagonals together hold each cross-product once. -/
theorem sum_diagonals (a : Buf) {b : Buf} (hb : b ≠ []) :
    ∑ k ∈ Finset.range (a.length + b.length - 1), ∑ i ∈ Finset.range (k + 1), crossProduct a b i (k - i) =
      val a * val b := by
  have hlen : 0 < b.length := List.length_pos_iff.2 hb
  have hrow (i : Nat) : ∑ j ∈ Finset.range (a.length + b.length - 1 - i), crossProduct a b i j =
      2 ^ (32 * i) * (wd a i).toNat * val b := by
    by_cases hi : i < a.length
    · rw [val_eq_sum (w := b) (n := a.length + b.length - 1 - i) (by omega), Finset.mul_sum]
      refine Finset.sum_congr rfl fun j _ => ?_
      rw [crossProduct, Nat.mul_add, Nat.pow_add]
      ring
    · have hle : a.length ≤ i := Nat.le_of_not_lt hi
      simp [crossProduct, wd_of_length_le hle]
  calc _ = ∑ i ∈ Finset.range (a.length + b.length - 1), 2 ^ (32 * i) * (wd a i).toNat * val b := by
        rw [Finset.sum_range_diag_flip]
        exact Finset.sum_congr rfl fun i _ => hrow i
    _ = val a * val b := by rw [← Finset.sum_mul, ← val_eq_sum (by omega)]

theorem val_replicate_zero (n : Nat) : val (List.replicate n 0) = 0 := val_eq_zero_of_wd fun i => by simp [wd]

/-- What the diagonals leave in a result of zero words is the product, which fits there. -/
theorem val_foldl_diagonal (a : Buf) {b : Buf} (hb : b ≠ []) :
    val ((List.range (a.length + b.length - 1)).foldl (diagonal a b) (List.replicate (a.length + b.length) 0)) =
      val a * val b := by
  obtain ⟨hlen, hval⟩ := AddsInto.foldl (List.range (a.length + b.length - 1))
    (fun k _ r => addsInto_diagonal a b r k) (List.replicate (a.length + b.length) 0)
  rw [List.length_replicate] at hlen hval
  rw [val_replicate_zero, Nat.zero_add, ← List.sum_toFinset _ List.nodup_range, List.toFinset_range,
    sum_diagonals a hb] at hval
  refine hval.eq_of_lt_of_lt ((val_lt _).trans_eq (by rw [hlen])) ?_
  rw [Nat.mul_add, Nat.pow_add]
  exact Nat.mul_lt_mul'' (val_lt a) (val_lt b)

theorem multiplier_eq_words (a b : Buf) : multiplier a b = words (val a * val b) := by
  rw [multiplier]
  split
  next hnil => rcases hnil with rfl | rfl <;> simp
  next hne => rw [trim_eq_words_val, val_foldl_diagonal a fun hb => hne (.inr hb)]

/-! ### The obligation -/

/-- Settles O47: each diagonal adds its cross-products, all of them make up the product, and the product fits the
words of the result. -/
theorem multiplierComputesTheProduct : Obligations.MultiplierComputesTheProduct := multiplier_eq_words

end Sys2Proof.Machine
end

section
/-! The shifter: inside a word the bits that leave it are the carry into the next one, so both shifts are a product and
a quotient by a power of two of the whole value (spec/43_bit_operations.md R172, R174). -/

namespace Sys2Proof.Machine

/-! ### Left shift (43_bit_operations.md R172) -/

/-- One word shifted left, with the carry from below in the freed bits; what leaves at the top is the next carry. -/
theorem shl_word (w c : Word) {bs : Nat} (hbs : bs < 32) (hc : c.toNat < 2 ^ bs) :
    ((w <<< bs) ||| c).toNat + 2 ^ 32 * (carryLeft w bs).toNat = w.toNat * 2 ^ bs + c.toNat := by
  have hpow : 2 ^ 32 = 2 ^ (32 - bs) * 2 ^ bs := by rw [← Nat.pow_add, Nat.sub_add_cancel hbs.le]
  have hlow : (w <<< bs).toNat = (w.toNat % 2 ^ (32 - bs)) <<< bs := by
    rw [BitVec.toNat_shiftLeft, Nat.shiftLeft_eq, Nat.shiftLeft_eq, hpow, Nat.mul_mod_mul_right]
  have hdiv := Nat.mod_add_div w.toNat (2 ^ (32 - bs))
  rw [carryLeft, BitVec.toNat_or, hlow, ← Nat.shiftLeft_add_eq_or_of_lt hc, Nat.shiftLeft_eq, BitVec.toNat_ushiftRight,
    Nat.shiftRight_eq_div_pow, hpow]
  conv_rhs => rw [← hdiv]
  ring

theorem carryLeft_lt (w : Word) {bs : Nat} (hbs : bs < 32) : (carryLeft w bs).toNat < 2 ^ bs := by
  rw [carryLeft, BitVec.toNat_ushiftRight, Nat.shiftRight_eq_div_pow]
  refine Nat.div_lt_of_lt_mul ?_
  rw [← Nat.pow_add, Nat.sub_add_cancel hbs.le]
  exact w.isLt

theorem shlWords_zero (ws : Buf) (c : Word) : shlWords 0 ws c = ws := by
  induction ws with
  | nil => simp [shlWords]
  | cons w ws ih => simp [shlWords, ih]

theorem val_shlWords {bs : Nat} (hbs : bs < 32) (ws : Buf) (c : Word) (hc : c.toNat < 2 ^ bs) :
    val (shlWords bs ws c) = val ws * 2 ^ bs + c.toNat := by
  rcases Nat.eq_zero_or_pos bs with rfl | hpos
  · have hc0 : c.toNat = 0 := by simpa using hc
    simp [shlWords_zero, hc0]
  · induction ws generalizing c with
    | nil =>
      by_cases h0 : c = 0#32
      · simp [shlWords, h0]
      · simp [shlWords, h0, hpos.ne']
    | cons w ws ih =>
      have hword := shl_word w c hbs hc
      rw [shlWords, if_neg hpos.ne', val_cons, ih _ (carryLeft_lt w hbs), val_cons]
      linarith

theorem trimmed_shlWords {bs : Nat} (hbs : bs < 32) {ws : Buf} (h : Trimmed ws) (c : Word) (hc : c.toNat < 2 ^ bs) :
    Trimmed (shlWords bs ws c) := by
  rcases Nat.eq_zero_or_pos bs with rfl | hpos
  · rwa [shlWords_zero]
  · induction ws generalizing c with
    | nil =>
      by_cases h0 : c = 0#32
      · simp [shlWords, h0]
      · simp [shlWords, h0, hpos.ne', Trimmed]
    | cons w ws ih =>
      have hv := val_shlWords hbs (w :: ws) c hc
      have hne : val (w :: ws) * 2 ^ bs ≠ 0 :=
        Nat.mul_ne_zero (mt (val_eq_zero_of_trimmed _ h).1 (List.cons_ne_nil w ws)) (Nat.two_pow_pos bs).ne'
      rw [shlWords, if_neg hpos.ne'] at hv ⊢
      refine trimmed_cons_of_val_ne_zero (ih ((trimmed_cons w ws).1 h).1 _ (carryLeft_lt w hbs)) ?_
      omega

theorem val_shifterLeft (a : Buf) (n : Nat) : val (shifterLeft a n) = val a * 2 ^ n := by
  rw [shifterLeft]
  split
  next hnil => simp [hnil]
  next =>
    have hshift : val (shlWords (n % 32) a 0) = val a * 2 ^ (n % 32) :=
      val_shlWords (Nat.mod_lt n (by decide)) a 0 (Nat.two_pow_pos _)
    have hpow : 2 ^ n = 2 ^ (32 * (n / 32)) * 2 ^ (n % 32) := by rw [← Nat.pow_add, Nat.div_add_mod]
    rw [val_append, val_replicate_zero, List.length_replicate, hshift, hpow]
    ring

theorem trimmed_shifterLeft {a : Buf} (h : Trimmed a) (n : Nat) : Trimmed (shifterLeft a n) := by
  rw [shifterLeft]
  split
  next => simp
  next hne =>
    have hbs : n % 32 < 32 := Nat.mod_lt n (by decide)
    have ht := trimmed_shlWords hbs h 0 (Nat.two_pow_pos _)
    have hnil : shlWords (n % 32) a 0 ≠ [] := by
      cases a with
      | nil => exact absurd rfl hne
      | cons w ws =>
        rw [shlWords]
        split <;> exact List.cons_ne_nil _ _
    rwa [Trimmed, List.getLast?_append_of_ne_nil _ hnil]

theorem shifterLeft_eq_words {a : Buf} (h : Trimmed a) (n : Nat) : shifterLeft a n = words (val a * 2 ^ n) := by
  rw [← val_shifterLeft, words_val _ (trimmed_shifterLeft h n)]

/-! ### Right shift (43_bit_operations.md R174) -/

/-- One word shifted right, with the carry from above in the freed bits. -/
theorem shr_word (w c : Word) {bs m : Nat} (hbs : bs < 32) (hc : c.toNat = m * 2 ^ (32 - bs)) :
    ((w >>> bs) ||| c).toNat = w.toNat / 2 ^ bs + m * 2 ^ (32 - bs) := by
  have hlt : w.toNat / 2 ^ bs < 2 ^ (32 - bs) := by
    refine Nat.div_lt_of_lt_mul ?_
    rw [← Nat.pow_add, Nat.add_sub_of_le hbs.le]
    exact w.isLt
  rw [BitVec.toNat_or, BitVec.toNat_ushiftRight, Nat.shiftRight_eq_div_pow, hc, ← Nat.shiftLeft_eq, Nat.or_comm,
    ← Nat.shiftLeft_add_eq_or_of_lt hlt, Nat.add_comm]

theorem toNat_carryRight (w : Word) {bs : Nat} (hbs : bs < 32) :
    (carryRight w bs).toNat = w.toNat % 2 ^ bs * 2 ^ (32 - bs) := by
  have hpow : 2 ^ 32 = 2 ^ bs * 2 ^ (32 - bs) := by rw [← Nat.pow_add, Nat.add_sub_of_le hbs.le]
  rw [carryRight, BitVec.toNat_shiftLeft, Nat.shiftLeft_eq, hpow, Nat.mul_mod_mul_right]

theorem shrWords_zero (ws : Buf) : shrWords 0 ws = (ws, 0) := by
  induction ws with
  | nil => rfl
  | cons w ws ih => simp [shrWords, ih]

/-- Shifting right leaves the quotient in the words and the remainder, at the top of a word, in the carry. -/
theorem shrWords_eq {bs : Nat} (hbs : bs < 32) (ws : Buf) :
    val (shrWords bs ws).1 = val ws / 2 ^ bs ∧ (shrWords bs ws).2.toNat = val ws % 2 ^ bs * 2 ^ (32 - bs) := by
  rcases Nat.eq_zero_or_pos bs with rfl | hpos
  · simp [shrWords_zero, Nat.mod_one]
  · induction ws with
    | nil => simp [shrWords]
    | cons w ws ih =>
      obtain ⟨hval, hcarry⟩ := ih
      have hpow : 2 ^ 32 = 2 ^ bs * 2 ^ (32 - bs) := by rw [← Nat.pow_add, Nat.add_sub_of_le hbs.le]
      have hdiv := Nat.mod_add_div (val ws) (2 ^ bs)
      simp only [shrWords, if_neg hpos.ne', val_cons, hpow, Nat.mul_assoc, Nat.add_mul_mod_self_left,
        Nat.add_mul_div_left _ _ (Nat.two_pow_pos bs), toNat_carryRight w hbs, shr_word w _ hbs hcarry, hval, and_true]
      conv_rhs => rw [← hdiv]
      ring

/-- Removing whole words at the low end. -/
theorem val_drop_eq_div (a : Buf) (k : Nat) : val (a.drop k) = val a / 2 ^ (32 * k) := by
  induction k with
  | zero => simp
  | succ k ih =>
    have hword := (wd a k).isLt
    have hdrop := val_drop a k
    rw [Nat.mul_succ, Nat.pow_add, ← Nat.div_div_eq_div_mul, ← ih]
    omega

theorem shifterRight_eq_words (a : Buf) (n : Nat) : shifterRight a n = words (val a / 2 ^ n) := by
  have hpow : 2 ^ n = 2 ^ (32 * (n / 32)) * 2 ^ (n % 32) := by rw [← Nat.pow_add, Nat.div_add_mod]
  rw [hpow, ← Nat.div_div_eq_div_mul, ← val_drop_eq_div, shifterRight]
  split
  next hlen => simp [List.drop_of_length_le hlen]
  next => rw [trim_eq_words_val, (shrWords_eq (Nat.mod_lt n (by decide)) _).1]

end Sys2Proof.Machine
end

section
/-! The divider and the power sequencer. On trimmed sequences every unit they use answers `words` of a number, so each
loop is followed on numbers, with the invariant that makes its next pass right (spec/42_arithmetic.md R138, R143). -/

namespace Sys2Proof.Machine

/-! ### The units on the words of numbers -/

theorem words_eq_nil_iff (v : Nat) : words v = [] ↔ v = 0 := by
  rw [← val_eq_zero_of_trimmed _ (trimmed_words v), val_words]

theorem adder_words (v w : Nat) : adder (words v) (words w) = words (v + w) := by
  rw [adder_eq_words (trimmed_words v) (trimmed_words w), val_words, val_words]

theorem subtractor_words {v w : Nat} (h : w ≤ v) : (subtractor (words v) (words w)).1 = words (v - w) := by
  rw [subtractor_eq_words (by simpa using h), val_words, val_words]

theorem shifterLeft_words (v n : Nat) : shifterLeft (words v) n = words (v * 2 ^ n) := by
  rw [shifterLeft_eq_words (trimmed_words v), val_words]

theorem shifterRight_words (v n : Nat) : shifterRight (words v) n = words (v / 2 ^ n) := by
  rw [shifterRight_eq_words, val_words]

theorem multiplier_words (v w : Nat) : multiplier (words v) (words w) = words (v * w) := by
  rw [multiplier_eq_words, val_words, val_words]

theorem compareBuf_words_eq_neg_one_iff (v w : Nat) : compareBuf (words v) (words w) = -1 ↔ v < w := by
  rw [compareBuf_eq_neg_one_iff (trimmed_words v) (trimmed_words w), val_words, val_words]

theorem compareBuf_words_eq_one_iff (v w : Nat) : compareBuf (words v) (words w) = 1 ↔ w < v := by
  obtain ⟨-, -, hone, -⟩ := compareAgreesWithTheNumericOrder _ _ (trimmed_words v) (trimmed_words w)
  rw [hone, val_words, val_words]

theorem lt_two_pow_iff_bits_words (v n : Nat) : v < 2 ^ n ↔ bits (words v) ≤ n := by
  rw [← val_lt_two_pow_iff_bits _ (trimmed_words v), val_words]

theorem words_one : words 1 = [1] := by decide

/-! ### Divider (42_arithmetic.md R138) -/

theorem mul_two_pow_succ_half (y n : Nat) : y * 2 ^ (n + 1) / 2 = y * 2 ^ n := by
  rw [Nat.pow_succ, ← Nat.mul_assoc, Nat.mul_div_cancel _ two_pos]

/-- The divider's loop, `n` quotient bits before its end: the subtrahend is half of `y·2^n`, the unit half of `2^n`, and
the remainder is below `y·2^n`, so one conditional subtraction a bit suffices. -/
theorem divideLoop_words {y : Nat} (hy : 0 < y) (n r q : Nat) (hr : r < y * 2 ^ n) :
    divideLoop n (words r) (words (y * 2 ^ n / 2)) (words (1 * 2 ^ n / 2)) (words q) =
      (words (q + r / y), words (r % y)) := by
  induction n generalizing r q with
  | zero =>
    have hry : r < y := by simpa using hr
    simp [divideLoop, Nat.div_eq_of_lt hry, Nat.mod_eq_of_lt hry]
  | succ n ih =>
    have hstop : words (1 * 2 ^ n) ≠ [] := by simp [words_eq_nil_iff]
    rw [mul_two_pow_succ_half, mul_two_pow_succ_half, divideLoop, if_neg hstop, shifterRight_words, shifterRight_words,
      Nat.pow_one, adder_words]
    by_cases hlt : r < y * 2 ^ n
    · rw [if_neg (not_not.2 ((compareBuf_words_eq_neg_one_iff _ _).2 hlt))]
      exact ih r q hlt
    · obtain ⟨d, rfl⟩ := Nat.exists_eq_add_of_le (Nat.not_lt.1 hlt)
      have hd : d < y * 2 ^ n := by
        rw [Nat.pow_succ, ← Nat.mul_assoc] at hr
        omega
      rw [if_pos (mt (compareBuf_words_eq_neg_one_iff _ _).1 hlt), subtractor_words (Nat.le_add_right _ _),
        Nat.add_sub_cancel_left, ih d _ hd, Nat.mul_add_div hy, Nat.mul_add_mod, Nat.one_mul, Nat.add_assoc]

/-- The initial shift leaves the dividend below twice the subtrahend. -/
theorem lt_mul_two_pow_divideShift {x y : Nat} (hy : 0 < y) (h : y ≤ x) :
    x < y * 2 ^ (divideShift (words x) (words y) + 1) := by
  have hx : x < 2 ^ bits (words x) := (lt_two_pow_iff_bits_words x _).2 le_rfl
  have hbits : bits (words y) ≤ bits (words x) := (lt_two_pow_iff_bits_words y _).1 (h.trans_lt hx)
  rw [divideShift, shifterLeft_words]
  split
  next hover =>
    rw [compareBuf_words_eq_one_iff] at hover
    have hpos : bits (words x) - bits (words y) ≠ 0 := fun h0 => by
      rw [h0] at hover
      omega
    rwa [Nat.sub_add_cancel (Nat.pos_of_ne_zero hpos)]
  next =>
    have hbitsPos : ¬ bits (words y) ≤ 0 := by
      rw [← lt_two_pow_iff_bits_words]
      omega
    have hyTop : 2 ^ (bits (words y) - 1) ≤ y := by
      rw [← Nat.not_lt, lt_two_pow_iff_bits_words]
      omega
    calc x < 2 ^ bits (words x) := hx
      _ = 2 ^ (bits (words y) - 1) * 2 ^ (bits (words x) - bits (words y) + 1) := by
        rw [← Nat.pow_add]
        congr 1
        omega
      _ ≤ y * 2 ^ (bits (words x) - bits (words y) + 1) := Nat.mul_le_mul_right _ hyTop

theorem divider_words {x y : Nat} (hy : 0 < y) : divider (words x) (words y) = (words (x / y), words (x % y)) := by
  rw [divider]
  split
  next hlt =>
    rw [compareBuf_words_eq_neg_one_iff] at hlt
    rw [Nat.div_eq_of_lt hlt, Nat.mod_eq_of_lt hlt, words_zero]
  next hge =>
    rw [compareBuf_words_eq_neg_one_iff, Nat.not_lt] at hge
    have hloop := divideLoop_words hy _ x 0 (lt_mul_two_pow_divideShift hy hge)
    rwa [mul_two_pow_succ_half, mul_two_pow_succ_half, Nat.zero_add, words_zero, ← shifterLeft_words,
      ← shifterLeft_words, words_one] at hloop

/-! ### Power sequencer (42_arithmetic.md R143) -/

/-- A power by the square of its base, and by the lowest bit of the exponent. -/
theorem pow_eq_sq_pow_mul (b m : Nat) : b ^ m = (b * b) ^ (m / 2) * b ^ (m % 2) := by
  rw [← Nat.pow_two, ← Nat.pow_mul, ← Nat.pow_add, Nat.div_add_mod]

/-- Bit `i` of a buffer is the lowest bit of its value from bit `i` up. -/
theorem bit_iff_mod_two (w : Buf) (i : Nat) : bit w i = true ↔ val w / 2 ^ i % 2 = 1 := by
  rw [← testBit_val, Nat.testBit_eq_decide_div_mod_eq, decide_eq_true_iff]

/-- The sequencer's loop before exponent bit `i`: what the bits from `i` up still multiply into the result is a power of
the square held, which is kept up to date while a bit is left. -/
theorem powLoop_words (e : Buf) (nb n i r b : Nat) (sq : Buf) (hn : i + n = nb) (hsq : i < nb → sq = words b)
    (he : val e < 2 ^ nb) : powLoop e nb n i (words r) sq = words (r * b ^ (val e / 2 ^ i)) := by
  induction n generalizing i r b sq with
  | zero =>
    obtain rfl : i = nb := hn
    simp [powLoop, Nat.div_eq_of_lt he]
  | succ n ih =>
    obtain rfl := hsq (by omega)
    have hnext (r' : Nat) := ih (i + 1) r' (b * b) (if i + 1 < nb then multiplier (words b) (words b) else words b)
      (by omega) (fun hi => by rw [if_pos hi, multiplier_words])
    rw [Nat.pow_succ, ← Nat.div_div_eq_div_mul] at hnext
    rw [powLoop, pow_eq_sq_pow_mul]
    by_cases hbit : val e / 2 ^ i % 2 = 1
    · rw [if_pos ((bit_iff_mod_two e i).2 hbit), multiplier_words, hnext, hbit, Nat.pow_one, Nat.mul_assoc,
        Nat.mul_comm b]
    · rw [if_neg (mt (bit_iff_mod_two e i).1 hbit), hnext, Nat.mod_two_ne_one.1 hbit, Nat.pow_zero, Nat.mul_one]

theorem powerSequencer_eq_words {a e : Buf} (ha : Trimmed a) (he : Trimmed e) :
    powerSequencer a e = words (val a ^ val e) := by
  have hbits : val e < 2 ^ bits e := (val_lt_two_pow_iff_bits e he _).2 le_rfl
  have hloop := powLoop_words e (bits e) (bits e) 0 1 (val a) a (Nat.zero_add _) (fun _ => (words_val a ha).symm) hbits
  simpa [powerSequencer, words_one] using hloop

/-! ### The obligations -/

/-- Settles O48: trimmed operands are the words of their values, and the loop divides those. -/
theorem dividerMeetsTheContract : Obligations.DividerMeetsTheContract := by
  intro x y hx hy hne
  have h := divider_words (x := val x) (Nat.pos_of_ne_zero (mt (val_eq_zero_of_trimmed y hy).1 hne))
  rwa [words_val x hx, words_val y hy] at h

/-- Settles O49: the loop multiplies in the powers that the exponent's bits select. -/
theorem powerSequencerComputesThePower : Obligations.PowerSequencerComputesThePower :=
  fun _ _ ha he => powerSequencer_eq_words ha he

end Sys2Proof.Machine
end

section
/-! The bitwise unit and the datapath of bit access, bit by bit: word `i` of a unit's answer is what the unit does to
word `i` of its operands, so a bit of the answer's value is what it does to that bit of theirs
(spec/43_bit_operations.md R170, R176, R177, R181). -/

namespace Sys2Proof.Machine

/-! ### One bit of a number written (43_bit_operations.md R170) -/

/-- `y` is `x` with bit `k` written to `v` and every other bit kept. -/
def WritesBit (k : Nat) (v : Bool) (x y : Nat) : Prop := ∀ j, y.testBit j = if j = k then v else x.testBit j

theorem WritesBit.unique {k : Nat} {v : Bool} {x y z : Nat} (hy : WritesBit k v x y) (hz : WritesBit k v x z) :
    y = z := Nat.eq_of_testBit_eq fun j => (hy j).trans (hz j).symm

theorem writesBit_or_two_pow (x k : Nat) : WritesBit k true x (x ||| 2 ^ k) := by
  intro j
  by_cases hj : j = k
  · simp [hj, Nat.testBit_two_pow_self]
  · simp [hj, Nat.testBit_two_pow_of_ne (Ne.symm hj)]

theorem writesBit_xor_two_pow (x k : Nat) : WritesBit k (!x.testBit k) x (x ^^^ 2 ^ k) := by
  intro j
  by_cases hj : j = k
  · simp [hj, Nat.testBit_two_pow_self]
  · simp [hj, Nat.testBit_two_pow_of_ne (Ne.symm hj)]

/-- Where bit `k` is 1, taking `2^k` away makes it 0 and borrows from no other bit. -/
theorem writesBit_sub_two_pow {x k : Nat} (h : x.testBit k = true) : WritesBit k false x (x - 2 ^ k) := by
  obtain ⟨m, hm⟩ : ∃ m, x / 2 ^ k = 2 * m + 1 :=
    ⟨x / 2 ^ k / 2, by rw [Nat.testBit_eq_decide_div_mod_eq, decide_eq_true_iff] at h; omega⟩
  have hlow : x % 2 ^ k < 2 ^ k := Nat.mod_lt x (Nat.two_pow_pos k)
  have hx : x = 2 ^ k * (2 * m + 1) + x % 2 ^ k := by rw [← hm, Nat.div_add_mod]
  have hsub : x - 2 ^ k = 2 ^ k * (2 * m) + x % 2 ^ k := by rw [Nat.mul_succ] at hx; omega
  intro j
  rw [hsub, Nat.testBit_two_pow_mul_add _ hlow]
  conv_rhs => rw [hx, Nat.testBit_two_pow_mul_add _ hlow]
  rcases lt_trichotomy j k with hj | rfl | hj
  · simp [hj, hj.ne]
  · simp
  · obtain ⟨i, rfl⟩ := Nat.exists_eq_add_of_lt hj
    have hi : k + i + 1 - k = i + 1 := by omega
    have hhalf : (2 * m + 1) / 2 = m := by omega
    simp [hj.ne', hj.not_gt, hi, Nat.testBit_succ, hhalf]

/-- `x AND NOT 2^k` is `x` with bit `k` cleared (43_bit_operations.md R176). -/
theorem writesBit_withoutBit (w : Buf) (k : Nat) : WritesBit k false (val w) (withoutBit (val w) (bit w k) k) := by
  rw [← testBit_val, withoutBit]
  split
  next h => exact writesBit_sub_two_pow h
  next h =>
    intro j
    split
    next hj => rw [hj]; exact Bool.eq_false_iff.2 h
    next => rfl

/-! ### The bitwise unit (43_bit_operations.md R181) -/

/-- A unit that fills `n` words, beyond which it would give zero words, answers its word at every index. -/
theorem wd_map_range {n : Nat} {f : Nat → Word} (h : ∀ i, n ≤ i → f i = 0) (i : Nat) :
    wd ((List.range n).map f) i = f i := by
  by_cases hi : i < n
  · simp [wd, hi]
  · simp [wd, hi, h i (Nat.le_of_not_lt hi)]

/-- What such a unit does to the bits of two words it does to the bits of the two values. -/
theorem testBit_val_map_range {n : Nat} {g : Word → Word → Word} {op : Bool → Bool → Bool} (a b : Buf)
    (hbit : ∀ x y i, (g x y).getLsbD i = op (x.getLsbD i) (y.getLsbD i))
    (hout : ∀ i, n ≤ i → g (wd a i) (wd b i) = 0) (j : Nat) :
    (val ((List.range n).map fun i => g (wd a i) (wd b i))).testBit j = op ((val a).testBit j) ((val b).testBit j) := by
  rw [testBit_val, bit, wd_map_range hout, hbit, testBit_val, testBit_val, bit, bit]

theorem andUnit_eq_words (a b : Buf) : andUnit a b = words (val a &&& val b) := by
  rw [andUnit, trim_eq_words_val]
  refine congrArg words (Nat.eq_of_testBit_eq fun j => ?_)
  rw [Nat.testBit_and]
  refine testBit_val_map_range a b (fun _ _ _ => BitVec.getLsbD_and) (fun i hi => ?_) j
  rcases inf_le_iff.1 hi with ha | hb
  · simp [wd_of_length_le ha]
  · simp [wd_of_length_le hb]

theorem val_orUnit (a b : Buf) : val (orUnit a b) = val a ||| val b := by
  refine Nat.eq_of_testBit_eq fun j => ?_
  rw [Nat.testBit_or]
  refine testBit_val_map_range a b (fun _ _ _ => BitVec.getLsbD_or) (fun i hi => ?_) j
  obtain ⟨ha, hb⟩ := max_le_iff.1 hi
  simp [wd_of_length_le ha, wd_of_length_le hb]

theorem xorUnit_eq_words (a b : Buf) : xorUnit a b = words (val a ^^^ val b) := by
  rw [xorUnit, trim_eq_words_val]
  refine congrArg words (Nat.eq_of_testBit_eq fun j => ?_)
  rw [Nat.testBit_xor]
  refine testBit_val_map_range a b (fun _ _ _ => BitVec.getLsbD_xor) (fun i hi => ?_) j
  obtain ⟨ha, hb⟩ := max_le_iff.1 hi
  simp [wd_of_length_le ha, wd_of_length_le hb]

/-- A sequence no longer than the words of its value has no zero word at the top. -/
theorem eq_words_val_of_length_le {w : Buf} (h : w.length ≤ (words (val w)).length) : w = words (val w) := by
  rw [← trim_eq_words_val] at h ⊢
  exact ((trim_prefix w).eq_of_length_le h).symm

/-- A larger value needs at least the words of a trimmed sequence. -/
theorem length_le_length_words {w : Buf} (h : Trimmed w) {v : Nat} (hv : val w ≤ v) : w.length ≤ (words v).length :=
  (length_le_iff_of_trimmed w h _).2 (hv.trans_lt ((length_words_le_iff v _).1 le_rfl))

/-- OR needs no trim: its value is at least that of either operand. -/
theorem orUnit_eq_words {a b : Buf} (ha : Trimmed a) (hb : Trimmed b) : orUnit a b = words (val a ||| val b) := by
  have hla := length_le_length_words ha (Nat.left_le_or (m := val b))
  have hlb := length_le_length_words hb (Nat.right_le_or (n := val a))
  have hlen : (orUnit a b).length = max a.length b.length := by simp [orUnit]
  rw [← val_orUnit] at hla hlb ⊢
  exact eq_words_val_of_length_le (hlen.trans_le (max_le hla hlb))

/-! ### Bit access (43_bit_operations.md R176, R177) -/

theorem getLsbD_writeWordBit (w : Word) {m : Nat} (hm : m < 32) (v : Bool) (j : Nat) :
    (writeWordBit w m v).getLsbD j = if j = m then v else w.getLsbD j := by
  have hone : (1#32 <<< m).getLsbD j = decide (j = m) := by
    rw [← BitVec.twoPow_eq, BitVec.getLsbD_twoPow]
    by_cases hj : j = m
    · simp [hj, hm]
    · simp [hj, Ne.symm hj]
  rw [writeWordBit]
  split
  next hv =>
    rw [BitVec.getLsbD_or, hone, hv]
    by_cases hj : j = m <;> simp [hj]
  next hv =>
    rw [BitVec.getLsbD_and, BitVec.getLsbD_not, hone, Bool.eq_false_iff.2 hv]
    by_cases hj : j = m
    · simp [hj]
    · by_cases hlt : j < 32
      · simp [hj, hlt]
      · simp [hj, BitVec.getLsbD_of_ge w j (Nat.le_of_not_lt hlt)]

/-- Zero words above the end are not seen (00_scope.md R10). -/
theorem wd_append_replicate_zero (a : Buf) (n i : Nat) : wd (a ++ List.replicate n 0) i = wd a i := by
  induction a generalizing i with
  | nil => simp [wd]
  | cons x xs ih =>
    cases i with
    | zero => rfl
    | succ i => exact ih i

theorem wd_set {w : Buf} {m : Nat} (hm : m < w.length) (x : Word) (i : Nat) :
    wd (w.set m x) i = if i = m then x else wd w i := by
  by_cases hi : i = m
  · simp [wd, hi, List.getD_eq_getElem?_getD, List.getElem?_set_self hm]
  · simp [wd, hi, List.getD_eq_getElem?_getD, List.getElem?_set_ne (Ne.symm hi)]

/-- Setting bit `k` in the grown sequence writes one bit of its value (43_bit_operations.md R176). -/
theorem writesBit_setBitUnit (a : Buf) (k : Nat) (v : Bool) : WritesBit k v (val a) (val (setBitUnit a k v)) := by
  intro j
  have hlen : k / 32 < (a ++ List.replicate (k / 32 + 1 - a.length) 0).length := by simp; omega
  rw [setBitUnit, val_trim, testBit_val, bit, wd_set hlen, wd_append_replicate_zero, wd_append_replicate_zero,
    testBit_val, bit]
  by_cases hword : j / 32 = k / 32
  · rw [if_pos hword, getLsbD_writeWordBit _ (Nat.mod_lt k (by decide)), ← hword]
    exact if_congr (by omega) rfl rfl
  · have hj : j ≠ k := fun h => hword (congrArg (· / 32) h)
    rw [if_neg hword, if_neg hj]

/-- The unit answers the words of the number with bit `k` written. -/
theorem setBitUnit_eq_words {a : Buf} {k : Nat} {v : Bool} {y : Nat} (h : WritesBit k v (val a) y) :
    setBitUnit a k v = words y := by
  rw [h.unique (writesBit_setBitUnit a k v)]
  exact (words_val _ (trimmed_trim _)).symm

theorem flipBitUnit_eq_words (a : Buf) (k : Nat) : flipBitUnit a k = words (val a ^^^ 2 ^ k) := by
  have h := writesBit_xor_two_pow (val a) k
  rw [testBit_val] at h
  exact setBitUnit_eq_words h

/-! ### The obligations -/

/-- Settles O50: inside a word the bits that leave it are the carry into the next one. -/
theorem shifterComputesBothShifts : Obligations.ShifterComputesBothShifts :=
  fun a n => ⟨val_shifterLeft a n, fun h => shifterLeft_eq_words h n, shifterRight_eq_words a n⟩

/-- Settles O51: each unit is followed bit by bit, and two numbers with the same bits are equal. -/
theorem bitwiseAndBitAccessUnitsAgree : Obligations.BitwiseAndBitAccessUnitsAgree :=
  fun a b k => ⟨andUnit_eq_words a b, orUnit_eq_words, xorUnit_eq_words a b,
    setBitUnit_eq_words (writesBit_or_two_pow (val a) k), setBitUnit_eq_words (writesBit_withoutBit a k),
    flipBitUnit_eq_words a k⟩

end Sys2Proof.Machine
end

section
/-! The bit operations: their words, the number each writes, the fault it raises instead, and what a shift there and
back gives (spec/43_bit_operations.md R171 to R182). -/

namespace Sys2Proof.Machine

/-! ### Shifted numbers -/

/-- The test of `SHL` on the bit length is the capacity check on the shifted number (43_bit_operations.md R171). -/
theorem lt_bits_add_iff {w : Buf} (h : Trimmed w) (hv : val w ≠ 0) (c n : Nat) :
    c < bits w + n ↔ 2 ^ c ≤ val w * 2 ^ n := by
  by_cases hn : n ≤ c
  · obtain ⟨m, rfl⟩ := Nat.exists_eq_add_of_le' hn
    rw [Nat.add_lt_add_iff_right, ← Nat.not_le, ← val_lt_two_pow_iff_bits w h, Nat.not_lt, Nat.pow_add,
      Nat.mul_le_mul_right_iff (Nat.two_pow_pos n)]
  · have hpow : 2 ^ c ≤ 2 ^ n := Nat.pow_le_pow_right two_pos (by omega)
    exact iff_of_true (by omega) (hpow.trans (Nat.le_mul_of_pos_left _ (Nat.pos_of_ne_zero hv)))

/-- A number is a multiple of `2^n` exactly when its `n` low bits are zero. -/
theorem div_mul_two_pow_eq_iff (v n : Nat) : v / 2 ^ n * 2 ^ n = v ↔ ∀ j, j < n → v.testBit j = false := by
  calc v / 2 ^ n * 2 ^ n = v
    _ ↔ v % 2 ^ n = 0 := by rw [← Nat.dvd_iff_div_mul_eq, Nat.dvd_iff_mod_eq_zero]
    _ ↔ ∀ j, j < n → v.testBit j = false := by simp [Nat.eq_iff_testBit_eq]

/-- The words of a number are a given trimmed sequence exactly when that is its value. -/
theorem words_eq_iff {w : Buf} (h : Trimmed w) (v : Nat) : words v = w ↔ v = val w :=
  ⟨fun e => by rw [← e, val_words], fun e => by rw [e, words_val w h]⟩

/-! ### The ends of a command, with what they change -/

/-- The number that a command writes to `B[d]`, as the value found there afterwards. -/
theorem finishFitting_writes_valB (d : BReg) (v : Nat) (s : State) :
    ∃ t, finishFitting d v s = .next t ∧ WroteB d (words (t.valB d)) s t ∧ t.valB d = v := by
  obtain ⟨t, hx, hwrote⟩ := finishFitting_writes d v s
  exact ⟨t, hx, hwrote.valB_dest.symm ▸ hwrote, hwrote.valB_dest⟩

theorem WroteB.natS_eq {d : BReg} {w : Buf} {s t : State} (h : WroteB d w s t) (c : SReg) : t.natS c = s.natS c :=
  congrArg BitVec.toNat (h.sRegs c)

/-! ### The commands by the values of their operands -/

/-- On a trimmed source `SHL` ends in the capacity check of the shifted number (43_bit_operations.md R171). -/
theorem exec_shl_eq_finishB {d a : BReg} {c : SReg} {s : State} (ha : Trimmed (s.readB a)) :
    exec (.shl d a c) s = finishB (.shl d a c) d (s.valB a * 2 ^ s.natS c) s := by
  rw [exec, execShl]
  split
  next hnil =>
    have hv : s.valB a = 0 := (valB_eq_zero_iff ha).2 hnil
    rw [hv, Nat.zero_mul, finishB_fits _ _ _ _ (Nat.two_pow_pos _), words_zero, done]
  next hne =>
    have htest : 32 * s.params.cap < bits (s.readB a) + s.natS c ↔ 2 ^ (32 * s.params.cap) ≤ s.valB a * 2 ^ s.natS c :=
      lt_bits_add_iff ha (mt (valB_eq_zero_iff ha).1 hne) _ _
    split
    next hover => rw [finishB_overflows _ _ _ _ (htest.1 hover), raised]
    next hfits => rw [finishB_fits _ _ _ _ (Nat.not_le.1 (mt htest.2 hfits)), finishFitting, done]

theorem exec_shr_eq_finishFitting (d a : BReg) (c : SReg) (s : State) :
    exec (.shr d a c) s = finishFitting d (s.valB a / 2 ^ s.natS c) s := by
  rw [exec, execShr, Nat.shiftRight_eq_div_pow]

/-- One bit of a number as the scalar that `GETBIT` writes (43_bit_operations.md R175). -/
theorem ofNat_toNat_bit (w : Buf) (i : Nat) :
    BitVec.ofNat 64 (bit w i).toNat = if (val w).testBit i then 1 else 0 := by
  rw [testBit_val]
  cases bit w i <;> rfl

theorem getbit_writes (d : SReg) (a : BReg) (x : SReg) (s : State) :
    ∃ t, exec (.getbit d a x) s = .next t ∧ WroteS d (if (s.valB a).testBit (s.natS x) then 1 else 0) s t := by
  refine ⟨_, rfl, ?_⟩
  rw [State.valB, ← ofNat_toNat_bit]
  exact wroteS_complete s d _

/-- The word of `SETBIT`: its bit value stands at bit 12 (30_encoding.md R78). -/
theorem toNat_encode_setbit (d : BReg) (x : SReg) (v : Bool) :
    (encode (.setbit d x v)).toNat = 0x33000000 + d.val * 2 ^ 20 + x.val * 2 ^ 16 + v.toNat * 2 ^ 12 := by
  cases v <;> simp [encode, toNat_formatR]

/-- `SETBIT` within its bound (43_bit_operations.md R176). -/
theorem setbit_writes {d : BReg} {x : SReg} {v : Bool} {s : State} (h : v = false ∨ s.natS x / 32 + 1 ≤ s.params.cap) :
    ∃ t y, exec (.setbit d x v) s = .next t ∧ WroteB d (words y) s t ∧ WritesBit (s.natS x) v (s.valB d) y := by
  cases v with
  | false => exact ⟨_, _, rfl, wroteB_complete s d _, writesBit_withoutBit (s.readB d) (s.natS x)⟩
  | true =>
    have hcap : ¬ s.params.cap < s.natS x / 32 + 1 := Nat.not_lt.2 (h.resolve_left Bool.noConfusion)
    exact ⟨_, _, if_neg hcap, wroteB_complete s d _, writesBit_or_two_pow (s.valB d) (s.natS x)⟩

/-- `FLIPBIT` within its bound (43_bit_operations.md R177). -/
theorem flipbit_writes {d : BReg} {x : SReg} {s : State}
    (h : (s.valB d).testBit (s.natS x) = true ∨ s.natS x / 32 + 1 ≤ s.params.cap) :
    ∃ t y, exec (.flipbit d x) s = .next t ∧ WroteB d (words y) s t ∧
      WritesBit (s.natS x) (!(s.valB d).testBit (s.natS x)) (s.valB d) y := by
  have hfits : ¬ (bit (s.readB d) (s.natS x) = false ∧ s.params.cap < s.natS x / 32 + 1) := by
    rw [← testBit_val]
    rintro ⟨hbit, hcap⟩
    exact h.elim (fun htrue => nomatch hbit.symm.trans htrue) (Nat.not_le.2 hcap)
  exact ⟨_, _, if_neg hfits, wroteB_complete s d _, writesBit_xor_two_pow (s.valB d) (s.natS x)⟩

/-! ### The obligations -/

/-- Settles O12: for a non-zero source the test on the bit length is the capacity check. -/
theorem shlWritesTheShiftedValueOrOverflows : Obligations.ShlWritesTheShiftedValueOrOverflows := by
  refine fun d a c s => ⟨toNat_formatR_three 0x30 d a c, fun ha => ⟨fun hzero => ?_, fun hv => ?_⟩⟩
  · exact ⟨_, if_pos ((valB_eq_zero_iff ha).1 hzero), wroteB_complete s d []⟩
  · have htest := lt_bits_add_iff ha hv (32 * s.params.cap) (s.natS c)
    rw [exec_shl_eq_finishB ha]
    exact ⟨htest, fun hfits => finishB_writes _ d (Nat.not_le.1 (mt htest.2 (Nat.not_lt.2 hfits))),
      fun hover => finishB_takesFault _ d (htest.1 hover)⟩

/-- Settles O13: one write to `B[d]`, of the quotient. -/
theorem shrWritesTheFloor : Obligations.ShrWritesTheFloor := by
  refine fun d a c s => ⟨toNat_formatR_three 0x31 d a c, ?_⟩
  rw [exec_shr_eq_finishFitting]
  obtain ⟨t, hx, hwrote⟩ := finishFitting_writes d (s.valB a / 2 ^ s.natS c) s
  refine ⟨t, hx, hwrote, fun hlt => ?_⟩
  rw [hwrote.dest, Nat.div_eq_of_lt hlt, words_zero]

/-- Settles O14: bit `i` of a buffer is bit `i` of its value, which has none at or beyond `32·len`. -/
theorem getbitReadsOneBit : Obligations.GetbitReadsOneBit := by
  refine fun d a x s => ⟨toNat_formatR_three 0x32 d a x, ?_⟩
  obtain ⟨t, hx, hwrote⟩ := getbit_writes d a x s
  refine ⟨t, hx, hwrote, fun hlen => ?_⟩
  have hbit : (s.valB a).testBit (s.natS x) = false :=
    Nat.testBit_lt_two_pow ((val_lt _).trans_le (Nat.pow_le_pow_right two_pos hlen))
  rw [hwrote.dest, hbit]
  rfl

/-- Settles O15: the number written differs from that of `B[d]` in one bit. -/
theorem setbitAndFlipbitWriteOneBit : Obligations.SetbitAndFlipbitWriteOneBit := by
  refine fun d x v s => ⟨toNat_encode_setbit d x v, toNat_formatR_two 0x34 d x, setbit_writes, fun hv hcap => ?_,
    fun h => ?_, fun hbit hcap => ?_⟩
  · subst hv
    exact ⟨_, if_pos hcap, faultTaken_raise _ _ _⟩
  · obtain ⟨t, y, hx, hwrote, hy⟩ := flipbit_writes h
    refine ⟨t, y, hx, hwrote, fun j => (hy j).trans (ite_congr rfl (fun hj => ?_) fun _ => rfl)⟩
    rw [hj]
  · exact ⟨_, if_pos ⟨(testBit_val _ _).symm.trans hbit, hcap⟩, faultTaken_raise _ _ _⟩

/-- Settles O16: one write to `B[d]` each, of a number known by its bits. -/
theorem andOrXorActBitByBit : Obligations.AndOrXorActBitByBit := by
  refine fun d a b s => ⟨toNat_formatR_three 0x35 d a b, toNat_formatR_three 0x36 d a b, toNat_formatR_three 0x37 d a b,
    ?_, ?_, ?_⟩
  · obtain ⟨t, hx, hwrote, hval⟩ := finishFitting_writes_valB d (s.valB a &&& s.valB b) s
    exact ⟨t, hx, hwrote, fun j => hval ▸ Nat.testBit_and ..⟩
  · obtain ⟨t, hx, hwrote, hval⟩ := finishFitting_writes_valB d (s.valB a ||| s.valB b) s
    exact ⟨t, hx, hwrote, fun j => hval ▸ Nat.testBit_or ..⟩
  · obtain ⟨t, hx, hwrote, hval⟩ := finishFitting_writes_valB d (s.valB a ^^^ s.valB b) s
    exact ⟨t, hx, hwrote, fun j => hval ▸ Nat.testBit_xor ..⟩

/-- Settles O58: a completed left shift has kept the whole number; after a right shift the left shift fits, and what it
gives is the source with its low bits cleared. -/
theorem shiftBackLaws : Obligations.ShiftBackLaws := by
  refine ⟨fun s t d a e c hinv hx hc => ?_, fun s t d a e c hinv hx => ?_⟩
  · rw [exec_shl_eq_finishB (hinv.trimmed a)] at hx
    have hshl : WroteB d (words (s.valB a * 2 ^ s.natS c)) s t := wroteB_of_finishB hx hc
    obtain ⟨u, hu, hshr⟩ := finishFitting_writes e (t.valB d / 2 ^ t.natS c) t
    refine ⟨u, (exec_shr_eq_finishFitting e d c t).trans hu, hshr.completed, ?_⟩
    rw [hshr.dest, hshl.valB_dest, hshl.natS_eq, Nat.mul_div_cancel _ (Nat.two_pow_pos _)]
    exact words_val _ (hinv.trimmed a)
  · have hshr : WroteB d (words (s.valB a / 2 ^ s.natS c)) s t := by
      rw [exec_shr_eq_finishFitting] at hx
      cases Host.Outcome.next.inj hx
      exact wroteB_complete s d _
    have hle : t.valB d * 2 ^ t.natS c ≤ s.valB a := by
      rw [hshr.valB_dest, hshr.natS_eq]
      exact Nat.div_mul_le_self _ _
    have hfits : t.valB d * 2 ^ t.natS c < 2 ^ (32 * t.params.cap) := by
      rw [hshr.completed.control.params]
      exact hle.trans_lt (hinv.regsOk.valB_lt a)
    obtain ⟨u, hu, hshl⟩ := finishB_writes (.shl e d c) e hfits
    refine ⟨u, (exec_shl_eq_finishB (hshr.dest ▸ trimmed_words _)).trans hu, hshl.completed,
      hshl.valB_dest.trans_le hle, ?_⟩
    rw [hshl.dest, words_eq_iff (hinv.trimmed a), hshr.valB_dest, hshr.natS_eq]
    exact div_mul_two_pow_eq_iff _ _

end Sys2Proof.Machine
end

section
/-! Numerals: the digits of a number, most significant first, are the library's `Nat.digits` reversed, and so is what
the division loop and the direct datapath deliver (spec/44_radix_conversion.md R203 to R205). -/

namespace Sys2Proof.Machine

/-! ### Digits (44_radix_conversion.md R203) -/

/-- With room for every digit, the digit loop gives the library's digits, most significant first. -/
theorem digitsUpTo_eq {b : Nat} (hb : 2 ≤ b) (n v : Nat) (h : v < 2 ^ n) :
    digitsUpTo b n v = (Nat.digits b v).reverse := by
  induction n generalizing v with
  | zero =>
    obtain rfl : v = 0 := by simpa using h
    simp [digitsUpTo]
  | succ n ih =>
    rw [digitsUpTo]
    split
    next hv => simp [hv]
    next hv =>
      have hhalf : v / b ≤ v / 2 := Nat.div_le_div_left hb two_pos
      have hdiv : v / b < 2 ^ n := by omega
      rw [ih _ hdiv, Nat.digits_def' (by omega) (Nat.pos_of_ne_zero hv), List.reverse_cons]

theorem digits_eq_reverse {b : Nat} (hb : 2 ≤ b) (v : Nat) : digits v b = (Nat.digits b v).reverse :=
  digitsUpTo_eq hb _ v Nat.lt_log2_self

theorem digits_zero (b : Nat) : digits 0 b = [] := rfl

/-- The recursion of the rule (44_radix_conversion.md R203). -/
theorem digits_of_pos {b v : Nat} (hb : 2 ≤ b) (hv : 0 < v) : digits v b = digits (v / b) b ++ [v % b] := by
  rw [digits_eq_reverse hb, digits_eq_reverse hb, Nat.digits_def' (by omega) hv, List.reverse_cons]

theorem length_digits_le_iff {b : Nat} (hb : 2 ≤ b) (v k : Nat) : (digits v b).length ≤ k ↔ v < b ^ k := by
  rw [digits_eq_reverse hb, List.length_reverse, Nat.digits_length_le_iff (by omega)]

theorem lt_of_mem_digits {b v d : Nat} (hb : 2 ≤ b) (hd : d ∈ digits v b) : d < b := by
  rw [digits_eq_reverse hb, List.mem_reverse] at hd
  exact Nat.digits_lt_base (by omega) hd

/-- The digits spell the number. -/
theorem ofDigits_reverse_digits {b : Nat} (hb : 2 ≤ b) (v : Nat) : Nat.ofDigits b (digits v b).reverse = v := by
  rw [digits_eq_reverse hb, List.reverse_reverse, Nat.ofDigits_digits]

/-! ### The division datapath (44_radix_conversion.md R205) -/

theorem divisionLoop_eq (b n v : Nat) (ds : List Nat) : divisionLoop b n v ds = digitsUpTo b n v ++ ds := by
  induction n generalizing v ds with
  | zero => rfl
  | succ n ih =>
    rw [divisionLoop, digitsUpTo]
    split
    · rfl
    · rw [ih, List.append_assoc]

/-- The bit length of a buffer leaves the loop room for every digit. -/
theorem digitsByDivision_eq {b : Nat} (hb : 2 ≤ b) {a : Buf} (ha : Trimmed a) :
    digitsByDivision b a = digits (val a) b := by
  have hbits : val a < 2 ^ bits a := (val_lt_two_pow_iff_bits a ha _).2 le_rfl
  rw [digitsByDivision, divisionLoop_eq, List.append_nil, digitsUpTo_eq hb _ _ hbits, digits_eq_reverse hb]

/-! ### The direct datapath (44_radix_conversion.md R204) -/

/-- The `n` low digits of a number, least significant first, spell what is left of it below `b^n`. -/
theorem ofDigits_low_digits (b v n : Nat) :
    Nat.ofDigits b ((List.range n).map fun j => v / b ^ j % b) = v % b ^ n := by
  induction n with
  | zero => simp [Nat.mod_one]
  | succ n ih =>
    rw [List.range_succ, List.map_append, Nat.ofDigits_append, ih, Nat.mod_pow_succ]
    simp

@[simp] theorem length_wordDigits (g : Nat) (w : Word) : (wordDigits g w).length = 32 / g := by simp [wordDigits]

theorem lt_of_mem_wordDigits {g : Nat} {w : Word} {d : Nat} (hd : d ∈ wordDigits g w) : d < 2 ^ g := by
  obtain ⟨j, -, rfl⟩ := List.mem_map.1 hd
  exact Nat.mod_lt _ (Nat.two_pow_pos g)

/-- The digits of one word from the low end. -/
theorem reverse_wordDigits (g : Nat) (w : Word) :
    (wordDigits g w).reverse = (List.range (32 / g)).map fun j => w.toNat / (2 ^ g) ^ j % 2 ^ g := by
  refine List.ext_getElem (by simp) fun j hj _ => ?_
  have hj' : j < 32 / g := by simpa using hj
  have hpos : 32 / g - 1 - (32 / g - 1 - j) = j := by omega
  simp [wordDigits, hpos, Nat.shiftRight_eq_div_pow, Nat.pow_mul]

/-- A word is its digits, when these fill it. -/
theorem ofDigits_reverse_wordDigits {g : Nat} (hg : g ∣ 32) (w : Word) :
    Nat.ofDigits (2 ^ g) (wordDigits g w).reverse = w.toNat := by
  rw [reverse_wordDigits, ofDigits_low_digits, ← Nat.pow_mul, Nat.mul_div_cancel' hg]
  exact Nat.mod_eq_of_lt w.isLt

/-- The digits of all words, from the low end of the lowest word up, spell the value of the buffer. -/
theorem ofDigits_flatMap_wordDigits {g : Nat} (hg : g ∣ 32) (a : Buf) :
    Nat.ofDigits (2 ^ g) (a.flatMap fun w => (wordDigits g w).reverse) = val a := by
  induction a with
  | nil => rfl
  | cons w ws ih =>
    rw [List.flatMap_cons, Nat.ofDigits_append, ofDigits_reverse_wordDigits hg, ih, List.length_reverse,
      length_wordDigits, ← Nat.pow_mul, Nat.mul_div_cancel' hg, val_cons]

/-- Digits from the low end, delivered from the high end without the leading zeros, are the numeral. -/
theorem dropWhile_reverse_eq_digits {b : Nat} (hb : 2 ≤ b) (ds : List Nat) (hds : ∀ d ∈ ds, d < b) :
    ds.reverse.dropWhile (· == 0) = digits (Nat.ofDigits b ds) b := by
  induction ds using List.reverseRecOn with
  | nil => rfl
  | append_singleton ds d ih =>
    rw [List.reverse_concat, List.dropWhile_cons]
    by_cases hd : d = 0
    · subst hd
      rw [if_pos (beq_self_eq_true 0), Nat.ofDigits_append_zero]
      exact ih fun x hx => hds x (List.mem_append_left _ hx)
    · have htop : ∀ h, (ds ++ [d]).getLast h ≠ 0 := fun h => by simpa using hd
      rw [if_neg (by simpa using hd), digits_eq_reverse hb, Nat.digits_ofDigits b (by omega) _ hds htop,
        List.reverse_concat]

/-- Digits of `g` bits each, when they fill a word, make the direct datapath give the numeral in base `2^g`. -/
theorem digitsDirect_eq {g : Nat} (hpos : 0 < g) (hg : g ∣ 32) (a : Buf) :
    digitsDirect g a = digits (val a) (2 ^ g) := by
  have hflat : (a.reverse.map (wordDigits g)).flatten = (a.flatMap fun w => (wordDigits g w).reverse).reverse := by
    rw [List.reverse_flatMap, List.flatMap_def]
    simp [Function.comp_def]
  rw [digitsDirect, hflat, dropWhile_reverse_eq_digits (Nat.le_self_pow hpos.ne' 2), ofDigits_flatMap_wordDigits hg]
  intro d hd
  obtain ⟨w, -, hdw⟩ := List.mem_flatMap.1 hd
  exact lt_of_mem_wordDigits (List.mem_reverse.1 hdw)

theorem digitsDirect_one (a : Buf) : digitsDirect 1 a = digits (val a) 2 := digitsDirect_eq one_pos (by decide) a

theorem digitsDirect_four (a : Buf) : digitsDirect 4 a = digits (val a) 16 := digitsDirect_eq four_pos (by decide) a

/-- Whichever datapath the formatter takes, it gives the numeral. -/
theorem formatter_eq {b : Nat} (hb : 2 ≤ b) {a : Buf} (ha : Trimmed a) : formatter b a = digits (val a) b := by
  rw [formatter]
  split
  next h => rw [h, digitsDirect_one]
  next =>
    split
    next h => rw [h, digitsDirect_four]
    next => exact digitsByDivision_eq hb ha

/-! ### The obligation -/

/-- Settles O52: the digits are the library's, most significant first; both datapaths collect the same digits, the
direct one word by word. -/
theorem formatterGivesTheNumeral : Obligations.FormatterGivesTheNumeral :=
  fun b hb _ => ⟨digits_zero b, fun _ => digits_of_pos hb, fun v k => (length_digits_le_iff hb v k).symm,
    fun _ _ => lt_of_mem_digits hb, fun _ ha => ⟨formatter_eq hb ha, digitsByDivision_eq hb ha⟩,
    fun a _ => ⟨digitsDirect_one a, digitsDirect_four a⟩⟩

end Sys2Proof.Machine
end

section
/-! The scan: where it stops is the first character that is neither separator nor digit, its value is that of the digits
before, and the scan in a buffer follows it step by step (spec/44_radix_conversion.md R208 to R210). -/

namespace Sys2Proof.Machine

/-! ### Characters (44_radix_conversion.md R208, R209) -/

/-- The three rows of digit characters. -/
theorem digitValue_eq_some_iff (c : Byte) (d : Nat) : digitValue c = some d ↔
    (0x30 ≤ c.toNat ∧ c.toNat ≤ 0x39 ∧ d = c.toNat - 0x30) ∨
    (0x61 ≤ c.toNat ∧ c.toNat ≤ 0x7A ∧ d = c.toNat - 0x61 + 10) ∨
    (0x41 ≤ c.toNat ∧ c.toNat ≤ 0x5A ∧ d = c.toNat - 0x41 + 10) := by
  unfold digitValue
  split
  · simp only [Option.some.injEq]; omega
  · split
    · simp only [Option.some.injEq]; omega
    · split
      · simp only [Option.some.injEq]; omega
      · simp only [reduceCtorEq, false_iff]; omega

theorem validDigit_eq_some_iff (base : Nat) (c : Byte) (d : Nat) :
    validDigit base c = some d ↔ digitValue c = some d ∧ d < base := by
  simp [validDigit, Option.filter_eq_some_iff]

/-- A character at which the scan stops: neither separator nor digit of the base. -/
def stopsScan (sep : Byte) (base : Nat) (c : Byte) : Bool := c != sep && (validDigit base c).isNone

theorem stopsScan_eq_true_iff (sep : Byte) (base : Nat) (c : Byte) :
    stopsScan sep base c = true ↔ c ≠ sep ∧ ∀ d, digitValue c = some d → base ≤ d := by
  simp [stopsScan, Option.eq_none_iff_forall_ne_some, validDigit_eq_some_iff]

theorem stopsScan_eq_false_iff (sep : Byte) (base : Nat) (c : Byte) :
    stopsScan sep base c = false ↔ c = sep ∨ ∃ d, digitValue c = some d ∧ d < base := by
  rw [← Bool.not_eq_true, stopsScan_eq_true_iff]
  simp only [not_and_or, not_not, not_forall, not_le, exists_prop]

/-! ### One character of a scan (44_radix_conversion.md R210) -/

section
variable (sep : Byte) (base : Nat) (cs : List Byte) (p : Nat)

theorem scan_sep (v : Nat) : scan sep base (sep :: cs) v p = scan sep base cs v (p + 1) := by
  rw [scan, if_pos rfl]

theorem scanUnit_sep (w : Buf) : scanUnit sep base (sep :: cs) w p = scanUnit sep base cs w (p + 1) := by
  rw [scanUnit, if_pos rfl]

variable {sep base} {c : Byte} (hsep : c ≠ sep)
include hsep

theorem scan_digit {d : Nat} (hd : validDigit base c = some d) (v : Nat) :
    scan sep base (c :: cs) v p = scan sep base cs (v * base + d) (p + 1) := by
  rw [scan, if_neg hsep, hd]

theorem scanUnit_digit {d : Nat} (hd : validDigit base c = some d) (w : Buf) :
    scanUnit sep base (c :: cs) w p = scanUnit sep base cs (adder (multiplier w (words base)) (words d)) (p + 1) := by
  rw [scanUnit, if_neg hsep, hd]

theorem scan_invalid (hd : validDigit base c = none) (v : Nat) : scan sep base (c :: cs) v p = (v, p) := by
  rw [scan, if_neg hsep, hd]

theorem scanUnit_invalid (hd : validDigit base c = none) (w : Buf) : scanUnit sep base (c :: cs) w p = (w, p) := by
  rw [scanUnit, if_neg hsep, hd]

end

/-! ### What the scan answers (44_radix_conversion.md R210) -/

/-- The digits among the characters of a text, separators stepped over. -/
def digitsIn (sep : Byte) (t : List Byte) : List Nat :=
  t.filterMap fun c => if c = sep then none else digitValue c

/-- The number that digits spell in a base, the most significant first, after a value `v`. -/
def spell (base v : Nat) (ds : List Nat) : Nat := ds.foldl (fun v d => v * base + d) v

theorem spell_zero (base : Nat) (ds : List Nat) : spell base 0 ds = Nat.ofDigits base ds.reverse := by
  simp [spell, Nat.ofDigits_eq_foldr, List.foldr_reverse, Nat.add_comm, Nat.mul_comm]

/-- The scan consumes the characters before the first one that stops it, and spells the digits among them. -/
theorem scan_eq (sep : Byte) (base : Nat) (t : List Byte) (v p : Nat) :
    scan sep base t v p =
      (spell base v (digitsIn sep (t.take (t.findIdx (stopsScan sep base)))), p + t.findIdx (stopsScan sep base)) := by
  induction t generalizing v p with
  | nil => rfl
  | cons c cs ih =>
    by_cases hsep : c = sep
    · subst hsep
      have hgo : stopsScan c base c = false := (stopsScan_eq_false_iff ..).2 (.inl rfl)
      rw [scan_sep, ih]
      simp [hgo, List.findIdx_cons, digitsIn, Nat.add_assoc, Nat.add_comm 1]
    · cases hd : validDigit base c with
      | some d =>
        have hvalue := (validDigit_eq_some_iff base c d).1 hd
        have hgo : stopsScan sep base c = false := (stopsScan_eq_false_iff ..).2 (.inr ⟨d, hvalue⟩)
        rw [scan_digit cs p hsep hd, ih]
        simp [hsep, hgo, hvalue.1, List.findIdx_cons, digitsIn, spell, Nat.add_assoc, Nat.add_comm 1]
      | none =>
        have hstop : stopsScan sep base c = true := by simp [stopsScan, hsep, hd]
        rw [scan_invalid cs p hsep hd]
        simp [hstop, List.findIdx_cons, digitsIn, spell]

/-- With its accumulator in a buffer the scan answers the words of the value. -/
theorem scanUnit_words (sep : Byte) (base : Nat) (t : List Byte) (v p : Nat) :
    scanUnit sep base t (words v) p = (words (scan sep base t v p).1, (scan sep base t v p).2) := by
  induction t generalizing v p with
  | nil => rfl
  | cons c cs ih =>
    by_cases hsep : c = sep
    · subst hsep
      rw [scanUnit_sep, scan_sep, ih]
    · cases hd : validDigit base c with
      | some d =>
        rw [scanUnit_digit cs p hsep hd, scan_digit cs p hsep hd, multiplier_words, adder_words, ih]
      | none => rw [scanUnit_invalid cs p hsep hd, scan_invalid cs p hsep hd]

/-! ### The obligation -/

/-- Settles O53: the scan ends at the first character that stops it, and the units of the datapath keep the value. -/
theorem scanConsumesUpToTheFirstInvalid : Obligations.ScanConsumesUpToTheFirstInvalid := by
  refine ⟨digitValue_eq_some_iff, fun sep base t p v used hp hscan => ?_⟩
  have hunit := scanUnit_words sep base (t.drop p) 0 p
  rw [hscan, words_zero] at hunit
  rw [scan_eq, spell_zero, Prod.mk.injEq] at hscan
  obtain ⟨hv, hused⟩ := hscan
  have hlen : (t.drop p).findIdx (stopsScan sep base) ≤ t.length - p := by
    simpa using List.findIdx_le_length (xs := t.drop p) (p := stopsScan sep base)
  have hconsumed : (t.take used).drop p = (t.drop p).take ((t.drop p).findIdx (stopsScan sep base)) := by
    rw [List.drop_take, ← hused, Nat.add_sub_cancel_left]
  refine ⟨by omega, by omega, fun j hj hpj hju => ?_, fun hlt => ?_, ?_, hunit⟩
  · have hbefore := List.not_of_lt_findIdx (xs := t.drop p) (p := stopsScan sep base) (i := j - p) (by omega)
    simpa [stopsScan_eq_false_iff, Nat.add_sub_of_le hpj] using hbefore
  · have hstop := List.findIdx_getElem (xs := t.drop p) (p := stopsScan sep base)
      (w := by rw [List.length_drop]; omega)
    simpa [stopsScan_eq_true_iff, hused] using hstop
  · rw [hconsumed, ← hv]
    rfl

end Sys2Proof.Machine
end

section
/-! `FMT` and `PARSE`: their words, their faults in order, what each leaves, and that the second reads what the first
has written (spec/44_radix_conversion.md R201 to R212). -/

namespace Sys2Proof

/-! ### Command words (30_encoding.md R71) -/

/-- The number of a format R word that uses all five register fields. -/
theorem toNat_formatR_five (op : BitVec 8) (r1 r2 r3 r4 r5 : Fin 16) :
    (formatR op (regField r1) (regField r2) (regField r3) (regField r4) (regField r5)).toNat =
      op.toNat * 2 ^ 24 + r1.val * 2 ^ 20 + r2.val * 2 ^ 16 + r3.val * 2 ^ 12 + r4.val * 2 ^ 8 + r5.val * 2 ^ 4 := by
  simp [toNat_formatR]

end Sys2Proof

namespace Sys2Proof.Machine

/-! ### The characters of digits (44_radix_conversion.md R201) -/

theorem toNat_digitChar {d : Nat} (hd : d < 36) :
    (digitChar d).toNat = if d ≤ 9 then 0x30 + d else 0x61 + (d - 10) := by
  unfold digitChar
  split <;> simp only [BitVec.toNat_ofNat] <;> omega

/-- What is written for a digit is read as that digit. -/
theorem validDigit_digitChar {b d : Nat} (hb : b ≤ 36) (hd : d < b) : validDigit b (digitChar d) = some d := by
  have hchar := toNat_digitChar (d := d) (by omega)
  refine (validDigit_eq_some_iff ..).2 ⟨(digitValue_eq_some_iff ..).2 ?_, hd⟩
  split at hchar <;> omega

/-- No digit is written with the separator (00_scope.md R8). -/
theorem digitChar_ne_sep {sep : Byte} (hsep : isAsciiAlnum sep = false) {d : Nat} (hd : d < 36) :
    digitChar d ≠ sep := by
  rintro rfl
  have hchar := toNat_digitChar hd
  simp only [isAsciiAlnum, Bool.or_eq_false_iff, Bool.and_eq_false_iff, decide_eq_false_iff_not] at hsep
  split at hchar <;> omega

/-! ### The text of FMT (44_radix_conversion.md R202) -/

/-- The padding is written as zero digits. -/
theorem fmtText_eq_map (L : Nat) (ds : List Nat) :
    fmtText L ds = (List.replicate (L - ds.length) 0 ++ ds).map digitChar := by
  simp [fmtText, digitChar]

theorem getElem_fmtText {L : Nat} {ds : List Nat} {j : Nat} (h : j < (fmtText L ds).length) :
    (fmtText L ds)[j] = if j < L - ds.length then 0x30 else digitChar (ds.getD (j - (L - ds.length)) 0) := by
  simp only [fmtText, List.getElem_append, List.length_replicate]
  split
  · simp
  · rw [List.getElem_map, List.getD_eq_getElem]

/-! ### Reading the text of FMT (44_radix_conversion.md R212) -/

/-- The scan of written digits consumes all of them and spells them. -/
theorem scan_map_digitChar {sep : Byte} {b : Nat} (hsep : isAsciiAlnum sep = false) (hb : b ≤ 36) (ds : List Nat)
    (hds : ∀ d ∈ ds, d < b) (v p : Nat) :
    scan sep b (ds.map digitChar) v p = (spell b v ds, p + ds.length) := by
  induction ds generalizing v p with
  | nil => rfl
  | cons d ds ih =>
    obtain ⟨hd, hrest⟩ := List.forall_mem_cons.1 hds
    have hne : digitChar d ≠ sep := digitChar_ne_sep hsep (by omega)
    rw [List.map_cons, scan_digit _ p hne (validDigit_digitChar hb hd), ih hrest]
    simp [spell, Nat.add_assoc, Nat.add_comm 1]

/-- A padded numeral spells its number. -/
theorem spell_padded_digits {b : Nat} (hb : 2 ≤ b) (n v : Nat) :
    spell b 0 (List.replicate n 0 ++ digits v b) = v := by
  rw [spell_zero, List.reverse_append, List.reverse_replicate, Nat.ofDigits_append_replicate_zero,
    ofDigits_reverse_digits hb]

theorem lt_of_mem_padded_digits {b n v d : Nat} (hb : 2 ≤ b) (hd : d ∈ List.replicate n 0 ++ digits v b) : d < b := by
  rcases List.mem_append.1 hd with hzero | hdigit
  · rw [List.eq_of_mem_replicate hzero]
    omega
  · exact lt_of_mem_digits hb hdigit

theorem scan_fmtText {sep : Byte} {b v L : Nat} (hsep : isAsciiAlnum sep = false) (hb : 2 ≤ b) (hb36 : b ≤ 36)
    (hL : (digits v b).length ≤ L) : scan sep b (fmtText L (digits v b)) 0 0 = (v, L) := by
  rw [fmtText_eq_map, scan_map_digitChar hsep hb36 _ fun _ => lt_of_mem_padded_digits hb, spell_padded_digits hb]
  simp [hL]

/-! ### The base of PARSE (44_radix_conversion.md R206, R207) -/

theorem parseBase_of_ne_zero {base : Nat} (h : base ≠ 0) (t : List Byte) : parseBase base t = (base, 0) := if_neg h

/-- Auto-detection by the first two characters, where they are (44_radix_conversion.md R207). -/
theorem parseBase_zero (t : List Byte) : parseBase 0 t =
    if t[0]? = some 0x30 ∧ (t[1]? = some 0x62 ∨ t[1]? = some 0x42) then (2, 2)
    else if t[0]? = some 0x30 ∧ (t[1]? = some 0x78 ∨ t[1]? = some 0x58) then (16, 2)
    else (10, 0) := by
  rcases t with _ | ⟨c0, _ | ⟨c1, cs⟩⟩ <;> simp [parseBase, detectBase]

theorem parseText_of_parseBase {base b p : Nat} {t : List Byte} (sep : Byte) (h : parseBase base t = (b, p)) :
    parseText sep base t = scan sep b (t.drop p) 0 p := by
  rw [parseText, h]

/-- A second character up to `9` marks no base. -/
theorem parseBase_zero_of_second_le {t : List Byte} (h : ∀ c, t[1]? = some c → c.toNat ≤ 0x39) :
    parseBase 0 t = (10, 0) := by
  have hne (c : Byte) (hc : 0x39 < c.toNat) : t[1]? ≠ some c := fun hsome => absurd (h c hsome) (Nat.not_le.2 hc)
  simp [parseBase_zero, hne]

/-- A decimal numeral marks no base. -/
theorem parseBase_zero_map_digitChar {ds : List Nat} (hds : ∀ d ∈ ds, d < 10) :
    parseBase 0 (ds.map digitChar) = (10, 0) := by
  refine parseBase_zero_of_second_le fun c hc => ?_
  rw [List.getElem?_map, Option.map_eq_some_iff] at hc
  obtain ⟨d, hd, rfl⟩ := hc
  have hlt : d < 10 := hds d (List.mem_of_getElem? hd)
  rw [toNat_digitChar (by omega), if_pos (by omega)]
  omega

/-- `PARSE` of the text of `FMT` with the same base (44_radix_conversion.md R212). -/
theorem parseText_fmtText {sep : Byte} {b v L : Nat} (hsep : isAsciiAlnum sep = false) (hb : 2 ≤ b) (hb36 : b ≤ 36)
    (hL : (digits v b).length ≤ L) : parseText sep b (fmtText L (digits v b)) = (v, L) :=
  (parseText_of_parseBase sep (parseBase_of_ne_zero (by omega) _)).trans (scan_fmtText hsep hb hb36 hL)

/-- `PARSE` of a decimal text of `FMT` under auto-detection (44_radix_conversion.md R212). -/
theorem parseText_zero_fmtText {sep : Byte} {v L : Nat} (hsep : isAsciiAlnum sep = false)
    (hL : (digits v 10).length ≤ L) : parseText sep 0 (fmtText L (digits v 10)) = (v, L) := by
  have hbase : parseBase 0 (fmtText L (digits v 10)) = (10, 0) := by
    rw [fmtText_eq_map]
    exact parseBase_zero_map_digitChar fun _ => lt_of_mem_padded_digits (by norm_num)
  exact (parseText_of_parseBase sep hbase).trans (scan_fmtText hsep (by norm_num) (by norm_num) hL)

/-! ### What FMT does (44_radix_conversion.md R202) -/

/-- What a completed `FMT` leaves: the text of `L` characters at `addr`, and `L` in `S[l]`. -/
def State.fmtDone (s : State) (l : SReg) (addr L : Nat) (ds : List Nat) : State :=
  ((s.memWrite addr (fmtText L ds)).writeS l (BitVec.ofNat 64 L)).complete

section
variable {l : SReg} {a : BReg} {b m p : SReg} {s : State}

theorem exec_fmt_of_bad_base (h : s.natS b < 2 ∨ 36 < s.natS b) :
    exec (.fmt l a b m p) s = raised .badBase (.fmt l a b m p) s := if_pos h

variable {ds : List Nat} {L : Nat} (hb : 2 ≤ s.natS b) (hb36 : s.natS b ≤ 36)
  (hds : ds = digits (s.valB a) (s.natS b)) (hL : L = max ds.length (s.natS m))
include hb hb36 hds hL

theorem exec_fmt_eq_ite : exec (.fmt l a b m p) s =
    if s.inRange (s.natS p) L then .next (s.fmtDone l (s.natS p) L ds) else raised .bmRange (.fmt l a b m p) s := by
  subst hds hL
  exact if_neg (by omega)

theorem exec_fmt_of_inside (hin : s.natS p + L ≤ s.params.bmSize) :
    exec (.fmt l a b m p) s = .next (s.fmtDone l (s.natS p) L ds) :=
  (exec_fmt_eq_ite hb hb36 hds hL).trans (if_pos (decide_eq_true hin))

theorem exec_fmt_of_outside (hout : s.params.bmSize < s.natS p + L) :
    exec (.fmt l a b m p) s = raised .bmRange (.fmt l a b m p) s :=
  (exec_fmt_eq_ite hb hb36 hds hL).trans (if_neg (by simpa [State.inRange] using hout))

end

section
variable (s : State) (l : SReg) (addr L : Nat) (ds : List Nat)

@[simp] theorem State.fmtDone_params : (s.fmtDone l addr L ds).params = s.params := rfl

@[simp] theorem State.fmtDone_readS_same : (s.fmtDone l addr L ds).readS l = BitVec.ofNat 64 L := by
  simp [State.fmtDone]

@[simp] theorem State.fmtDone_readS_ne {c : SReg} (h : c ≠ l) : (s.fmtDone l addr L ds).readS c = s.readS c := by
  simp [State.fmtDone, h]

@[simp] theorem State.fmtDone_readB (r : BReg) : (s.fmtDone l addr L ds).readB r = s.readB r := rfl

theorem State.fmtDone_readByte (x : Nat) :
    (s.fmtDone l addr L ds).readByte x = (s.memWrite addr (fmtText L ds)).readByte x := rfl

theorem State.fmtDone_natS_ne {c : SReg} (h : c ≠ l) : (s.fmtDone l addr L ds).natS c = s.natS c :=
  congrArg BitVec.toNat (s.fmtDone_readS_ne l addr L ds h)

theorem completed_fmtDone : Completed s (s.fmtDone l addr L ds) :=
  completed_complete s _ rfl rfl ⟨rfl, rfl, rfl, rfl, rfl, rfl⟩

variable {s L}

/-- In a BM of at most `2^32` bytes the length that `FMT` writes is the length (00_scope.md R8). -/
theorem State.fmtDone_natS_same (hvalid : s.params.Valid) (hin : addr + L ≤ s.params.bmSize) :
    (s.fmtDone l addr L ds).natS l = L := by
  obtain ⟨-, hsize, -⟩ := hvalid
  rw [State.natS, State.fmtDone_readS_same, BitVec.toNat_ofNat]
  omega

variable {ds} (hlen : ds.length ≤ L)
include hlen

/-- The text that `FMT` has written is read back. -/
theorem State.fmtDone_memRead : (s.fmtDone l addr L ds).memRead addr L = fmtText L ds := by
  have hread := s.memRead_memWrite addr (fmtText L ds)
  rwa [length_fmtText L ds hlen] at hread

theorem State.fmtDone_readByte_outside : SameBMOutside addr L s (s.fmtDone l addr L ds) := by
  intro x hx
  rw [State.fmtDone_readByte, State.readByte_memWrite_outside]
  rwa [length_fmtText L ds hlen]

theorem State.fmtDone_readByte_inside {j : Nat} (hj : j < L) : (s.fmtDone l addr L ds).readByte (addr + j) =
    if j < L - ds.length then 0x30 else digitChar (ds.getD (j - (L - ds.length)) 0) := by
  have hj' : j < (fmtText L ds).length := by rwa [length_fmtText L ds hlen]
  rw [State.fmtDone_readByte, State.readByte_memWrite_inside _ _ _ _ hj', getElem_fmtText hj']

end

/-- A completed `FMT` had a base and a range that are legal (44_radix_conversion.md R202). -/
theorem fmt_legal_of_completed {l : SReg} {a : BReg} {b m p : SReg} {s t : State}
    (hx : exec (.fmt l a b m p) s = .next t) (hc : Completed s t) :
    (2 ≤ s.natS b ∧ s.natS b ≤ 36) ∧
      s.natS p + max (digits (s.valB a) (s.natS b)).length (s.natS m) ≤ s.params.bmSize := by
  have hnofault (f : Cause) : exec (.fmt l a b m p) s ≠ raised f (.fmt l a b m p) s := by
    intro hf
    cases Host.Outcome.next.inj (hx.symm.trans hf)
    exact (faultTaken_raise _ _ _).not_completed hc
  have hbase : 2 ≤ s.natS b ∧ s.natS b ≤ 36 := by
    by_contra hbad
    exact hnofault .badBase (exec_fmt_of_bad_base (by omega))
  refine ⟨hbase, ?_⟩
  by_contra hout
  exact hnofault .bmRange (exec_fmt_of_outside hbase.1 hbase.2 rfl rfl (Nat.not_le.1 hout))

/-! ### What PARSE does (44_radix_conversion.md R211) -/

/-- What a completed `PARSE` leaves: the words of the value in `B[d]`, the characters consumed in `S[c]`. -/
def State.parseDone (s : State) (d : BReg) (c : SReg) (v used : Nat) : State :=
  ((s.writeB d (words v)).writeS c (BitVec.ofNat 64 used)).complete

/-- The characters consumed are among those of the run that `PARSE` reads. -/
theorem consumed_le_of_parseText_memRead {sep : Byte} {base addr n v used : Nat} {s : State}
    (htext : parseText sep base (s.memRead addr n) = (v, used)) : used ≤ n := by
  have hle := parseText_consumed_le sep base (s.memRead addr n)
  rwa [htext, State.length_memRead] at hle

section
variable {d : BReg} {c b p n : SReg} {s : State}

theorem exec_parse_of_bad_base (h : s.natS b = 1 ∨ 36 < s.natS b) :
    exec (.parse d c b p n) s = raised .badBase (.parse d c b p n) s := if_pos h

variable (hb : s.natS b ≠ 1) (hb36 : s.natS b ≤ 36)
include hb hb36

theorem exec_parse_of_outside (hout : s.params.bmSize < s.natS p + s.natS n) :
    exec (.parse d c b p n) s = raised .bmRange (.parse d c b p n) s :=
  (if_neg (by omega)).trans (if_neg (mt (runOk_iff s p n).1 (Nat.not_le.2 hout)))

variable (hin : s.natS p + s.natS n ≤ s.params.bmSize) {v used : Nat}
  (htext : parseText s.params.sep (s.natS b) (s.memRead (s.natS p) (s.natS n)) = (v, used))
include hin htext

theorem exec_parse_eq_ite : exec (.parse d c b p n) s =
    if s.params.cap < (words v).length then raised .capOverflow (.parse d c b p n) s
    else .next (s.parseDone d c v used) := by
  rw [exec, execParse, if_neg (by omega), if_pos ((runOk_iff s p n).2 hin), State.runBytes, htext]
  rfl

theorem exec_parse_of_overflow (hv : 2 ^ (32 * s.params.cap) ≤ v) :
    exec (.parse d c b p n) s = raised .capOverflow (.parse d c b p n) s := by
  have hlen : s.params.cap < (words v).length := by
    rw [← Nat.not_le, length_words_le_iff]
    omega
  rw [exec_parse_eq_ite hb hb36 hin htext, if_pos hlen]

theorem exec_parse_of_fits (hv : v < 2 ^ (32 * s.params.cap)) :
    exec (.parse d c b p n) s = .next (s.parseDone d c v used) := by
  rw [exec_parse_eq_ite hb hb36 hin htext, if_neg (Nat.not_lt.2 ((length_words_le_iff ..).2 hv))]

end

section
variable (s : State) (d : BReg) (c : SReg) (v used : Nat)

@[simp] theorem State.parseDone_readB_same : (s.parseDone d c v used).readB d = words v := by simp [State.parseDone]

@[simp] theorem State.parseDone_readB_ne {r : BReg} (h : r ≠ d) : (s.parseDone d c v used).readB r = s.readB r := by
  simp [State.parseDone, h]

@[simp] theorem State.parseDone_readS_same : (s.parseDone d c v used).readS c = BitVec.ofNat 64 used := by
  simp [State.parseDone]

@[simp] theorem State.parseDone_readS_ne {x : SReg} (h : x ≠ c) : (s.parseDone d c v used).readS x = s.readS x := by
  simp [State.parseDone, h]

@[simp] theorem State.parseDone_readByte (x : Nat) : (s.parseDone d c v used).readByte x = s.readByte x := rfl

theorem completed_parseDone : Completed s (s.parseDone d c v used) :=
  completed_complete s _ rfl rfl ⟨rfl, rfl, rfl, rfl, rfl, rfl⟩

end

/-! ### The obligations -/

/-- Settles O17: the text is one run of BM, its padding and its digits by position. -/
theorem fmtWritesTheNumeral : Obligations.FmtWritesTheNumeral := by
  refine ⟨fun _ => toNat_digitChar, fun l a b m p s => ⟨toNat_formatR_five 0x40 l a b m p, fun hbad => ?_,
    fun hb hb36 ds L hds hL => ⟨fun hout => ?_, fun hin => ?_⟩⟩⟩
  · rw [exec_fmt_of_bad_base hbad]
    exact raised_takesFault .badBase _ s
  · rw [exec_fmt_of_outside hb hb36 hds hL hout]
    exact raised_takesFault .bmRange _ s
  · have hlen : ds.length ≤ L := hL ▸ le_max_left _ _
    exact ⟨_, exec_fmt_of_inside hb hb36 hds hL hin, State.fmtDone_readS_same ..,
      fun hvalid => State.fmtDone_natS_same _ _ _ hvalid hin, fun _ hi => State.fmtDone_readS_ne (h := hi) ..,
      fun _ => State.fmtDone_readB .., completed_fmtDone .., State.fmtDone_readByte_outside _ _ hlen,
      fun _ => State.fmtDone_readByte_inside _ _ hlen⟩

/-- Settles O18: base and start by the first two characters, then the scan, and one write to each register. -/
theorem parseReadsANumeral : Obligations.ParseReadsANumeral := by
  refine ⟨fun sep base t => ⟨fun h => parseBase_of_ne_zero h t, fun h0 h1 => ?_, fun h0 h1 => ?_, fun hnone => ?_,
    fun _ _ => parseText_of_parseBase sep⟩, fun d c b p n s => ⟨toNat_formatR_five 0x41 d c b p n, fun hbad => ?_,
    fun hb hb36 => ⟨fun hout => ?_, fun hin v used htext => ⟨fun hover => ?_, fun hfits => ?_⟩⟩⟩⟩
  · rw [parseBase_zero, if_pos ⟨h0, h1⟩]
  · have hnot : ¬ (t[1]? = some 0x62 ∨ t[1]? = some 0x42) := by
      rcases h1 with h | h <;> rw [h] <;> decide
    rw [parseBase_zero, if_neg (fun h => hnot h.2), if_pos ⟨h0, h1⟩]
  · rw [parseBase_zero, if_neg (by tauto), if_neg (by tauto)]
  · rw [exec_parse_of_bad_base hbad]
    exact raised_takesFault .badBase _ s
  · rw [exec_parse_of_outside hb hb36 hout]
    exact raised_takesFault .bmRange _ s
  · rw [exec_parse_of_overflow hb hb36 hin htext hover]
    exact raised_takesFault .capOverflow _ s
  · have hused : used ≤ s.natS n := consumed_le_of_parseText_memRead htext
    have hlt : s.natS n < 2 ^ 64 := (s.readS n).isLt
    refine ⟨_, exec_parse_of_fits hb hb36 hin htext hfits, State.parseDone_readB_same ..,
      fun _ hi => State.parseDone_readB_ne (h := hi) .., State.parseDone_readS_same .., hused, ?_,
      fun _ hi => State.parseDone_readS_ne (h := hi) .., fun _ => State.parseDone_readByte .., completed_parseDone ..⟩
    rw [State.natS, State.parseDone_readS_same, BitVec.toNat_ofNat, Nat.mod_eq_of_lt (hused.trans_lt hlt)]

/-- Settles O55: the text stands where `PARSE` reads it, written digits are read back as they are, and the value is that
of a register, so it fits one. -/
theorem fmtThenParseGivesTheValueBack : Obligations.FmtThenParseGivesTheValueBack := by
  refine ⟨fun s t l a b m p d c hinv hlb hlp hx hc => ?_,
    fun sep b v md L hsep hb hb36 hL => parseText_fmtText hsep hb hb36 (hL ▸ le_max_left _ _),
    fun sep v md L hsep hL => parseText_zero_fmtText hsep (hL ▸ le_max_left _ _)⟩
  obtain ⟨⟨hb, hb36⟩, hin⟩ := fmt_legal_of_completed hx hc
  have hdone := exec_fmt_of_inside (l := l) hb hb36 rfl rfl hin
  generalize hL : max (digits (s.valB a) (s.natS b)).length (s.natS m) = L at hin hdone
  have hlen : (digits (s.valB a) (s.natS b)).length ≤ L := hL ▸ le_max_left _ _
  obtain ⟨-, -, hsep⟩ := hinv.params
  cases Host.Outcome.next.inj (hx.symm.trans hdone)
  generalize ht : s.fmtDone l (s.natS p) L (digits (s.valB a) (s.natS b)) = t
  have hbase : t.natS b = s.natS b := ht ▸ State.fmtDone_natS_ne _ _ _ _ _ hlb.symm
  have haddr : t.natS p = s.natS p := ht ▸ State.fmtDone_natS_ne _ _ _ _ _ hlp.symm
  have hlength : t.natS l = L := ht ▸ State.fmtDone_natS_same _ _ _ hinv.params hin
  have hparams : t.params = s.params := ht ▸ rfl
  have htext : parseText t.params.sep (t.natS b) (t.memRead (t.natS p) (t.natS l)) = (s.valB a, L) := by
    rw [hparams, hbase, haddr, hlength, ← ht, State.fmtDone_memRead _ _ hlen]
    exact parseText_fmtText hsep hb hb36 hlen
  have hfits : s.valB a < 2 ^ (32 * t.params.cap) := hparams ▸ hinv.regsOk.valB_lt a
  refine ⟨_, exec_parse_of_fits (by omega) (by omega) (by rwa [hparams, haddr, hlength]) htext hfits,
    completed_parseDone .., ?_, ?_⟩
  · rw [State.parseDone_readB_same]
    exact words_val _ (hinv.trimmed a)
  · rw [State.parseDone_readS_same, ← ht, State.fmtDone_readS_same]

end Sys2Proof.Machine
end

section
/-! Byte strings as numbers in base 256: the two orders are each other's reverse, `n` bytes of a number give its low
part, and the words assembled from bytes stand for the number (spec/45_byte_io.md R231 to R235). -/

namespace Sys2Proof.Machine

/-! ### The number of a byte string (45_byte_io.md R233, R234) -/

/-- The bytes are the digits of the number, the first of lowest weight. -/
theorem valLE_eq_ofDigits (bs : List Byte) : valLE bs = Nat.ofDigits (2 ^ 8) (bs.map BitVec.toNat) := by
  induction bs with
  | nil => rfl
  | cons b bs ih => rw [valLE, ih, List.map_cons, Nat.ofDigits_cons]

/-- A big-endian number is what its bytes spell, as the digits of a numeral do. -/
theorem valBE_eq_spell (bs : List Byte) : valBE bs = spell (2 ^ 8) 0 (bs.map BitVec.toNat) := by
  rw [valBE, spell, List.foldl_map]

/-- Reading big-endian is reading the reverse little-endian (45_byte_io.md R235). -/
theorem valBE_eq_valLE_reverse (bs : List Byte) : valBE bs = valLE bs.reverse := by
  rw [valBE_eq_spell, spell_zero, valLE_eq_ofDigits, List.map_reverse]

/-- A byte string in big-endian order as a sum of weights (45_byte_io.md R233). -/
theorem valBE_eq_sum (bs : List Byte) :
    valBE bs = ∑ j ∈ Finset.range bs.length, (bs.getD j 0).toNat * 2 ^ (8 * (bs.length - 1 - j)) := by
  rw [valBE_eq_valLE_reverse, valLE_eq_sum, List.length_reverse, ← Finset.sum_range_reflect]
  refine Finset.sum_congr rfl fun j hj => ?_
  have hlt : j < bs.length := Finset.mem_range.1 hj
  have hback : bs.length - 1 - (bs.length - 1 - j) = j := by omega
  rw [List.getD_reverse _ (by omega), hback]

/-! ### The bytes of a number (45_byte_io.md R231, R232) -/

/-- The two orders write each other's reverse (45_byte_io.md R235). -/
theorem bytesBE_eq_reverse (v n : Nat) : bytesBE v n = (bytesLE v n).reverse :=
  List.ext_getElem (by simp) fun j _ _ => by simp [bytesBE, bytesLE]

/-- What `n` bytes keep of a number: high-order bytes are lost (45_byte_io.md R235). -/
theorem valLE_bytesLE (v n : Nat) : valLE (bytesLE v n) = v % 2 ^ (8 * n) := by
  have hdigits : (bytesLE v n).map BitVec.toNat = (List.range n).map fun j => v / (2 ^ 8) ^ j % 2 ^ 8 := by
    simp [bytesLE, Function.comp_def, Nat.pow_mul]
  rw [valLE_eq_ofDigits, hdigits, ofDigits_low_digits, Nat.pow_mul]

theorem valBE_bytesBE (v n : Nat) : valBE (bytesBE v n) = v % 2 ^ (8 * n) := by
  rw [valBE_eq_valLE_reverse, bytesBE_eq_reverse, List.reverse_reverse, valLE_bytesLE]

/-! ### Assembly of words from bytes (45_byte_io.md R233, R234) -/

theorem toNat_wordOfBytes (b0 b1 b2 b3 : Byte) :
    (wordOfBytes b0 b1 b2 b3).toNat =
      b0.toNat + b1.toNat * 2 ^ 8 + b2.toNat * 2 ^ 16 + b3.toNat * 2 ^ 24 := by
  have h0 := b0.isLt
  have h1 := b1.isLt
  have h2 := b2.isLt
  rw [wordOfBytes, BitVec.toNat_append, BitVec.toNat_append, BitVec.toNat_append,
    ← Nat.shiftLeft_add_eq_or_of_lt h0, ← Nat.shiftLeft_add_eq_or_of_lt h1, ← Nat.shiftLeft_add_eq_or_of_lt h2]
  simp only [Nat.shiftLeft_eq]
  omega

/-- Words of four bytes each stand for the bytes at their weights. -/
theorem val_map_wordOfBytes (f : Nat → Byte) (n : Nat) :
    val ((List.range n).map fun i => wordOfBytes (f (4 * i)) (f (4 * i + 1)) (f (4 * i + 2)) (f (4 * i + 3))) =
      ∑ j ∈ Finset.range (4 * n), (f j).toNat * 2 ^ (8 * j) := by
  induction n with
  | zero => rfl
  | succ n ih =>
    rw [List.range_succ, List.map_append, val_append, ih, Nat.mul_succ 4 n]
    simp only [Finset.sum_range_succ, List.map_cons, List.map_nil, val_cons, val_nil, toNat_wordOfBytes,
      List.length_map, List.length_range]
    ring

/-- The words assembled from bytes in little-endian order, absent bytes zero, are those of the number. -/
theorem assembleLE_eq_words (bs : List Byte) : assembleLE bs = words (valLE bs) := by
  have habsent : ∀ j ≥ bs.length, (bs.getD j 0).toNat * 2 ^ (8 * j) = 0 := fun j hj => by
    rw [List.getD_eq_default bs 0 hj]
    simp
  rw [assembleLE, trim_eq_words_val, val_map_wordOfBytes (bs.getD · 0), valLE_eq_sum,
    Finset.eventually_constant_sum habsent (by omega)]

theorem byteFromEnd_eq_getD_reverse (bs : List Byte) (j : Nat) : byteFromEnd bs j = bs.reverse.getD j 0 := by
  rw [byteFromEnd]
  split
  next h => rw [List.getD_reverse j h]
  next h => rw [List.getD_eq_default _ _ (by simpa using h)]

/-- Assembling in big-endian order is assembling the reverse in little-endian order. -/
theorem assembleBE_eq_assembleLE_reverse (bs : List Byte) : assembleBE bs = assembleLE bs.reverse := by
  simp only [assembleBE, assembleLE, byteFromEnd_eq_getD_reverse, List.length_reverse]

/-! ### The obligation -/

/-- Settles O54: word by word the bytes stand at their weights, and the big-endian order is that of the reverse. -/
theorem byteAssemblyGivesTheNumber : Obligations.ByteAssemblyGivesTheNumber := by
  refine fun bs => ⟨assembleLE_eq_words bs, ?_⟩
  rw [assembleBE_eq_assembleLE_reverse, assembleLE_eq_words, valBE_eq_valLE_reverse]

end Sys2Proof.Machine
end

section
/-! `WRBE`, `WRLE`, `RDBE` and `RDLE`: what a write to a run of BM and a read of one do in either order, and that a read
finds what was written (spec/45_byte_io.md R230 to R235). -/

namespace Sys2Proof.Machine

/-! ### Writing a run of BM (45_byte_io.md R231, R232) -/

/-- The command completed and wrote `f j` at `addr + j` for every `j < n`, and wrote nothing else. -/
structure WroteRun (addr n : Nat) (f : Nat → Byte) (s t : State) : Prop where
  bRegs : SameB s t
  sRegs : SameS s t
  completed : Completed s t
  outside : SameBMOutside addr n s t
  inside : ∀ j, j < n → t.readByte (addr + j) = f j

theorem wroteRun_complete (s : State) (addr n : Nat) (f : Nat → Byte) :
    WroteRun addr n f s (s.memWrite addr ((List.range n).map f)).complete where
  bRegs _ := rfl
  sRegs _ := rfl
  completed := completed_complete s _ rfl rfl (s.sameControl_memWrite _ _)
  outside x hx := s.readByte_memWrite_outside addr x _ (by simpa using hx)
  inside j hj := by
    rw [State.complete_readByte, State.readByte_memWrite_inside _ _ _ _ (by simpa using hj)]
    simp

/-- The range check of 45_byte_io.md R230, then one write of the bytes `f 0, f 1, ..` to the run. -/
def runWrite (i : Instr) (p n : SReg) (f : Nat → Byte) (s : State) : Result :=
  if s.runOk p n then done (s.memWrite (s.natS p) ((List.range (s.natS n)).map f)) else raised .bmRange i s

theorem exec_wrbe_eq_runWrite (a : BReg) (p n : SReg) (s : State) :
    exec (.wrbe a p n) s = runWrite (.wrbe a p n) p n (fun j => byteOf (s.valB a) (s.natS n - 1 - j)) s := rfl

theorem exec_wrle_eq_runWrite (a : BReg) (p n : SReg) (s : State) :
    exec (.wrle a p n) s = runWrite (.wrle a p n) p n (byteOf (s.valB a)) s := rfl

section
variable (i : Instr) {p n : SReg} (f : Nat → Byte) {s : State}

theorem runWrite_takesFault (h : s.params.bmSize < s.natS p + s.natS n) :
    ∃ t, runWrite i p n f s = .next t ∧ FaultTaken .bmRange (encode i) s t := by
  rw [runWrite, if_neg (mt (runOk_iff s p n).1 (Nat.not_le.2 h))]
  exact raised_takesFault .bmRange i s

theorem runWrite_writes (h : s.natS p + s.natS n ≤ s.params.bmSize) :
    ∃ t, runWrite i p n f s = .next t ∧ WroteRun (s.natS p) (s.natS n) f s t := by
  rw [runWrite, if_pos ((runOk_iff s p n).2 h)]
  exact ⟨_, rfl, wroteRun_complete s _ _ f⟩

variable {i f}

/-- When a write of a run has completed, the run was inside BM and has been written. -/
theorem wroteRun_of_runWrite {t : State} (hx : runWrite i p n f s = .next t) (hc : Completed s t) :
    s.natS p + s.natS n ≤ s.params.bmSize ∧ WroteRun (s.natS p) (s.natS n) f s t := by
  by_cases hin : s.natS p + s.natS n ≤ s.params.bmSize
  · obtain ⟨u, hu, hw⟩ := runWrite_writes i f hin
    cases Host.Outcome.next.inj (hx.symm.trans hu)
    exact ⟨hin, hw⟩
  · obtain ⟨u, hu, hf⟩ := runWrite_takesFault i f (Nat.not_le.1 hin)
    cases Host.Outcome.next.inj (hx.symm.trans hu)
    exact absurd hc hf.not_completed

/-- The scalars that name the run name the same run after the write, which then reads as written. -/
theorem WroteRun.runBytes {t : State} (h : WroteRun (s.natS p) (s.natS n) f s t) :
    t.runBytes p n = (List.range (s.natS n)).map f := by
  rw [State.runBytes, State.natS, State.natS, h.sRegs, h.sRegs]
  exact List.map_congr_left fun j hj => h.inside j (List.mem_range.1 hj)

theorem WroteRun.stays_inside {t : State} (h : WroteRun (s.natS p) (s.natS n) f s t)
    (hin : s.natS p + s.natS n ≤ s.params.bmSize) : t.natS p + t.natS n ≤ t.params.bmSize := by
  rwa [h.completed.control.params, State.natS, State.natS, h.sRegs, h.sRegs]

end

/-! ### Reading a run of BM (45_byte_io.md R233, R234) -/

/-- The range check of 45_byte_io.md R230, then the number `v` to `B[d]` under the capacity check. -/
def runRead (i : Instr) (d : BReg) (p n : SReg) (v : Nat) (s : State) : Result :=
  if s.runOk p n then finishB i d v s else raised .bmRange i s

theorem exec_rdbe_eq_runRead (d : BReg) (p n : SReg) (s : State) :
    exec (.rdbe d p n) s = runRead (.rdbe d p n) d p n (valBE (s.runBytes p n)) s := rfl

theorem exec_rdle_eq_runRead (d : BReg) (p n : SReg) (s : State) :
    exec (.rdle d p n) s = runRead (.rdle d p n) d p n (valLE (s.runBytes p n)) s := rfl

section
variable (i : Instr) (d : BReg) {p n : SReg} {s : State}

theorem runRead_takesFault (v : Nat) (h : s.params.bmSize < s.natS p + s.natS n) :
    ∃ t, runRead i d p n v s = .next t ∧ FaultTaken .bmRange (encode i) s t := by
  rw [runRead, if_neg (mt (runOk_iff s p n).1 (Nat.not_le.2 h))]
  exact raised_takesFault .bmRange i s

theorem runRead_of_inside (v : Nat) (h : s.natS p + s.natS n ≤ s.params.bmSize) :
    runRead i d p n v s = finishB i d v s :=
  if_pos ((runOk_iff s p n).2 h)

end

theorem State.getD_runBytes (s : State) (p n : SReg) {j : Nat} (hj : j < s.natS n) :
    (s.runBytes p n).getD j 0 = s.readByte (s.natS p + j) := by
  rw [List.getD_eq_getElem?_getD, State.runBytes, State.getElem?_memRead _ _ hj, Option.getD_some]

/-- The number of a run in big-endian order, byte by byte (45_byte_io.md R233). -/
theorem valBE_runBytes (s : State) (p n : SReg) : valBE (s.runBytes p n) =
    ∑ j ∈ Finset.range (s.natS n), (s.readByte (s.natS p + j)).toNat * 2 ^ (8 * (s.natS n - 1 - j)) := by
  have hlen : (s.runBytes p n).length = s.natS n := s.length_memRead _ _
  rw [valBE_eq_sum, hlen]
  exact Finset.sum_congr rfl fun j hj => by rw [s.getD_runBytes p n (Finset.mem_range.1 hj)]

/-- The number of a run in little-endian order, byte by byte (45_byte_io.md R234). -/
theorem valLE_runBytes (s : State) (p n : SReg) : valLE (s.runBytes p n) =
    ∑ j ∈ Finset.range (s.natS n), (s.readByte (s.natS p + j)).toNat * 2 ^ (8 * j) := by
  have hlen : (s.runBytes p n).length = s.natS n := s.length_memRead _ _
  rw [valLE_eq_sum, hlen]
  exact Finset.sum_congr rfl fun j hj => by rw [s.getD_runBytes p n (Finset.mem_range.1 hj)]

/-! ### Reading back (45_byte_io.md R235) -/

/-- The low `n` bytes of a buffer are the whole buffer exactly when it needs no more bytes. -/
theorem words_mod_eq_iff {w : Buf} (h : Trimmed w) (n : Nat) : words (val w % 2 ^ (8 * n)) = w ↔ bytes w ≤ n := by
  have hwords : words (val w % 2 ^ (8 * n)) = w ↔ val w % 2 ^ (8 * n) = val w :=
    ⟨fun he => by rw [← val_words (val w % 2 ^ (8 * n)), he], fun he => by rw [he, words_val w h]⟩
  rw [hwords, Nat.mod_eq_iff_lt (by positivity), val_lt_two_pow_iff_bytes h]

/-- After a completed write, a read of the same run that finds the low bytes of `B[a]` completes with them. -/
theorem runRead_low_bytes {s t : State} (a d : BReg) {p n : SReg} {f : Nat → Byte} (i : Instr) {v : Nat}
    (hinv : Inv s) (hin : s.natS p + s.natS n ≤ s.params.bmSize) (hw : WroteRun (s.natS p) (s.natS n) f s t)
    (hv : v = s.valB a % 2 ^ (8 * s.natS n)) :
    ∃ u, runRead i d p n v t = .next u ∧ Completed t u ∧ u.valB d = s.valB a % 2 ^ (8 * s.natS n) ∧
      (u.readB d = s.readB a ↔ bytes (s.readB a) ≤ s.natS n) := by
  subst hv
  have hfits : s.valB a % 2 ^ (8 * s.natS n) < 2 ^ (32 * t.params.cap) := by
    rw [hw.completed.control.params]
    exact (Nat.mod_le _ _).trans_lt (hinv.regsOk.valB_lt a)
  obtain ⟨u, hu, hread⟩ := finishB_writes i d hfits
  refine ⟨u, (runRead_of_inside i d _ (hw.stays_inside hin)).trans hu, hread.completed, hread.valB_dest, ?_⟩
  rw [hread.dest]
  exact words_mod_eq_iff (hinv.trimmed a) _

/-! ### The obligations -/

/-- Settles O19: one write to a run of BM, of the bytes of the number in either order. -/
theorem wrbeAndWrleWriteExactlyNBytes : Obligations.WrbeAndWrleWriteExactlyNBytes := by
  refine fun a p n s => ⟨toNat_formatR_three 0x50 a p n, toNat_formatR_three 0x51 a p n,
    fun hout => ⟨runWrite_takesFault _ _ hout, runWrite_takesFault _ _ hout⟩, fun hin => ⟨?_, ?_⟩⟩
  · obtain ⟨t, hx, hw⟩ := runWrite_writes (.wrbe a p n) (fun j => byteOf (s.valB a) (s.natS n - 1 - j)) hin
    exact ⟨t, hx, hw.bRegs, hw.sRegs, hw.completed, hw.outside, fun j hj => by rw [hw.inside j hj, toNat_byteOf]⟩
  · obtain ⟨t, hx, hw⟩ := runWrite_writes (.wrle a p n) (byteOf (s.valB a)) hin
    exact ⟨t, hx, hw.bRegs, hw.sRegs, hw.completed, hw.outside, fun j hj => by rw [hw.inside j hj, toNat_byteOf]⟩

/-- Settles O20: the sum of the weights is the number of the run, which the capacity check then admits or refuses. -/
theorem rdbeAndRdleReadNBytes : Obligations.RdbeAndRdleReadNBytes := by
  refine fun d p n s => ⟨toNat_formatR_three 0x52 d p n, toNat_formatR_three 0x53 d p n,
    fun hout => ⟨runRead_takesFault _ d _ hout, runRead_takesFault _ d _ hout⟩, fun hin big little hbig hlittle => ?_⟩
  rw [← valBE_runBytes] at hbig
  rw [← valLE_runBytes] at hlittle
  rw [exec_rdbe_eq_runRead, exec_rdle_eq_runRead, ← hbig, ← hlittle, runRead_of_inside _ d _ hin,
    runRead_of_inside _ d _ hin]
  exact ⟨finishB_writes _ d, finishB_takesFault _ d, finishB_writes _ d, finishB_takesFault _ d⟩

/-- Settles O56: the run still reads as written, its number is the low part of a register's, so it fits one. -/
theorem bytesReadBackAsWritten : Obligations.BytesReadBackAsWritten := by
  refine ⟨fun s t a d p n hinv hc hx => ?_, fun s t a d p n hinv hc hx => ?_, bytesBE_eq_reverse,
    valBE_eq_valLE_reverse⟩
  · obtain ⟨hin, hw⟩ := wroteRun_of_runWrite hx hc
    have hnumber : valBE (t.runBytes p n) = s.valB a % 2 ^ (8 * s.natS n) := by
      rw [hw.runBytes]
      exact valBE_bytesBE _ _
    exact runRead_low_bytes a d _ hinv hin hw hnumber
  · obtain ⟨hin, hw⟩ := wroteRun_of_runWrite hx hc
    have hnumber : valLE (t.runBytes p n) = s.valB a % 2 ^ (8 * s.natS n) := by
      rw [hw.runBytes]
      exact valLE_bytesLE _ _
    exact runRead_low_bytes a d _ hinv hin hw hnumber

end Sys2Proof.Machine
end

section
/-! Faults and the host: which faults a command raises and which of them it reports, what holds in `FAULT`, what the
host may do and read, and the values a status read gives during a run (spec/60_exceptions.md R250 to R264). -/

namespace Sys2Proof.Machine

/-! ### A command or a step that ends in `FAULT` (60_exceptions.md R250, R258) -/

/-- Only fault entry takes a running unit to `FAULT`: `HALT` and completion leave `RS` at other values. -/
theorem exec_faulted {i : Instr} {s t : State} (hrun : s.rs = .run) (hx : exec i s = .next t) (hf : t.rs = .fault) :
    ∃ f ∈ mayRaise i, t = s.raise f (encode i) := by
  obtain ⟨-, rfl⟩ | ⟨-, hdone⟩ | hraise := exec_ends hx
  · exact nomatch hf
  · exact nomatch hf.symm.trans (hdone.rs.trans hrun)
  · exact hraise

/-- The code that a fault leaves in `CAUSE.CODE`, whatever else it records. -/
theorem reports_of_takesFault {r : Result} {f : Cause} {w : Word} {s : State}
    (h : ∃ t, r = .next t ∧ FaultTaken f w s t) : ∃ t, r = .next t ∧ t.causeCode = f.code.setWidth 3 :=
  h.imp fun _ ⟨hr, ht⟩ => ⟨hr, ht.causeCode⟩

theorem raised_reports (f : Cause) (i : Instr) (s : State) :
    ∃ t, raised f i s = .next t ∧ t.causeCode = f.code.setWidth 3 :=
  reports_of_takesFault (raised_takesFault f i s)

/-! ### Host access (60_exceptions.md R264) -/

theorem notRunning_iff (s : State) : s.notRunning = true ↔ s.rs ≠ .run := by
  simp [State.notRunning]

section
variable {s : State} {a : Nat}

theorem hostReadBM_of_run (h : s.rs = .run) : s.hostReadBM a = none :=
  if_neg fun hc => (notRunning_iff s).1 hc.1 h

theorem hostWriteBM_of_run (v : Byte) (h : s.rs = .run) : s.hostWriteBM a v = none :=
  if_neg fun hc => (notRunning_iff s).1 hc.1 h

theorem hostReadS_of_run (c : SReg) (h : s.rs = .run) : s.hostReadS c = none :=
  if_neg fun hc => (notRunning_iff s).1 hc h

theorem hostReadBM_of_not_run (h : s.rs ≠ .run) (ha : a < s.params.bmSize) : s.hostReadBM a = some (s.readByte a) :=
  if_pos ⟨(notRunning_iff s).2 h, ha⟩

theorem hostWriteBM_of_not_run (v : Byte) (h : s.rs ≠ .run) (ha : a < s.params.bmSize) :
    s.hostWriteBM a v = some (s.memWrite a [v]) :=
  if_pos ⟨(notRunning_iff s).2 h, ha⟩

theorem hostReadS_of_not_run (c : SReg) (h : s.rs ≠ .run) : s.hostReadS c = some (s.readS c) :=
  if_pos ((notRunning_iff s).2 h)

end

/-- A write of one byte changes that byte and no other (20_memory.md R53). -/
theorem readByte_memWrite_singleton (s : State) (a : Nat) (v : Byte) :
    (s.memWrite a [v]).readByte a = v ∧ ∀ x, x ≠ a → (s.memWrite a [v]).readByte x = s.readByte x := by
  refine ⟨s.readByte_memWrite_inside a 0 [v] Nat.one_pos, fun x hx => s.readByte_memWrite_outside a x [v] ?_⟩
  rw [List.length_singleton]
  omega

/-- Starting a run keeps the B and S registers (70_reset_and_hazards.md R283). -/
theorem start_keeps_registers (s : State) (prog : List Word) : SameB s (s.start prog) ∧ SameS s (s.start prog) := by
  by_cases hs : s.rs = .idle ∨ s.rs = .halted
  · rw [start_of_idle_or_halted hs]
    exact ⟨fun _ => rfl, fun _ => rfl⟩
  · rw [start_of_run_or_fault hs]
    exact ⟨fun _ => rfl, fun _ => rfl⟩

/-- Reset is the only host action that reaches the B and S registers (60_exceptions.md R264). -/
theorem hostAct_keeps_registers {s t : State} {act : HostAction} (hact : act ≠ .reset) (h : s.hostAct act = some t) :
    SameB s t ∧ SameS s t := by
  obtain ⟨hreset, -⟩ | ⟨prog, -, rfl⟩ | ⟨x, v, -, -, -, rfl⟩ := hostAct_cases s t act h
  · exact absurd hreset hact
  · exact start_keeps_registers s prog
  · exact ⟨s.memWrite_readB x [v], s.memWrite_readS x [v]⟩

/-- In `FAULT` a host action other than reset can at most write BM (60_exceptions.md R260, R264). -/
theorem hostAct_of_fault {s t : State} {act : HostAction} (hf : s.rs = .fault) (hact : act ≠ .reset)
    (h : s.hostAct act = some t) : SameControl s t ∧ t.cc = s.cc := by
  obtain ⟨hreset, -⟩ | ⟨prog, -, rfl⟩ | ⟨x, v, -, -, -, rfl⟩ := hostAct_cases s t act h
  · exact absurd hreset hact
  · rw [start_of_run_or_fault (by simp [hf])]
    exact ⟨sameControl_refl s, rfl⟩
  · exact ⟨s.sameControl_memWrite x [v], rfl⟩

/-! ### The command boundaries of a run (10_state.md R30, R31) -/

section
variable {M : Host.Core} {s t : M.State}

theorem coreRun_succ_eq_next_iff {n : Nat} :
    M.run (n + 1) s = .next t ↔ ∃ u, M.step s = .next u ∧ M.run n u = .next t := by
  rw [Host.Core.run]
  cases M.step s <;> simp

/-- A run passes through each of its boundaries. -/
theorem boundary_of_coreRun (m : Nat) {n : Nat} (h : M.run (m + n) s = .next t) :
    ∃ u, M.run m s = .next u ∧ M.run n u = .next t := by
  induction m generalizing s with
  | zero => exact ⟨s, rfl, by rwa [Nat.zero_add] at h⟩
  | succ m ih =>
    rw [Nat.add_right_comm] at h
    obtain ⟨s', hs, hrest⟩ := coreRun_succ_eq_next_iff.1 h
    obtain ⟨u, hu, ht⟩ := ih hrest
    exact ⟨u, coreRun_succ_eq_next_iff.2 ⟨s', hs, hu⟩, ht⟩

end

/-- `n` commands completed: `CC` and the index advanced by `n`, the control state unchanged. -/
structure CompletedTimes (n : Nat) (s t : State) : Prop where
  cc : t.cc = s.cc + BitVec.ofNat 32 n
  k : t.k = s.k + n
  control : SameControl s t

theorem CompletedTimes.cons {n : Nat} {s t u : State} (h : Completed s t) (h' : CompletedTimes n t u) :
    CompletedTimes (n + 1) s u where
  cc := by rw [h'.cc, h.cc, BitVec.add_assoc, BitVec.add_comm 1, BitVec.ofNat_add]; rfl
  k := by rw [h'.k, h.k]; omega
  control := h.control.trans h'.control

theorem CompletedTimes.rs {n : Nat} {s t : State} (h : CompletedTimes n s t) : t.rs = s.rs :=
  rs_eq_of_status_eq h.control.status

/-- A step that leaves the unit running has completed its command. -/
theorem completed_of_step {s t : State} (h : step s = .next t) (hrun : t.rs = .run) : Completed s t := by
  obtain ⟨-, c, -, ⟨-, -, rfl⟩ | ⟨-, -, -, ⟨-, rfl⟩ | ⟨-, hdone⟩ | ⟨f, -, rfl⟩⟩⟩ := step_ends h
  · exact nomatch hrun
  · exact nomatch hrun
  · exact hdone
  · exact nomatch hrun

/-- When the unit still runs after `n` steps, each of them has completed its command. -/
theorem completedTimes_of_run {n : Nat} {s t : State} (h : Host.Core.run Sys2Proof.core n s = .next t)
    (hrun : t.rs = .run) : CompletedTimes n s t := by
  induction n generalizing s with
  | zero =>
    obtain rfl : s = t := Host.Outcome.next.inj h
    exact ⟨(BitVec.add_zero _).symm, rfl, sameControl_refl s⟩
  | succ n ih =>
    obtain ⟨u, hu, hrest⟩ := coreRun_succ_eq_next_iff.1 h
    have hlater : CompletedTimes n u t := ih hrest
    exact .cons (completed_of_step hu (hlater.rs.symm.trans hrun)) hlater

/-- The closed form `statusAt` (log entry 18) gives what a register held at boundary `m` of a run that began with
`CC = 0`, whichever later boundary it is computed from. -/
theorem readStatus_eq_statusAt {m n : Nat} {s u t : State} (hcc : s.cc = 0) (hu : CompletedTimes m s u)
    (ht : CompletedTimes n u t) (r : StatusReg) : u.readStatus r = t.statusAt m r := by
  cases r with
  | status => exact ht.control.status.symm
  | cause => exact ht.control.cause.symm
  | ecc => exact ht.control.ecc.symm
  | ecmd => exact ht.control.ecmd.symm
  | cc => exact hu.cc.trans (by rw [hcc]; exact BitVec.zero_add _)

/-- Every boundary of a run that still goes on has a state, whose registers `statusAt` gives from the present one. -/
theorem boundary_of_run {m n : Nat} {s t : State} (hcc : s.cc = 0) (hmn : m ≤ n)
    (h : Host.Core.run Sys2Proof.core n s = .next t) (hrun : t.rs = .run) :
    ∃ u, Host.Core.run Sys2Proof.core m s = .next u ∧ ∀ r, u.readStatus r = t.statusAt m r := by
  rw [← Nat.add_sub_cancel' hmn] at h
  obtain ⟨u, hu, hrest⟩ := boundary_of_coreRun m h
  have hlater : CompletedTimes (n - m) u t := completedTimes_of_run hrest hrun
  exact ⟨u, hu, readStatus_eq_statusAt hcc (completedTimes_of_run hu (hlater.rs.symm.trans hrun)) hlater⟩

/-! ### The obligations -/

/-- Settles O28: `HALT` and completion do not end in `FAULT`, so the command has raised one of its faults. -/
theorem onlyTheListedFaultsAreRaised : Obligations.OnlyTheListedFaultsAreRaised := by
  intro i s t hrun hx hf
  obtain ⟨f, hmem, rfl⟩ := exec_faulted hrun hx hf
  exact ⟨f, hmem, faultTaken_raise s f _⟩

/-- Settles O29: the fault is that of an illegal word, or of a command whose own word is the word fetched. -/
theorem faultsAreTakenWithoutEffect : Obligations.FaultsAreTakenWithoutEffect := by
  intro s t h hf
  obtain ⟨c, hrun, hc, ⟨e, -, rfl⟩ | ⟨i, hd, hx⟩⟩ := step_cases s t h
  · exact ⟨.illegalCmd, c, hc, faultTaken_raise s _ c⟩
  · obtain ⟨f, -, rfl⟩ := exec_faulted hrun hx hf
    rw [encode_of_decode hd]
    exact ⟨f, c, hc, faultTaken_raise s f c⟩

/-- Settles O30: each check is made before those that R259 places after it, so its fault is reported whatever they
would find. -/
theorem faultPriorityOrder : Obligations.FaultPriorityOrder := by
  refine ⟨fun s c e hrun hc hd => ?_, fun l a b m p s hb => ?_, fun d c b p n s hb => ?_,
    fun d c b p n s hb hb36 hout => ?_, fun d p n s hout => ⟨?_, ?_⟩⟩
  · exact reports_of_takesFault ⟨_, step_eq_raise hrun hc hd, faultTaken_raise s _ c⟩
  · rw [exec_fmt_of_bad_base hb]
    exact raised_reports .badBase _ s
  · rw [exec_parse_of_bad_base hb]
    exact raised_reports .badBase _ s
  · rw [exec_parse_of_outside hb hb36 hout]
    exact raised_reports .bmRange _ s
  · exact reports_of_takesFault (runRead_takesFault (.rdbe d p n) d _ hout)
  · exact reports_of_takesFault (runRead_takesFault (.rdle d p n) d _ hout)

/-- Settles O31: a step needs `RUN`, `start` needs `IDLE` or `HALTED`, and a host write reaches BM alone. -/
theorem faultIsAbsorbing : Obligations.FaultIsAbsorbing := by
  intro s hf
  refine ⟨fun t h => (nomatch hf.symm.trans (step_ends h).1), start_of_run_or_fault (by simp [hf]),
    fun a t hact h => ?_, rfl, rfl, rfl, rfl⟩
  obtain ⟨hcontrol, hcc⟩ := hostAct_of_fault hf hact h
  exact ⟨(rs_eq_of_status_eq hcontrol.status).trans hf, hcontrol.status, hcontrol.cause, hcontrol.ecc,
    hcontrol.ecmd, hcc⟩

/-- Settles O34: each access is guarded by "not running", and a host write is a write to BM of one byte. -/
theorem hostActsOnlyAsTheTableAllows : Obligations.HostActsOnlyAsTheTableAllows := by
  refine fun s => ⟨fun hrun a v c => ⟨hostReadBM_of_run hrun, hostWriteBM_of_run v hrun, hostReadS_of_run c hrun⟩,
    fun hstop c => hostReadS_of_not_run c hstop, fun hstop a ha v => ⟨hostReadBM_of_not_run hstop ha, ?_⟩,
    fun hstop r v => ?_, fun act t hact h => hostAct_keeps_registers hact h⟩
  · obtain ⟨hsame, hother⟩ := readByte_memWrite_singleton s a v
    exact ⟨_, hostWriteBM_of_not_run v hstop ha, hsame, hother, s.memWrite_readB a [v], s.memWrite_readS a [v],
      s.sameControl_memWrite a [v], s.memWrite_cc a [v], s.memWrite_k a [v]⟩
  · rw [mayReadStatus_stopped s r v hstop]
    cases r <;> rfl

/-- Settles O60: the index counts the steps of the run, so the boundaries that the closed form ranges over are those
the run has passed. -/
theorem statusReadsGiveABoundaryValue : Obligations.StatusReadsGiveABoundaryValue := by
  intro s t prog n hs h hrun r v
  have hstart := start_of_idle_or_halted hs prog
  have hcc : (s.start prog).cc = 0 := by rw [hstart]
  have hk : t.k = n := by rw [(completedTimes_of_run h hrun).k, hstart]; exact Nat.zero_add n
  rw [mayReadStatus_running t r v hrun, hk]
  constructor
  · rintro ⟨m, hm, rfl⟩
    obtain ⟨u, hu, hread⟩ := boundary_of_run hcc hm h hrun
    exact ⟨m, u, hm, hu, (hread r).symm⟩
  · rintro ⟨m, u, hm, hu, rfl⟩
    obtain ⟨u', hu', hread⟩ := boundary_of_run hcc hm h hrun
    obtain rfl : u = u' := Host.Outcome.next.inj (hu.symm.trans hu')
    exact ⟨m, hm, hread r⟩

end Sys2Proof.Machine
end

section
/-! Runs: what `start` begins, what the host can change while the unit runs, and the end that every run reaches
(spec/70_reset_and_hazards.md R283, R286, R289). -/

namespace Sys2Proof.Machine

/-! ### While the unit runs (70_reset_and_hazards.md R283) -/

/-- In `RUN` a host action other than reset is ignored or refused. -/
theorem hostAct_of_run {s t : State} {act : HostAction} (hrun : s.rs = .run) (hact : act ≠ .reset)
    (h : s.hostAct act = some t) : t = s := by
  obtain ⟨hreset, -⟩ | ⟨prog, -, rfl⟩ | ⟨-, -, -, hstop, -⟩ := hostAct_cases s t act h
  · exact absurd hreset hact
  · exact start_of_run_or_fault (by simp [hrun]) prog
  · exact absurd hrun hstop

/-! ### The end of a run (70_reset_and_hazards.md R286) -/

/-- The three ends of a run, as conditions on the state. -/
theorem runEnd_ne_none_iff (s : State) :
    s.runEnd ≠ none ↔ s.rs = .halted ∨ s.rs = .fault ∨ s.rs = .run ∧ s.prog.length ≤ s.k := by
  cases hrs : s.rs <;> simp [State.runEnd, hrs]

/-- A step ends the run or completes its command (10_state.md R31). -/
theorem step_ends_run_or_completes {s t : State} (h : step s = .next t) : t.runEnd ≠ none ∨ Completed s t := by
  rw [runEnd_ne_none_iff]
  obtain ⟨-, -, -, ⟨-, -, rfl⟩ | ⟨-, -, -, ⟨-, rfl⟩ | ⟨-, hdone⟩ | ⟨-, -, rfl⟩⟩⟩ := step_ends h
  · exact .inl (.inr (.inl rfl))
  · exact .inl (.inl rfl)
  · exact .inr hdone
  · exact .inl (.inr (.inl rfl))

/-- A running unit reaches an end of its run within the commands that are left, by induction on their number: a step
that does not end the run leaves one command fewer (70_reset_and_hazards.md R289). -/
theorem run_reaches_end {s : State} (hrun : s.rs = .run) : ∃ n, n ≤ s.prog.length - s.k ∧
    ∃ t, Host.Core.run Sys2Proof.core n s = .next t ∧ t.runEnd ≠ none := by
  induction hleft : s.prog.length - s.k generalizing s with
  | zero => exact ⟨0, le_rfl, s, rfl, (runEnd_ne_none_iff s).2 (.inr (.inr ⟨hrun, Nat.le_of_sub_eq_zero hleft⟩))⟩
  | succ m ih =>
    obtain ⟨u, hu⟩ := (step_enabled_iff s).2 ⟨hrun, by omega⟩
    obtain hend | hdone := step_ends_run_or_completes hu
    · exact ⟨1, by omega, u, coreRun_succ_eq_next_iff.2 ⟨u, hu, rfl⟩, hend⟩
    · have hfewer : u.prog.length - u.k = m := by
        rw [hdone.control.prog, hdone.k]
        omega
      obtain ⟨n, hn, t, ht, hend⟩ := ih (hdone.rs.trans hrun) hfewer
      exact ⟨n + 1, by omega, t, coreRun_succ_eq_next_iff.2 ⟨u, hu, ht⟩, hend⟩

/-! ### The obligations -/

/-- Settles O35: a step needs `RUN` and a command that is left, and no end of a run has both. -/
theorem everyRunEnds : Obligations.EveryRunEnds := by
  refine ⟨fun s hrun => run_reaches_end hrun, fun s hend t h => ?_⟩
  obtain ⟨hrun, hk⟩ := (step_enabled_iff s).1 ⟨t, h⟩
  obtain hhalted | hfault | ⟨-, hstuck⟩ := (runEnd_ne_none_iff s).1 hend
  · exact nomatch hrun.symm.trans hhalted
  · exact nomatch hrun.symm.trans hfault
  · omega

/-- Settles O33: `start` rewrites the control state alone, and only where no run is on and no fault stands. -/
theorem startBeginsARun : Obligations.StartBeginsARun := by
  refine fun s prog => ⟨fun hs => ?_, fun hs => start_of_run_or_fault ?_ prog,
    fun hrun a t hact h => hostAct_of_run hrun hact h⟩
  · exact ⟨_, (start_of_idle_or_halted hs prog).symm, rfl, RunState.code_lt .run, rfl, rfl, rfl, rfl, rfl, rfl,
      fun _ => rfl, fun _ => rfl, fun _ => rfl, rfl⟩
  · obtain hrun | hfault := hs
    · simp [hrun]
    · simp [hfault]

end Sys2Proof.Machine
end
